-- ==== Sys2Proof/Word.lean ====
section
/-!
DEFINITION. The word types of the command port and of the buffers.
-/
namespace Sys2Proof

/-- A command word on CMD and a response word on RESP: 32 bits (R80, R81). -/
abbrev Word := BitVec 32

/-- One byte of a buffer: a nibble in bits 3:0, bits 7:4 zero (R60, R63). -/
abbrev Byte := BitVec 8

/-- A tick count or a capture-timer value: TW = 16 bits, unsigned (R8, R83, R84). -/
abbrev Ticks := BitVec 16

end Sys2Proof
end

