-- ==== Sys2Proof/Syntax.lean ====
section
/-!
DEFINITION. The commands of the block: one constructor per row of spec/opcode_table.json (30_encoding.md rule R87).
Every operand has the width of its field, so every value of an operand is one the encoding admits (R89).
-/
namespace Sys2Proof

/-- The phase of a measured interval: HI = 1 (signal high), LO = 0 (signal low) (R11, R102). -/
inductive Phase where
  | lo
  | hi
  deriving DecidableEq, Repr

/-- A command. STATUS has three rows (SEL = 0, 1, 2), hence three constructors (log 13). -/
inductive Instr where
  /-- INIT, format N (R220). -/
  | init
  /-- EDGE, format E: PH and TICKS (R100). -/
  | edge (ph : Phase) (ticks : Ticks)
  /-- CAPTURE, format C: OVF, PH and CAP (R103). -/
  | capture (ovf : BitVec 2) (ph : Phase) (cap : Ticks)
  /-- TIMEOUT, format N (R170). -/
  | timeout
  /-- AVAIL, format N (R221). -/
  | avail
  /-- GETDATA, format G: MAXLEN (R180). -/
  | getdata (maxLen : BitVec 7)
  /-- START, format N (R222). -/
  | start
  /-- STATUS 0: the control view (R223). -/
  | statusControl
  /-- STATUS 1: the counters view (R223). -/
  | statusCounters
  /-- STATUS 2: the capture view (R223). -/
  | statusCapture
  deriving DecidableEq, Repr

end Sys2Proof
end

