-- ==== Sys2Proof/Decode.lean ====
section
/-!
DEFINITION. The decoder, total on every 32-bit word (30_encoding.md rule R90), and the encoder, written from the
formats N, E, C, G, S (rules R82 to R86).
-/
namespace Sys2Proof

/-- Why a word is illegal (R88). -/
inductive Illegal where
  /-- OP ≥ 0x8. -/
  | reservedOpcode
  /-- A reserved field of the word's format is non-zero. -/
  | reservedField
  /-- OP = 0x7 with SEL = 3. -/
  | reservedSelector
  deriving DecidableEq, Repr

/-- PH = 1 is HI, PH = 0 is LO (R83, R89). -/
def phaseOfBit (b : BitVec 1) : Phase := if b = 1#1 then .hi else .lo

/-- The bit of a phase (R83). -/
def bitOfPhase : Phase → BitVec 1
  | .hi => 1#1
  | .lo => 0#1

/-- `i` if the reserved bits are zero (R88). -/
def ifZero {n : Nat} (reserved : BitVec n) (i : Instr) : Except Illegal Instr :=
  if reserved = 0#n then .ok i else .error .reservedField

/-- The command of an OP = 0x7 word whose reserved field is zero (R86, R90). -/
def statusOfSel (sel : BitVec 2) : Except Illegal Instr :=
  if sel = 0#2 then .ok .statusControl
  else if sel = 1#2 then .ok .statusCounters
  else if sel = 2#2 then .ok .statusCapture
  else .error .reservedSelector

/-- Decode(w) of R90: OP = w[31:28] selects the format. -/
def decode (w : Word) : Except Illegal Instr :=
  match (w.extractLsb' 28 4).toNat with
  | 0 => ifZero (w.extractLsb' 0 28) .init
  | 1 => ifZero (w.extractLsb' 17 11) (.edge (phaseOfBit (w.extractLsb' 16 1)) (w.extractLsb' 0 16))
  | 2 => ifZero (w.extractLsb' 20 8 ++ w.extractLsb' 17 1)
      (.capture (w.extractLsb' 18 2) (phaseOfBit (w.extractLsb' 16 1)) (w.extractLsb' 0 16))
  | 3 => ifZero (w.extractLsb' 0 28) .timeout
  | 4 => ifZero (w.extractLsb' 0 28) .avail
  | 5 => ifZero (w.extractLsb' 7 21) (.getdata (w.extractLsb' 0 7))
  | 6 => ifZero (w.extractLsb' 0 28) .start
  | 7 => if w.extractLsb' 2 26 = 0#26 then statusOfSel (w.extractLsb' 0 2) else .error .reservedField
  | _ => .error .reservedOpcode

/-- The word of a command: OP in bits 31:28, then the fields of its format, reserved fields zero (R82 to R86). -/
def encode : Instr → Word
  | .init => 0x0#4 ++ 0#28
  | .edge ph ticks => 0x1#4 ++ 0#11 ++ bitOfPhase ph ++ ticks
  | .capture ovf ph cap => 0x2#4 ++ 0#8 ++ ovf ++ 0#1 ++ bitOfPhase ph ++ cap
  | .timeout => 0x3#4 ++ 0#28
  | .avail => 0x4#4 ++ 0#28
  | .getdata maxLen => 0x5#4 ++ 0#21 ++ maxLen
  | .start => 0x6#4 ++ 0#28
  | .statusControl => 0x7#4 ++ 0#26 ++ 0#2
  | .statusCounters => 0x7#4 ++ 0#26 ++ 1#2
  | .statusCapture => 0x7#4 ++ 0#26 ++ 2#2

/-- The command word whose low `nbits` bits are those of `w`, the bits above zero. -/
def tableWord (nbits w : Nat) : Word := BitVec.ofNat 32 (w % 2 ^ nbits)

/-- What the decoder reads from the word that the opcode table numbers `w`: bit 0 is the word's least significant bit
(R10), and a command is one word. -/
def decodeTableWord (nbits w : Nat) : Option Instr :=
  match decode (tableWord nbits w) with
  | .ok i => some i
  | .error _ => none

end Sys2Proof
end

