-- ==== Sys2Proof/Config.lean ====
section
/-!
DEFINITION. The parameter set of one instance of the block (00_scope.md rules R7, R8) and the free value of
STALE_MODE = ANY (20_memory.md rule R74). The parameters are plain data carried by the state and changed by no step.
-/
namespace Sys2Proof

/-- The size of each of the four byte memories: "each indexed 0..63" (R60). -/
def bufBytes : Nat := 64

/-- A classifier triple (t0, t1, t2), 16 bits each (R8). -/
structure Thresholds where
  t0 : Ticks
  t1 : Ticks
  t2 : Ticks
  deriving DecidableEq, Repr

/-- OVF1_MODE: how CAPTURE treats exactly one timer overflow (R8, R103). -/
inductive Ovf1Mode where
  | modular
  | clamp
  deriving DecidableEq, Repr

/-- TIMEOUT_EFFECT: whether TIMEOUT can change the protocol state (R8, R173). -/
inductive TimeoutEffect where
  | effective
  | disabled
  deriving DecidableEq, Repr

/-- STALE_MODE: what RAW bytes not written in the current message hold (R8, R74). -/
inductive StaleMode where
  | retained
  | any
  deriving DecidableEq, Repr

/-- The literals of the source, each a field whose default is the source's value (R7). -/
structure Constants where
  /-- CAP_NIB: the capacity of RawPacket in nibbles (log 9). -/
  capNib : Nat := 64
  /-- CAP_BITS = CAP_NIB × 4: the capacity of RawPacket in bits (log 9). -/
  capBits : Nat := 4 * capNib
  /-- V3_PRE: commit to V3 when shortCnt exceeds it. -/
  v3Pre : Nat := 20
  /-- V2_PRE: commit to V2.1 when longCnt exceeds it. -/
  v2Pre : Nat := 25
  /-- MIN_BITS_NOISE: a Noise ends the message when at least this many bits are held. -/
  minBitsNoise : Nat := 40
  /-- MIN_BITS_TMO: a TIMEOUT ends the message when more than this many bits are held. -/
  minBitsTmo : Nat := 40
  /-- SYNC: the sync nibble. -/
  sync : Byte := 0x0A#8
  /-- DUP_MIN_LEN: the duplicate scan runs only if the length exceeds it. -/
  dupMinLen : Nat := 27
  /-- DUP_SCAN_START: the first nibble index shifted into the scan register. -/
  dupScanStart : Nat := 10
  /-- DUP_MASK: the low 20 bits of the scan register. -/
  dupMask : BitVec 20 := 0xFFFFF#20
  /-- DUP_PATTERN: four 0xF nibbles and the sync nibble (90_conflicts.md C4). -/
  dupPattern : BitVec 20 := 0xFFFFA#20
  /-- DUP_CUT: the first copy's length becomes offset − DUP_CUT. -/
  dupCut : Nat := 4
  /-- CS_BACK: checksum position = length − CS_BACK; final length = position + CS_BACK. -/
  csBack : Nat := 4
  /-- DEDUP_MS: the V2.1 repeat window in milliseconds. -/
  dedupMs : Nat := 1000
  /-- MAX_OUT: the most bytes a delivered packet may have. -/
  maxOut : Nat := 64
  deriving DecidableEq, Repr

/-- The source's constants: every literal of R7 at the value the source gives. -/
def Constants.source : Constants := {}

/-- A parameter set (R7, R8). A field without a default is OPEN: the spec gives no value for it. -/
structure Config where
  /-- The literals of R7. -/
  consts : Constants := {}
  /-- TW: width in bits of a tick count; R9 admits 16 only. -/
  tw : Nat := 16
  /-- TICK: the duration of one tick; no rule of the block reads it (log 16). -/
  tick : Nat
  /-- THR_HI: the triple for the signal-high phase. -/
  thrHi : Thresholds
  /-- THR_LO: the triple for the signal-low phase. -/
  thrLo : Thresholds
  /-- OVF1_MODE. -/
  ovf1Mode : Ovf1Mode := .modular
  /-- REALISTIC_MAX: the elapsed value for one overflow under OVF1_MODE = CLAMP. -/
  realisticMax : Ticks
  /-- T_COMPLETE: the completion timer's time-out; only the environment applies it (R172, log 16). -/
  tComplete : Nat
  /-- TIMEOUT_EFFECT. -/
  timeoutEffect : TimeoutEffect := .effective
  /-- STALE_MODE. -/
  staleMode : StaleMode := .retained
  /-- CNT_W: width in bits of shortCnt and longCnt, saturating. -/
  cntW : Nat := 8
  /-- TIME_W: width in bits of NOW and of the dedup timestamp. -/
  timeW : Nat := 32
  deriving DecidableEq, Repr

/-- The test parameter set TP of 95_test_vectors.md section 0: both triples (100, 300, 500), the modes and widths at
their defaults. DESIGN CHOICE (log 1): TP names no TICK, T_COMPLETE and REALISTIC_MAX; they are 0 here. -/
def Config.tp : Config where
  tick := 0
  thrHi := { t0 := 100#16, t1 := 300#16, t2 := 500#16 }
  thrLo := { t0 := 100#16, t1 := 300#16, t2 := 500#16 }
  realisticMax := 0#16
  tComplete := 0

/-- FREE VALUE (log 6): the nibble that the `k`-th draw of an unwritten RAW byte gives under STALE_MODE = ANY (R74: "an
unspecified value below 16 that a model draws freely"). It has no body, so nothing can be proved of its value. -/
opaque Config.freeNibble : Nat → BitVec 4

end Sys2Proof
end

