-- ==== Sys2Proof/Machine/State.lean ====
section
/-!
DEFINITION. The state of the block (10_state.md rules R20 to R37), the reasons a step can stop, and the state after
INIT. Beside the rows of R20 it holds what a step reads from or drives onto the ports (R37), the instance's parameter
set (R8), the model's trace of causes (R241) and the counter of free values (R74).
-/
namespace Sys2Proof.Machine

/-- ProtocolState (R21). -/
inductive ProtocolState where
  | idle
  | rxv3
  | rxv2
  | ready
  deriving DecidableEq, Repr

/-- The cause codes a to e of R241; no port shows them (R249). -/
inductive Cause where
  /-- a: invalid preamble or inconsistent pulse sequence. -/
  | syncFailure
  /-- b: impossible pulse pairing mid-message. -/
  | structuralViolation
  /-- c: a packet that fails validation (GETDATA failures F3 and F4). -/
  | checksumFailure
  /-- d: the bit cursor would exceed the capacity. -/
  | bufferOverflow
  /-- e: a redundant V2.1 packet (GETDATA failure F5). -/
  | duplicateSuppressed
  deriving DecidableEq, Repr

/-- A stop of the model, not of the block, which never halts (R240). -/
inductive Fault where
  /-- A buffer index outside 0..63 (R60: "a model that reaches one has a bug and must fault"). Raised by memRead and
  memWrite. SAFE: under the source's constants no step reaches it. -/
  | bufferIndex
  deriving DecidableEq, Repr

/-- Why the model gives a step no meaning. -/
inductive Refusal where
  /-- A command that has no meaning yet; no arm uses it. SAFE. -/
  | notModelled (mnemonic : String)
  /-- R9: "A model refuses an ill-formed parameter set." Raised by step. SAFE. -/
  | illFormedParameters
  deriving DecidableEq, Repr

/-- A byte memory as (index, byte) pairs in canonical form: indices strictly rising and below 64, no byte zero. An
unlisted index reads as 0, the content INIT gives every buffer (R220; log 7). -/
abbrev Memory := List Host.Cell

/-- One command on the inputs: the word on CMD and the value NOW has when the block accepts it (R37). -/
structure CommandIn where
  cmd : Word
  now : Nat
  deriving DecidableEq, Repr

/-- The whole machine. -/
structure State where
  /-- The instance's parameter set (R7, R8); no step changes it. -/
  cfg : Config
  /-- CMD: the commands still to be accepted, oldest first (R37, R38, R244; log 3). -/
  pending : List CommandIn
  /-- NOW, a TIME_W-bit millisecond count, as it stands for the command being processed (R37, R189). -/
  now : Nat
  /-- st (R21). -/
  st : ProtocolState
  /-- ver: 0 none, 2 V2.1, 3 V3 (R22). -/
  ver : BitVec 2
  /-- shortCnt: a CNT_W-bit number, 8 bits by default (R8, R23; log 8). -/
  shortCnt : Nat
  /-- longCnt: a CNT_W-bit number, 8 bits by default (R8, R24; log 8). -/
  longCnt : Nat
  /-- pend (R25). -/
  pend : Bool
  /-- lastBit (R26). -/
  lastBit : Bool
  /-- cur: nibble index in bits 7:2, bit index in bits 1:0 (R27). -/
  cur : BitVec 8
  /-- dump (R28). -/
  dump : Bool
  /-- psp (R29). -/
  psp : Bool
  /-- armed, driven on ARMED (R30). -/
  armed : Bool
  /-- prevCap (R31). -/
  prevCap : Ticks
  /-- RAW (R32). -/
  raw : Memory
  /-- DD (R33). -/
  dd : Memory
  /-- DT: a TIME_W-bit millisecond count, 32 bits by default (R8, R33; log 8). -/
  dt : Nat
  /-- OUT (R34). -/
  out : Memory
  /-- RESP (R35). -/
  resp : Word
  /-- REARM as the last command drove it (R37; log 4). -/
  rearm : Bool
  /-- The model's trace of cause codes, newest first (R241, R245; log 5). -/
  trace : List Cause
  /-- MODEL'S OWN: how many free values have been drawn (R74; log 6). -/
  draws : Nat
  deriving DecidableEq, Repr

/-- The state right after INIT of an instance with parameter set `c` (R220, R271). -/
def State.afterInit (c : Config) : State where
  cfg := c
  pending := []
  now := 0
  st := .idle
  ver := 0#2
  shortCnt := 0
  longCnt := 0
  pend := false
  lastBit := false
  cur := 0#8
  dump := false
  psp := false
  armed := false
  prevCap := 0#16
  raw := []
  dd := []
  dt := 0
  out := []
  resp := 0#32
  rearm := false
  trace := []
  draws := 0

/-- The machine right after reset: after INIT (R270, log 2), with the spec's test parameter set (log 1). -/
def State.reset : State := State.afterInit Config.tp

end Sys2Proof.Machine
end

