-- ==== Sys2Proof/Machine/Ops.lean ====
section
/-!
DEFINITION. The operations every command is built from: the buffers (20_memory.md rules R60 to R62), the timer
(43_completion_timer.md rule R171), the full reset and the re-arm (60_exceptions.md rules R245, R246), and how a
command ends.
-/
namespace Sys2Proof.Machine

/-! ## Buffers -/

/-- Byte `k` of a buffer; an unlisted index reads as 0. -/
def Memory.byte : Memory → Nat → Byte
  | [], _ => 0#8
  | (a, x) :: m, k => if a = k then x else Memory.byte m k

/-- The buffer with byte `k` replaced by `v`, in canonical form again: a zero byte is not listed. -/
def Memory.put : Memory → Nat → Byte → Memory
  | [], k, v => if v = 0#8 then [] else [(k, v)]
  | (a, x) :: m, k, v =>
    if a < k then (a, x) :: Memory.put m k v
    else if a = k then (if v = 0#8 then m else (k, v) :: m)
    else if v = 0#8 then (a, x) :: m
    else (k, v) :: (a, x) :: m

/-- Every index is at least `lo` and below 64, indices rise strictly, no listed byte is zero. -/
def Memory.wfFrom : Nat → Memory → Bool
  | _, [] => true
  | lo, (a, x) :: m => decide (lo ≤ a) && decide (a < bufBytes) && x != 0#8 && Memory.wfFrom (a + 1) m

/-- The canonical form of a buffer (log 7). -/
def Memory.wf (m : Memory) : Bool := Memory.wfFrom 0 m

/-- Every listed byte is a nibble: bits 7:4 are zero (R63). -/
def Memory.nibbles (m : Memory) : Bool := m.all (fun c => decide (c.2 < 16#8))

/-- MemRead(M, i) (R60). -/
def memRead (m : Memory) (i : Nat) : Except Fault Byte :=
  if i < bufBytes then .ok (m.byte i) else .error .bufferIndex

/-- MemWrite(M, i, v) (R60). -/
def memWrite (m : Memory) (i : Nat) (v : Byte) : Except Fault Memory :=
  if i < bufBytes then .ok (m.put i v) else .error .bufferIndex

/-! ## How a command proceeds -/

/-- Where a command's pseudocode stands (R11): still running, ended by a raise, or stopped at a bad index. -/
inductive Progress where
  | run (s : State)
  | raised (s : State)
  | fault (f : Fault)
  deriving DecidableEq, Repr

/-- The statements after the first ones: a raise ends the command's processing (R11). -/
def Progress.andThen (x : Progress) (k : State → Progress) : Progress :=
  match x with
  | .run s => k s
  | .raised s => .raised s
  | .fault f => .fault f

/-- A command whose pseudocode has run to its end or to the first raise is complete (R11). -/
def Progress.outcome : Progress → Host.Outcome State Fault Refusal
  | .run s => .next s
  | .raised s => .next s
  | .fault f => .fault f

/-- What every command does before its own effect: REARM is asserted only by a command that calls ArmTimer (R37). -/
def beginCommand (s : State) : State := { s with rearm := false }

/-- `RESP <- v` (R11, R81). -/
def respond (v : Word) (s : State) : State := { s with resp := v }

/-- ACK = 0x0000_0000 (R81). -/
def ackResponse : Word := 0x00000000#32

/-- The response of an illegal word, bit 31 ERR (R81, R224). -/
def errResponse : Word := 0x80000000#32

/-- ArmTimer() (R171), with the REARM strobe (R37). -/
def armTimer (s : State) : State := { s with armed := true, rearm := true }

/-! ## Full reset and re-arm -/

/-- The register changes that FullReset and ReArm share (R245, R246): RAW, DD, DT, OUT, prevCap and RESP stay. -/
def clearDecoder (s : State) : State :=
  { s with
    st := .idle, ver := 0#2, shortCnt := 0, longCnt := 0, pend := false, lastBit := false, dump := false, psp := false,
    cur := 0#8, armed := false }

/-- A cause code goes into the model's trace and into no register (R241, R245, R249). -/
def recordCause (c : Cause) (s : State) : State := { s with trace := c :: s.trace }

/-- FullReset(cause): taking the trap (R245). There is no vector, no saved register and no handler (R240). -/
def fullReset (c : Cause) (s : State) : State := recordCause c (clearDecoder s)

/-- `raise FullReset(cause)`: the full reset ends the command (R11, R245). -/
def raiseReset (c : Cause) (s : State) : Progress := .raised (fullReset c s)

/-- ReArm(): the way back from READY to IDLE, with no cause (R246). -/
def reArm (s : State) : State := clearDecoder s

/-! ## The bit write -/

/-- nib(cur) = cur[7:2] (R12, R27). -/
def nibIndex (cur : BitVec 8) : Nat := (cur.extractLsb' 2 6).toNat

/-- bit(cur) = cur[1:0] (R12, R27). -/
def bitIndex (cur : BitVec 8) : Nat := (cur.extractLsb' 0 2).toNat

/-- ceil4(c) = (c + 3) div 4 (R12). -/
def ceil4 (cur : BitVec 8) : Nat := (cur.toNat + 3) / 4

/-- A bit as a byte. -/
def byteOfBit (b : Bool) : Byte := if b then 1#8 else 0#8

/-- The byte with bit `i` replaced by `b` (R62). -/
def setBit (x : Byte) (i : Nat) (b : Bool) : Byte := (x &&& ~~~(1#8 <<< i)) ||| (byteOfBit b <<< i)

/-- RAW with bit `b` written at nibble `n`, bit `i`; bit 0 sets the whole byte (R61, R62). -/
def writeRawBit (raw : Memory) (n i : Nat) (b : Bool) : Except Fault Memory :=
  if i = 0 then memWrite raw n (byteOfBit b)
  else do
    let x ← memRead raw n
    memWrite raw n (setBit x i b)

/-- The bits that RAW can hold: the capacity of R7 (CAP_BITS, and CAP_NIB nibbles of four bits), and never more than the
8-bit cursor counts (R27; log 9). With the source's constants it is 256. -/
def rawBits (k : Constants) : Nat := min (min k.capBits (4 * k.capNib)) 256

/-- WriteBit(b) (R62), with the overflow guard of R147: the write that would advance the cursor to the capacity, with the
source's constants the one at cur = 255, lands before the full reset. -/
def writeBit (b : Bool) (s : State) : Progress :=
  match writeRawBit s.raw (nibIndex s.cur) (bitIndex s.cur) b with
  | .error f => .fault f
  | .ok raw =>
    if rawBits s.cfg.consts ≤ s.cur.toNat + 1 then raiseReset .bufferOverflow { s with raw := raw }
    else .run { s with raw := raw, cur := s.cur + 1#8 }

/-! ## The command stream -/

/-- The block takes the next command off CMD, with the NOW that stands beside it (R37, R38). -/
def acceptCommand (c : CommandIn) (rest : List CommandIn) (s : State) : State :=
  { s with pending := rest, now := c.now }

/-- No command on CMD: the block waits for the next one, all state survives (R255, R270), REARM is not asserted. -/
def waitForCommand (s : State) : State := beginCommand s

/-- `s` with one more command in front of those CMD still has to deliver; NOW stays as it stands. -/
def offerWord (w : Word) (s : State) : State := { s with pending := { cmd := w, now := s.now } :: s.pending }

end Sys2Proof.Machine
end

