-- ==== Sys2Proof/Machine/Flags.lean ====
section
/-!
DEFINITION. The counters' saturation, the codes of the protocol state, the STATUS views and the output ports
(10_state.md rules R21, R30, R37; 41_sync_detector.md rule R125; 45_host_interface.md rule R223).
-/
namespace Sys2Proof.Machine

/-- sat(x + 1) for a CNT_W-bit counter; min(x + 1, 255) at the default CNT_W = 8 (R125). -/
def countUp (c : Config) (x : Nat) : Nat := min (x + 1) (2 ^ c.cntW - 1)

/-- The 2-bit code of a protocol state (R21). -/
def ProtocolState.code : ProtocolState → BitVec 2
  | .idle => 0b00#2
  | .rxv3 => 0b01#2
  | .rxv2 => 0b10#2
  | .ready => 0b11#2

/-- A receiving state: RXV3 or RXV2 (R140). -/
def ProtocolState.receiving : ProtocolState → Bool
  | .rxv3 => true
  | .rxv2 => true
  | .idle => false
  | .ready => false

/-- The output RDY: st = READY (R37). -/
def State.rdy (s : State) : Bool := s.st == .ready

/-- The output ARMED (R30, R37). -/
def State.armedOut (s : State) : Bool := s.armed

/-- The output REARM as the last command drove it (R37, R171). -/
def State.rearmOut (s : State) : Bool := s.rearm

/-- The control view, STATUS 0 (R223): bits 1:0 st, 3:2 ver, 4 pend, 5 lastBit, 6 dump, 7 psp, 8 armed, 23:16 cur. -/
def controlView (s : State) : Word :=
  0#8 ++ s.cur ++ 0#7 ++ BitVec.ofBool s.armed ++ BitVec.ofBool s.psp ++ BitVec.ofBool s.dump ++
    BitVec.ofBool s.lastBit ++ BitVec.ofBool s.pend ++ s.ver ++ s.st.code

/-- The counters view, STATUS 1 (R223): bits 7:0 shortCnt, 15:8 longCnt. -/
def countersView (s : State) : Word := 0#16 ++ BitVec.ofNat 8 s.longCnt ++ BitVec.ofNat 8 s.shortCnt

/-- The capture view, STATUS 2 (R223): prevCap. -/
def captureView (s : State) : Word := 0#16 ++ s.prevCap

end Sys2Proof.Machine
end

