-- ==== Sys2Proof/Machine/HostPort.lean ====
section
/-!
DEFINITION. The host interface: INIT, AVAIL, START, STATUS and illegal words (45_host_interface.md).
-/
namespace Sys2Proof.Machine

/-- INIT (R220): every row of R20 to its reset value; it records no cause and is legal in every state. -/
def execInit (s : State) : Host.Outcome State Fault Refusal :=
  .next (respond ackResponse { beginCommand (clearDecoder s) with
    prevCap := 0#16, raw := [], dd := [], out := [], dt := 0 })

/-- AVAIL (R221): RESP bit 0 = RDY. -/
def execAvail (s : State) : Host.Outcome State Fault Refusal :=
  .next (respond (if s.rdy then 1#32 else 0#32) (beginCommand s))

/-- START (R222): a re-arm in READY, no effect but RESP elsewhere. -/
def execStart (s : State) : Host.Outcome State Fault Refusal :=
  .next (respond ackResponse (if s.st = .ready then reArm (beginCommand s) else beginCommand s))

/-- STATUS 0 (R223). -/
def execStatusControl (s : State) : Host.Outcome State Fault Refusal :=
  .next (respond (controlView s) (beginCommand s))

/-- STATUS 1 (R223). -/
def execStatusCounters (s : State) : Host.Outcome State Fault Refusal :=
  .next (respond (countersView s) (beginCommand s))

/-- STATUS 2 (R223). -/
def execStatusCapture (s : State) : Host.Outcome State Fault Refusal :=
  .next (respond (captureView s) (beginCommand s))

/-- ILLEGAL (R224): RESP <- 0x8000_0000, nothing else changes, no cause is recorded. -/
def execIllegal (s : State) : Host.Outcome State Fault Refusal :=
  .next (respond errResponse (beginCommand s))

end Sys2Proof.Machine
end

