-- ==== Sys2Proof/Machine/Operands.lean ====
section
/-!
DEFINITION. What the operands of a command mean: a phase and a tick count give a pulse class, a capture value gives an
elapsed width (40_pulse_classifier.md), NOW gives an arrival time (44_packet_reader.md rule R189), and the responses of
GETDATA are packed (rule R190).
-/
namespace Sys2Proof.Machine

/-- PulsePeriod: the class of a pulse (R11, R101). -/
inductive PulseClass where
  | short
  | long
  | noise
  deriving DecidableEq, Repr

/-- The phase selects the triple and nothing else (R102). -/
def triple (c : Config) : Phase → Thresholds
  | .hi => c.thrHi
  | .lo => c.thrLo

/-- Classify(t, ph) (R101). -/
def classify (c : Config) (ph : Phase) (t : Ticks) : PulseClass :=
  let thr := triple c ph
  if thr.t0 ≤ t ∧ t < thr.t1 then .short
  else if thr.t1 ≤ t ∧ t < thr.t2 then .long
  else .noise

/-- The elapsed value that CAPTURE passes on (R103, R104); the subtraction is modulo 2^16. -/
def elapsed (c : Config) (prevCap : Ticks) (ovf : BitVec 2) (cap : Ticks) : Ticks :=
  if ovf = 0#2 then cap - prevCap
  else if ovf = 1#2 then
    match c.ovf1Mode with
    | .modular => cap - prevCap
    | .clamp => c.realisticMax
  else 0xFFFF#16

/-- The TIME_W-bit value of NOW that GETDATA samples (R37, R189). -/
def arrivalTime (s : State) : Nat := s.now % 2 ^ s.cfg.timeW

/-- d = sext((t − DT) mod 2^TIME_W) (R188, R189); with TIME_W = 32 it is the signed 32-bit difference. -/
def timeSince (c : Config) (t dt : Nat) : Int := (BitVec.ofNat c.timeW t - BitVec.ofNat c.timeW dt).toInt

/-- RESP of a delivered packet: LEN in bits 6:0, bit 7 zero, VER in bits 9:8 (R81, R190). -/
def packetResponse (v : BitVec 2) (len : Nat) : Word := 0#22 ++ v ++ 0#1 ++ BitVec.ofNat 7 len

end Sys2Proof.Machine
end

