-- ==== Sys2Proof/Machine/Manchester.lean ====
section
/-!
DEFINITION. The Manchester Bit Decoder, the RXV3 and RXV2 arm of EDGE and CAPTURE (42_manchester_decoder.md).
-/
namespace Sys2Proof.Machine

/-- Emit(m): lastBit takes every decoded bit; in RXV2 the dump flag toggles and every second bit is dumped
(R141, R145). -/
def emitBit (m : Bool) (s : State) : Progress :=
  let s := { s with lastBit := m }
  if s.st = .rxv2 then
    if s.dump then .run { s with dump := false }
    else writeBit m { s with dump := true }
  else writeBit m s

/-- RxShort() (R142), with the V2.1 structural check before the emit (R146). -/
def rxShort (s : State) : Progress :=
  if s.pend then
    let s := { s with pend := false }
    if s.st = .rxv2 then
      if s.psp then raiseReset .structuralViolation s
      else (emitBit s.lastBit { s with psp := true }).andThen fun s => .run (armTimer s)
    else (emitBit s.lastBit s).andThen fun s => .run (armTimer s)
  else .run (armTimer { s with pend := true })

/-- RxLong() (R143). -/
def rxLong (s : State) : Progress :=
  if s.pend then raiseReset .structuralViolation s
  else
    let s := if s.st = .rxv2 then { s with psp := false } else s
    (emitBit (!s.lastBit) s).andThen fun s => .run (armTimer s)

/-- RxNoise() (R144). -/
def rxNoise (s : State) : Progress :=
  if s.cfg.consts.minBitsNoise ≤ s.cur.toNat then .run { s with st := .ready, armed := false }
  else raiseReset .syncFailure s

/-- DecodeStep(c) (R140). -/
def decodeStep (c : PulseClass) (s : State) : Progress :=
  match c with
  | .short => rxShort s
  | .long => rxLong s
  | .noise => rxNoise s

end Sys2Proof.Machine
end

