-- ==== Sys2Proof/Machine/Sync.lean ====
section
/-!
DEFINITION. The Protocol Sync Detector, the IDLE arm of EDGE and CAPTURE (41_sync_detector.md).
-/
namespace Sys2Proof.Machine

/-- CommitV2() (R123): nothing is written to RAW; the committing Short opens the first short pair. -/
def commitV2 (s : State) : Progress :=
  .run (armTimer
    { s with
      st := .rxv2, ver := 2#2, lastBit := true, pend := true, dump := true, psp := false, cur := 0#8 })

/-- CommitV3() (R126): the committing Long is bit 0 of the sync nibble. -/
def commitV3 (s : State) : Progress :=
  (writeBit false
    { s with
      st := .rxv3, ver := 3#2, lastBit := false, pend := false, dump := false, psp := false, cur := 0#8 }).andThen
    fun s => .run (armTimer s)

/-- IdleShort() (R121). -/
def idleShort (s : State) : Progress :=
  if s.shortCnt ≤ 1 ∧ s.cfg.consts.v2Pre < s.longCnt then commitV2 s
  else if s.longCnt = 0 then .run { s with shortCnt := countUp s.cfg s.shortCnt }
  else raiseReset .syncFailure s

/-- IdleLong() (R122). -/
def idleLong (s : State) : Progress :=
  if s.cfg.consts.v3Pre < s.shortCnt then commitV3 s
  else if s.shortCnt ≤ 1 then .run { s with longCnt := countUp s.cfg s.longCnt }
  else raiseReset .syncFailure s

/-- SyncStep(c) (R120, R124). The pulse that raises a full reset is consumed (R127). -/
def syncStep (c : PulseClass) (s : State) : Progress :=
  match c with
  | .short => idleShort s
  | .long => idleLong s
  | .noise => raiseReset .syncFailure s

end Sys2Proof.Machine
end

