-- ==== Sys2Proof/Machine/Pulse.lean ====
section
/-!
DEFINITION. The commands that deliver an edge: EDGE and CAPTURE (40_pulse_classifier.md rules R100, R103).
-/
namespace Sys2Proof.Machine

/-- A classified pulse meets the protocol state: SyncStep in IDLE, DecodeStep in RXV3 and RXV2, discarded in READY
(R100, R105). -/
def pulse (c : PulseClass) (s : State) : Progress :=
  match s.st with
  | .idle => syncStep c s
  | .rxv3 => decodeStep c s
  | .rxv2 => decodeStep c s
  | .ready => .run s

/-- EDGE(TICKS, PH) as EDGE and CAPTURE share it (R100): RESP <- 0 comes before any test (R248). -/
def deliverEdge (ph : Phase) (t : Ticks) (s : State) : Host.Outcome State Fault Refusal :=
  (pulse (classify s.cfg ph t) (respond ackResponse (beginCommand s))).outcome

/-- EDGE (R100). -/
def execEdge (ph : Phase) (ticks : Ticks) (s : State) : Host.Outcome State Fault Refusal :=
  deliverEdge ph ticks s

/-- CAPTURE (R103): the width is measured from the old prevCap, and prevCap is written in every state. -/
def execCapture (ovf : BitVec 2) (ph : Phase) (cap : Ticks) (s : State) : Host.Outcome State Fault Refusal :=
  deliverEdge ph (elapsed s.cfg s.prevCap ovf cap) { s with prevCap := cap }

end Sys2Proof.Machine
end

