-- ==== Sys2Proof/Machine/Reader.lean ====
section
/-!
DEFINITION. The Packet Reader: GETDATA (44_packet_reader.md rules R180 to R190). Positions and lengths are unbounded
integers; every buffer access goes through memRead and memWrite and so faults outside 0..63 (R60).
-/
namespace Sys2Proof.Machine

/-! ## Step 1: the snapshot -/

/-- What the snapshot reads at RAW[k] (R74, R181): under STALE_MODE = ANY a byte that no bit write of the message has
touched reads as a free nibble (log 6). -/
def snapshotByte (s : State) (k : Nat) : Byte :=
  match s.cfg.staleMode with
  | .retained => s.raw.byte k
  | .any => if k < ceil4 s.cur then s.raw.byte k else (Config.freeNibble (s.draws + k)).setWidth 8

/-- Bytes `0 .. n-1` of a buffer, byte `k` being `f k`. -/
def fillBytes (f : Nat → Byte) : Nat → Memory
  | 0 => []
  | n + 1 => Memory.put (fillBytes f n) n (f n)

/-- W after the copy of Snapshot(): all 64 bytes (R181). -/
def snapshot (s : State) : Memory := fillBytes (snapshotByte s) bufBytes

/-- The decoder after Snapshot(): re-armed; the draws of this snapshot are used up (R181; log 6). -/
def afterSnapshot (s : State) : State := { reArm s with draws := s.draws + bufBytes }

/-! ## Steps 2 to 5: framing -/

/-- The scan register after one more nibble (R183). -/
def scanShift (k : Constants) (r : BitVec 20) (x : Byte) : BitVec 20 := ((r <<< 4) ||| x.setWidth 20) &&& k.dupMask

/-- The loop of DupScan: `count` nibbles from index `i` on, register `r` (R183). -/
def dupScanLoop (k : Constants) (w : Memory) : Nat → Nat → BitVec 20 → Except Fault (Option Nat)
  | 0, _, _ => .ok none
  | count + 1, i, r => do
    let x ← memRead w i
    if scanShift k r x = k.dupPattern then .ok (some i)
    else dupScanLoop k w count (i + 1) (scanShift k r x)

/-- DupScan(n): the offset of the second copy's sync nibble, if any (R183). -/
def dupScan (k : Constants) (w : Memory) (n : Nat) : Except Fault (Option Nat) :=
  dupScanLoop k w (n - k.dupScanStart) k.dupScanStart 0#20

/-- The loop of a copy of `count` bytes in ascending order from `i`: dst[i] <- src[off + i]. Source and destination may
be one buffer, whose copied bytes the source then sees. -/
def spliceLoop (off : Nat) : Nat → Nat → Memory → Except Fault Memory
  | 0, _, w => .ok w
  | count + 1, i, w => do
    let x ← memRead w (off + i)
    let w' ← memWrite w i x
    spliceLoop off count (i + 1) w'

/-- Splice(off, m) (R184). -/
def splice (w : Memory) (off m : Nat) : Except Fault Memory := spliceLoop off m 0 w

/-- (W[1] + ... + W[pos-1]) mod 256; the empty sum is 0 (R185). -/
def nibbleSum (w : Memory) : Nat → Except Fault Byte
  | 0 => .ok 0#8
  | 1 => .ok 0#8
  | p + 2 => do
    let sum ← nibbleSum w (p + 1)
    let x ← memRead w (p + 1)
    .ok (sum + x)

/-- Checksum(pos) (R185). -/
def checksum (k : Constants) (w : Memory) (pos : Int) : Except Fault Bool :=
  if pos < 1 ∨ (k.maxOut : Int) < pos + k.csBack then .ok false
  else do
    let sum ← nibbleSum w pos.toNat
    let low ← memRead w pos.toNat
    let high ← memRead w (pos.toNat + 1)
    .ok (sum == low ||| (high <<< 4))

/-- The positions in order; the first pass wins, with length position + CS_BACK (R186). -/
def tryPositions (k : Constants) (w : Memory) : List Int → Except Fault (Option Nat)
  | [] => .ok none
  | pos :: rest => do
    if ← checksum k w pos then .ok (some (pos + k.csBack).toNat)
    else tryPositions k w rest

/-- Recover(n) (R186): positions n − CS_BACK and the next two. -/
def recover (k : Constants) (w : Memory) (n : Int) : Except Fault (Option Nat) :=
  tryPositions k w [n - k.csBack, n - k.csBack + 1, n - k.csBack + 2]

/-- Recover(n), with the buffer it ran on: the accepted packet (R186, R187). -/
def recoverOn (k : Constants) (w : Memory) (n : Int) : Except Fault (Option (Memory × Nat)) := do
  let r ← recover k w n
  .ok (r.map fun len => (w, len))

/-- The second copy, spliced over the first and framed on its own (R184, R187). -/
def secondCopy (k : Constants) (w : Memory) (off m : Nat) : Except Fault (Option (Memory × Nat)) := do
  let w' ← splice w off m
  recoverOn k w' m

/-- Step 3: the second copy is looked for in a message of more than DUP_MIN_LEN nibbles only (R180, R183). -/
def findSecondCopy (k : Constants) (w : Memory) (n : Nat) : Except Fault (Option Nat) :=
  if k.dupMinLen < n then dupScan k w n else .ok none

/-- Steps 2 to 5 (R182, R184, R187): the sync check, the split of a double transmission, the recovery and the fallback.
`none` is failure F3 or F4. -/
def frame (k : Constants) (w : Memory) (n : Nat) : Except Fault (Option (Memory × Nat)) := do
  let first ← memRead w 0
  let dup ← findSecondCopy k w n
  match dup with
  | none => if first = k.sync then recoverOn k w n else .ok none
  | some off =>
    if first = k.sync then
      match ← recoverOn k w ((off : Int) - k.dupCut) with
      | some packet => .ok (some packet)
      | none => secondCopy k w off (n - off)
    else secondCopy k w off (n - off)

/-! ## Steps 6 and 7 -/

/-- W[k] = DD[k] for all k below `count` (R188). -/
def sameBytes (w d : Memory) : Nat → Except Fault Bool
  | 0 => .ok true
  | k + 1 => do
    let same ← sameBytes w d k
    let x ← memRead w k
    let y ← memRead d k
    .ok (same && x == y)

/-- `dst` with bytes 0 .. count−1 taken from `src`, the others kept (R188, R190). -/
def copyBytes (src : Memory) (dst : Memory) : Nat → Except Fault Memory
  | 0 => .ok dst
  | k + 1 => do
    let d ← copyBytes src dst k
    let x ← memRead src k
    memWrite d k x

/-- Whether Dedup(L, t) finds a repeat: a byte-equal packet less than DEDUP_MS ago (R188, R189). -/
def isRepeat (s : State) (w : Memory) (len t : Nat) : Except Fault Bool := do
  let same ← sameBytes w s.dd (len - 2)
  .ok (decide (timeSince s.cfg t s.dt < (s.cfg.consts.dedupMs : Int)) && same)

/-- Dedup(L, t): whether the packet passes, and the state with DD and DT replaced whatever the outcome (R188). -/
def dedup (w : Memory) (len t : Nat) (s : State) : Except Fault (Bool × State) := do
  let dup ← isRepeat s w len t
  let dd ← copyBytes w s.dd len
  .ok (!dup, { s with dd := dd, dt := t })

/-- Step 6 for a packet of version `v`: only V2.1 packets are compared and stored (R180, R188). -/
def dedupStep (v : BitVec 2) (w : Memory) (len t : Nat) (s : State) : Except Fault (Bool × State) :=
  if v = 2#2 then dedup w len t s else .ok (true, s)

/-- Deliver(L, v): OUT[0 .. L−1] and RESP (R190). -/
def deliver (v : BitVec 2) (w : Memory) (len : Nat) (s : State) : Except Fault State := do
  let out ← copyBytes w s.out len
  .ok (respond (packetResponse v len) { s with out := out })

/-- The steps after the snapshot (R180): framing, dedup, the length test F6, delivery. `s` is the re-armed state, `v`
and `t` the version and the arrival time; a failure answers RESP = 0. -/
def readPacket (maxLen : Nat) (v : BitVec 2) (t : Nat) (w : Memory) (n : Nat) (s : State) : Except Fault State := do
  match ← frame s.cfg.consts w n with
  | none => .ok (respond ackResponse (recordCause .checksumFailure s))
  | some (w', len) =>
    let (ok, s') ← dedupStep v w' len t s
    if ok then
      if maxLen < len then .ok (respond ackResponse s') else deliver v w' len s'
    else .ok (respond ackResponse (recordCause .duplicateSuppressed s'))

/-- GETDATA (R180). F1 and F2 change nothing but RESP; later failures have consumed the packet. -/
def execGetdata (maxLen : BitVec 7) (s : State) : Host.Outcome State Fault Refusal :=
  let s := beginCommand s
  if s.st ≠ .ready then .next (respond ackResponse s)
  else if maxLen.toNat < ceil4 s.cur then .next (respond ackResponse s)
  else
    match readPacket maxLen.toNat s.ver (arrivalTime s) (snapshot s) (ceil4 s.cur) (afterSnapshot s) with
    | .ok s' => .next s'
    | .error f => .fault f

end Sys2Proof.Machine
end

