-- ==== Sys2Proof/Machine/Timer.lean ====
section
/-!
DEFINITION. TIMEOUT, the completion timer fired (43_completion_timer.md rule R170).
-/
namespace Sys2Proof.Machine

/-- A TIMEOUT ends the message: TIMEOUT_EFFECT = EFFECTIVE, a receiving state, more than MIN_BITS_TMO bits
(R170, R173). -/
def timeoutEnds (s : State) : Bool :=
  s.cfg.timeoutEffect == .effective && s.st.receiving && decide (s.cfg.consts.minBitsTmo < s.cur.toNat)

/-- TIMEOUT (R170): processed at any time, whatever armed is (R172); it never resets. -/
def execTimeout (s : State) : Host.Outcome State Fault Refusal :=
  let s := { respond ackResponse (beginCommand s) with armed := false }
  if timeoutEnds s then .next { s with st := .ready } else .next s

end Sys2Proof.Machine
end

