-- ==== Sys2Proof/Machine/Dispatch.lean ====
section
/-! DEFINITION. The meaning of each command: one direct call per constructor of Instr. -/
namespace Sys2Proof.Machine

def exec (i : Instr) (s : State) : Host.Outcome State Fault Refusal :=
  match i with
  | .init => Sys2Proof.Machine.execInit s
  | .edge ph ticks => Sys2Proof.Machine.execEdge ph ticks s
  | .capture ovf ph cap => Sys2Proof.Machine.execCapture ovf ph cap s
  | .timeout => Sys2Proof.Machine.execTimeout s
  | .avail => Sys2Proof.Machine.execAvail s
  | .getdata maxLen => Sys2Proof.Machine.execGetdata maxLen s
  | .start => Sys2Proof.Machine.execStart s
  | .statusControl => Sys2Proof.Machine.execStatusControl s
  | .statusCounters => Sys2Proof.Machine.execStatusCounters s
  | .statusCapture => Sys2Proof.Machine.execStatusCapture s

end Sys2Proof.Machine
end

