-- ==== Sys2Proof/WellFormed.lean ====
section
/-!
DEFINITION. What is well-formed: a command word (30_encoding.md rules R87, R88) and a parameter set (00_scope.md
rule R9). A term of Instr needs no check of its own: each operand's type is its field, and R89 admits every value of
each field, so decode and encode agree on all of Instr with no premise.
-/
namespace Sys2Proof

/-- One row of the opcode map: a word belongs to it iff `word AND mask = match` (R87). -/
structure OpcodeRow where
  matchBits : Word
  mask : Word
  deriving DecidableEq, Repr

/-- The opcode map of R87, in its order. -/
def opcodeMap : List OpcodeRow :=
  [ { matchBits := 0x00000000#32, mask := 0xFFFFFFFF#32 },   -- INIT
    { matchBits := 0x10000000#32, mask := 0xFFFE0000#32 },   -- EDGE
    { matchBits := 0x20000000#32, mask := 0xFFF20000#32 },   -- CAPTURE
    { matchBits := 0x30000000#32, mask := 0xFFFFFFFF#32 },   -- TIMEOUT
    { matchBits := 0x40000000#32, mask := 0xFFFFFFFF#32 },   -- AVAIL
    { matchBits := 0x50000000#32, mask := 0xFFFFFF80#32 },   -- GETDATA
    { matchBits := 0x60000000#32, mask := 0xFFFFFFFF#32 },   -- START
    { matchBits := 0x70000000#32, mask := 0xFFFFFFFF#32 },   -- STATUS, SEL = 0
    { matchBits := 0x70000001#32, mask := 0xFFFFFFFF#32 },   -- STATUS, SEL = 1
    { matchBits := 0x70000002#32, mask := 0xFFFFFFFF#32 } ]  -- STATUS, SEL = 2

/-- The word belongs to the row. -/
def OpcodeRow.covers (r : OpcodeRow) (w : Word) : Bool := w &&& r.mask == r.matchBits

/-- A word is legal iff it matches exactly one row of the map (R87). -/
def Word.legal (w : Word) : Bool := opcodeMap.countP (fun r => r.covers w) == 1

/-- t0 ≤ t1 ≤ t2 (R9); t2 < 2^TW holds by the type once TW = 16. -/
def Thresholds.wf (t : Thresholds) : Bool := decide (t.t0 ≤ t.t1) && decide (t.t1 ≤ t.t2)

/-- A parameter set is well-formed iff both triples are ordered and TW = 16 (R9). -/
def Config.wf (c : Config) : Bool := c.thrHi.wf && c.thrLo.wf && c.tw == 16

end Sys2Proof
end

