-- ==== Sys2Proof/Machine/Step.lean ====
section
/-!
DEFINITION. One step of the block: one command off CMD, decoded and executed atomically (20_memory.md rule R66).
-/
namespace Sys2Proof.Machine

/-- The command word `w` on the state that has accepted it: a legal word runs its command, an illegal one the ILLEGAL
effect (R90, R224). -/
def runWord (w : Word) (s : State) : Host.Outcome State Fault Refusal :=
  match decode w with
  | .ok i => exec i s
  | .error _ => execIllegal s

/-- One step: an ill-formed parameter set is refused (R9); with no command on CMD the block waits; else the oldest
command is accepted and run (R37, R38, R244). -/
def step (s : State) : Host.Outcome State Fault Refusal :=
  if s.cfg.wf then
    match s.pending with
    | [] => .next (waitForCommand s)
    | c :: rest => runWord c.cmd (acceptCommand c rest s)
  else .refused .illFormedParameters

/-- `s` with the opcode table's word `w` in front of the commands CMD delivers next, so that `step` runs exactly it. -/
def State.withFetchWord (s : State) (nbits w : Nat) : State := offerWord (tableWord nbits w) s

end Sys2Proof.Machine
end

