-- ==== Sys2Proof/Machine/Environment.lean ====
section
/-!
DEFINITION. What stands outside the block: the contexts that issue commands and their priority (60_exceptions.md rules
R243, R244), the environment's obligations (rules R172, R272, R277, R280), the assembler's spelling of a command (30_encoding.md
rule R91) and the pseudo-instructions (rule R92). No step reads any of it: the block checks none of these obligations.
-/
namespace Sys2Proof.Machine

/-! ## Event sources -/

/-- The source contexts of R243. -/
inductive EventSource where
  | setUp
  | edgeCapture
  | completionTimeout
  | background
  deriving DecidableEq, Repr

/-- The context that issues a command (R243). -/
def commandSource : Instr → EventSource
  | .init => .setUp
  | .edge _ _ => .edgeCapture
  | .capture _ _ _ => .edgeCapture
  | .timeout => .completionTimeout
  | .avail => .background
  | .getdata _ => .background
  | .start => .background
  | .statusControl => .background
  | .statusCounters => .background
  | .statusCapture => .background

/-- The order of simultaneous requests onto CMD: INIT, then EDGE or CAPTURE, then TIMEOUT, then the background
commands (R244). The smaller rank goes first. -/
def EventSource.rank : EventSource → Nat
  | .setUp => 0
  | .edgeCapture => 1
  | .completionTimeout => 2
  | .background => 3

/-- One more simultaneous request, before the first request of a lower priority. -/
def insertRequest (i : Instr) : List Instr → List Instr
  | [] => [i]
  | j :: rest =>
    if (commandSource i).rank ≤ (commandSource j).rank then i :: j :: rest else j :: insertRequest i rest

/-- Simultaneous requests in the order the environment puts them onto CMD (R244, R278). -/
def arbitrate : List Instr → List Instr
  | [] => []
  | i :: rest => insertRequest i (arbitrate rest)

/-! ## The environment's obligations -/

/-- The time-out source's contract (R172): TIMEOUT only while armed = 1 and only when T_COMPLETE has passed since the
last REARM; `sinceRearm` is that time in the unit of T_COMPLETE. -/
def timeoutInContract (s : State) (sinceRearm : Nat) : Bool := s.armed && decide (s.cfg.tComplete ≤ sinceRearm)

/-- The edge source's contract (R277): successive edges alternate in phase. -/
def phasesAlternate : List Phase → Bool
  | [] => true
  | [_] => true
  | p :: q :: rest => p != q && phasesAlternate (q :: rest)

/-- The boot order (R270, R272): INIT is the first command. -/
def bootsWithInit : List Instr → Bool
  | [] => true
  | i :: _ => i == .init

/-- The source's assumption on dedup times (R189, R280): the time between two V2.1 packets stays below half the range
of NOW, 2^31 ms ("roughly 24 days") at TIME_W = 32. -/
def dedupGapInRange (c : Config) (t dt : Nat) : Prop := dt ≤ t ∧ 2 * (t - dt) < 2 ^ c.timeW

/-! ## Assembler spelling and pseudo-instructions -/

/-- HI or LO (R91). -/
def spellPhase : Phase → String
  | .hi => "HI"
  | .lo => "LO"

/-- A command as the assembler spells it, numbers in decimal (R91). -/
def spell : Instr → String
  | .init => "INIT"
  | .edge ph ticks => "EDGE " ++ toString ticks.toNat ++ ", " ++ spellPhase ph
  | .capture ovf ph cap => "CAPTURE " ++ toString cap.toNat ++ ", " ++ spellPhase ph ++ ", " ++ toString ovf.toNat
  | .timeout => "TIMEOUT"
  | .avail => "AVAIL"
  | .getdata maxLen => "GETDATA " ++ toString maxLen.toNat
  | .start => "START"
  | .statusControl => "STATUS 0"
  | .statusCounters => "STATUS 1"
  | .statusCapture => "STATUS 2"

/-- SHORT ph, LONG ph and NOISE ph: EDGE words at the thresholds of the instance (R92). -/
def pseudo (c : Config) (ph : Phase) : PulseClass → Instr
  | .short => .edge ph (triple c ph).t0
  | .long => .edge ph (triple c ph).t1
  | .noise => .edge ph (triple c ph).t2

/-- The other phase. -/
def flipPhase : Phase → Phase
  | .hi => .lo
  | .lo => .hi

/-- TRAIN ph, "<letters>": the phase alternates after each letter (R92). -/
def pulseTrain (c : Config) : Phase → List PulseClass → List Instr
  | _, [] => []
  | ph, l :: rest => pseudo c ph l :: pulseTrain c (flipPhase ph) rest

end Sys2Proof.Machine
end

