-- ==== Sys2Proof/Safety.lean ====
section
/-!
DEFINITION. What a good state and a good run are, in the terms the statements use: the invariant of the block
(10_state.md rule R41 and what follows from the command rules), the buffer after a bit write, the RAW byte a pulse
writes, the parity of the sums a valid packet has, runs of several commands, and the pulse trains of rules R149, R150.
-/
namespace Sys2Proof.Machine

/-! ## The invariant -/

/-- R41 (a) and R63: the three buffers are canonical and every byte is a nibble. -/
structure BuffersOk (s : State) : Prop where
  raw_wf : s.raw.wf = true
  dd_wf : s.dd.wf = true
  out_wf : s.out.wf = true
  raw_nibbles : s.raw.nibbles = true
  dd_nibbles : s.dd.nibbles = true
  out_nibbles : s.out.nibbles = true

/-- R41 (c): in IDLE the cursor, the flags, the version and the armed flag are clear. -/
structure IdleClear (s : State) : Prop where
  cur : s.cur = 0#8
  pend : s.pend = false
  lastBit : s.lastBit = false
  dump : s.dump = false
  psp : s.psp = false
  ver : s.ver = 0#2
  armed : s.armed = false

/-- The invariant that every step keeps (R41 and its neighbours). -/
structure Invariant (s : State) : Prop where
  /-- R41 (a). -/
  buffers : BuffersOk s
  /-- R41 (c). -/
  idle : s.st = .idle → IdleClear s
  /-- R41 (b), R147: the cursor stays inside the capacity. -/
  cursor_inside : 0 < rawBits s.cfg.consts → s.cur.toNat < rawBits s.cfg.consts
  /-- R41 (d). -/
  rxv3 : s.st = .rxv3 → s.ver = 3#2
  /-- R41 (d). -/
  rxv2 : s.st = .rxv2 → s.ver = 2#2
  /-- R22, R144, R170: a held packet has a version. -/
  ready_ver : s.st = .ready → s.ver = 2#2 ∨ s.ver = 3#2
  /-- R30, R144, R170: the timer is not armed in READY. -/
  ready_disarmed : s.st = .ready → s.armed = false
  /-- R144, R170: a message ends with at least MIN_BITS_NOISE or more than MIN_BITS_TMO bits. -/
  ready_bits : s.st = .ready → s.cfg.consts.minBitsNoise ≤ s.cur.toNat ∨ s.cfg.consts.minBitsTmo < s.cur.toNat
  /-- R41 (e). -/
  idle_counts : s.st = .idle → 0 < s.longCnt → s.shortCnt ≤ 1
  /-- R23, R24: the counters are CNT_W bits wide. -/
  short_width : s.shortCnt < 2 ^ s.cfg.cntW
  /-- R23, R24: the counters are CNT_W bits wide. -/
  long_width : s.longCnt < 2 ^ s.cfg.cntW
  /-- R33: DT is TIME_W bits wide. -/
  dt_width : s.dt < 2 ^ s.cfg.timeW
  /-- R172: a receiving state whose timer is not armed holds at most MIN_BITS_TMO bits. -/
  unarmed_short : s.cfg.timeoutEffect = .effective → s.st.receiving = true → s.armed = false →
    s.cur.toNat ≤ s.cfg.consts.minBitsTmo

/-! ## Bits and bytes -/

/-- RAW after the bit write of `b` at the cursor (R61, R62). -/
def rawAfterBit (b : Bool) (s : State) : Memory :=
  s.raw.put (nibIndex s.cur)
    (if bitIndex s.cur = 0 then byteOfBit b else setBit (s.raw.byte (nibIndex s.cur)) (bitIndex s.cur) b)

/-- Bit `i` of a message in a buffer: nibble i / 4, least significant bit first (R61). -/
def messageBit (m : Memory) (i : Nat) : Bool := (m.byte (i / 4)).getLsbD (i % 4)

/-- A decoded bit is written and not dumped (R141, R145). -/
def bitIsWritten (s : State) : Bool := !(s.st == .rxv2 && s.dump)

/-- The index of the RAW byte that a pulse writes, if it writes one: the V3 commit writes byte 0 (R126), a completed
short pair and a Long write the cursor's nibble unless the bit is dumped or the pulse is a violation (R141 to R143). -/
def rawTarget (c : PulseClass) (s : State) : Option Nat :=
  match s.st, c with
  | .idle, .long => if s.cfg.consts.v3Pre < s.shortCnt then some 0 else none
  | .rxv3, .short => if s.pend then some (nibIndex s.cur) else none
  | .rxv3, .long => if s.pend then none else some (nibIndex s.cur)
  | .rxv2, .short => if s.pend && !s.psp && !s.dump then some (nibIndex s.cur) else none
  | .rxv2, .long => if !s.pend && !s.dump then some (nibIndex s.cur) else none
  | _, _ => none

/-- (M[1] + ... + M[p−1]) mod 256 as a number (R185). -/
def sumBelow (m : Memory) : Nat → Nat
  | 0 => 0
  | 1 => 0
  | p + 2 => (sumBelow m (p + 1) + (m.byte (p + 1)).toNat) % 256

/-- The checksum at position p holds: sum of nibbles 1 .. p−1 equals low | (high << 4) (R185, R64). -/
def ChecksumHolds (m : Memory) (p : Nat) : Prop :=
  sumBelow m p = ((m.byte p).toNat + 16 * (m.byte (p + 1)).toNat) % 256

/-- A valid packet of `len` bytes: a sync nibble first, the checksum four back from the end (R182, R186). -/
structure ValidPacket (m : Memory) (len : Nat) : Prop where
  sync : m.byte 0 = 0x0A#8
  least : 5 ≤ len
  most : len ≤ 64
  checksum : ChecksumHolds m (len - 4)

/-- The second copy's sync nibble stands at index i: 0xA after four 0xF nibbles (R183, 90_conflicts.md C4). -/
structure MarksSecondCopy (w : Memory) (i : Nat) : Prop where
  sync : w.byte i = 0x0A#8
  f1 : w.byte (i - 1) = 0x0F#8
  f2 : w.byte (i - 2) = 0x0F#8
  f3 : w.byte (i - 3) = 0x0F#8
  f4 : w.byte (i - 4) = 0x0F#8

/-! ## Pulses -/

/-- The class of the pulse a command delivers: EDGE its ticks, CAPTURE its elapsed width; another command is no pulse
(R100, R103, R242). -/
def pulseClass (i : Instr) (s : State) : Option PulseClass :=
  match i with
  | .edge ph ticks => some (classify s.cfg ph ticks)
  | .capture ovf ph cap => some (classify s.cfg ph (elapsed s.cfg s.prevCap ovf cap))
  | .init => none
  | .timeout => none
  | .avail => none
  | .getdata _ => none
  | .start => none
  | .statusControl => none
  | .statusCounters => none
  | .statusCapture => none

/-! ## Full resets -/

/-- The cause of the full reset that a pulse raises, if it raises one: the seven rows of R242. Row 7, a bit write that
would advance the cursor to the capacity, also covers the bit the V3 commit writes (R126), which only a capacity of one
bit or none can overflow. -/
def resetCause (c : PulseClass) (s : State) : Option Cause :=
  match s.st, c with
  | .idle, .short =>
    if s.shortCnt ≤ 1 ∧ s.cfg.consts.v2Pre < s.longCnt ∨ s.longCnt = 0 then none else some .syncFailure
  | .idle, .long =>
    if s.cfg.consts.v3Pre < s.shortCnt then (if rawBits s.cfg.consts ≤ 1 then some .bufferOverflow else none)
    else if s.shortCnt ≤ 1 then none else some .syncFailure
  | .idle, .noise => some .syncFailure
  | .ready, _ => none
  | _, .noise => if s.cfg.consts.minBitsNoise ≤ s.cur.toNat then none else some .syncFailure
  | _, .long =>
    if s.pend then some .structuralViolation
    else if bitIsWritten s ∧ rawBits s.cfg.consts ≤ s.cur.toNat + 1 then some .bufferOverflow else none
  | st, .short =>
    if !s.pend then none
    else if st = .rxv2 ∧ s.psp then some .structuralViolation
    else if bitIsWritten s ∧ rawBits s.cfg.consts ≤ s.cur.toNat + 1 then some .bufferOverflow else none

/-- The pulse calls ArmTimer (R148, R171): it commits, or it is accepted in a receiving state, that is it neither raises
a full reset nor enters READY. -/
def armsTimer (c : PulseClass) (s : State) : Bool :=
  match s.st, c with
  | .idle, .short => decide (s.shortCnt ≤ 1) && decide (s.cfg.consts.v2Pre < s.longCnt)
  | .idle, .long => decide (s.cfg.consts.v3Pre < s.shortCnt) && decide (1 < rawBits s.cfg.consts)
  | .idle, .noise => false
  | .ready, _ => false
  | _, .noise => false
  | _, .short => (resetCause c s).isNone
  | _, .long => (resetCause c s).isNone

/-! ## Runs of several commands -/

/-- The commands of a list, one after the other, to the first stop (R244). -/
def runCommands : List Instr → State → Host.Outcome State Fault Refusal
  | [], s => .next s
  | i :: rest, s =>
    match exec i s with
    | .next s' => runCommands rest s'
    | .fault f => .fault f
    | .refused r => .refused r

/-- The EDGE commands of a list of pulses. -/
def edges (ps : List (Phase × Ticks)) : List Instr := ps.map fun p => .edge p.1 p.2

/-- The classes of a list of pulses under a parameter set (R101). -/
def classes (c : Config) (ps : List (Phase × Ticks)) : List PulseClass := ps.map fun p => classify c p.1 p.2

/-- The pulses of the bits after a V3 message's first bit: two Shorts repeat the previous bit, a Long flips it
(R149). -/
def v3Pulses : Bool → List Bool → List PulseClass
  | _, [] => []
  | prev, b :: rest => (if b = prev then [.short, .short] else [.long]) ++ v3Pulses b rest

/-- The pulses of a V3 message whose bit 0 is 0, after `k` preamble Shorts (R149). -/
def v3Train (k : Nat) (bits : List Bool) : List PulseClass :=
  List.replicate k .short ++ [.long] ++ v3Pulses false bits

/-- The pulses of the bits after a V2.1 message's first bit: each bit b goes as the decoded pair (NOT b, b) (R150). -/
def v2Pulses : Bool → List Bool → List PulseClass
  | _, [] => []
  | prev, b :: rest => (if (!b) = prev then [.short, .short] else [.long]) ++ [.long] ++ v2Pulses b rest

/-- The pulses of a V2.1 message whose bit 0 is 0, after `k` preamble Longs (R150). -/
def v2Train (k : Nat) (bits : List Bool) : List PulseClass :=
  List.replicate k .long ++ [.short, .short, .long] ++ v2Pulses false bits

end Sys2Proof.Machine
end

