-- ==== Sys2Proof/Certificates/Slice0/Obligations.lean ====
section
/-!
DEFINITION. The statements for the provers. Each docstring names the rules of spec/ it formalises. Three fields of the
state are the model's own and are named where they change: `rearm` (the REARM output as the last command drove it, log
4), `trace` (the model's trace of causes, log 5) and `draws` (the counter of free values, log 6).
-/
open Sys2Proof Sys2Proof.Machine

/-! ## Encoding -/

/-- R82 to R86, R90: the decoder reads back every command the encoder writes, with every operand at every value. -/
def Obligations.DecodeOfEncode : Prop := ∀ i : Instr, decode (encode i) = .ok i

/-- R82 to R90: a word that decodes is the encoding of the command it decodes to, so no bit of it is ignored. -/
def Obligations.EncodeOfDecode : Prop := ∀ (w : Word) (i : Instr), decode w = .ok i → encode i = w

/-- R87, R90: the decoder accepts exactly the words that match exactly one row of the opcode map. -/
def Obligations.DecodesIffOneRowMatches : Prop := ∀ w : Word, (∃ i, decode w = .ok i) ↔ Word.legal w = true

/-- R87: the rows of the opcode map are disjoint. -/
def Obligations.OpcodeRowsDisjoint : Prop := ∀ w : Word, opcodeMap.countP (fun r => r.covers w) ≤ 1

/-- R88: a word is illegal iff OP ≥ 8, or a reserved field of its format is non-zero, or OP = 7 with SEL = 3; an illegal
word changes no state except RESP (and drives REARM low, log 4). -/
def Obligations.IllegalWords : Prop := ∀ w : Word,
  (Word.legal w = false ↔
    8 ≤ (w.extractLsb' 28 4).toNat ∨
    ((w.extractLsb' 28 4 = 0#4 ∨ w.extractLsb' 28 4 = 3#4 ∨ w.extractLsb' 28 4 = 4#4 ∨ w.extractLsb' 28 4 = 6#4) ∧
      w.extractLsb' 0 28 ≠ 0#28) ∨
    (w.extractLsb' 28 4 = 1#4 ∧ w.extractLsb' 17 11 ≠ 0#11) ∨
    (w.extractLsb' 28 4 = 2#4 ∧ (w.extractLsb' 20 8 ≠ 0#8 ∨ w.extractLsb' 17 1 ≠ 0#1)) ∨
    (w.extractLsb' 28 4 = 5#4 ∧ w.extractLsb' 7 21 ≠ 0#21) ∨
    (w.extractLsb' 28 4 = 7#4 ∧ (w.extractLsb' 2 26 ≠ 0#26 ∨ w.extractLsb' 0 2 = 3#2))) ∧
  (Word.legal w = false → ∀ s : State, runWord w s = .next { s with resp := 0x80000000#32, rearm := false })

/-- R91: the spec's nine example encodings decode to the commands they stand for. -/
def Obligations.ExampleWordsDecode : Prop :=
  decode 0x00000000#32 = .ok .init ∧
  decode 0x100100C8#32 = .ok (.edge .hi 200#16) ∧
  decode 0x10000190#32 = .ok (.edge .lo 400#16) ∧
  decode 0x20051234#32 = .ok (.capture 1#2 .hi 0x1234#16) ∧
  decode 0x30000000#32 = .ok .timeout ∧
  decode 0x40000000#32 = .ok .avail ∧
  decode 0x50000040#32 = .ok (.getdata 64#7) ∧
  decode 0x60000000#32 = .ok .start ∧
  decode 0x70000001#32 = .ok .statusCounters

/-! ## The step -/

/-- R37, R38, R66, R90: under a well-formed parameter set, when the oldest command on CMD decodes to `i`, a step takes
that command off CMD with its NOW and is the effect of `i`; a word offered in front of CMD is the very next one to run
(log 3). -/
def Obligations.StepRunsDecodedCommand : Prop :=
  (∀ (s : State) (c : CommandIn) (rest : List CommandIn) (i : Instr),
    s.cfg.wf = true → s.pending = c :: rest → decode c.cmd = .ok i →
      step s = exec i { s with pending := rest, now := c.now }) ∧
  (∀ (s : State) (i : Instr), s.cfg.wf = true → step (s.withFetchWord 32 (encode i).toNat) = exec i s)

/-- R224: a step on a word the decoder does not accept writes RESP and changes nothing else of the block (the command is
taken off CMD, REARM is low). -/
def Obligations.StepOnIllegalWord : Prop := ∀ (s : State) (c : CommandIn) (rest : List CommandIn) (e : Illegal),
  s.cfg.wf = true → s.pending = c :: rest → decode c.cmd = .error e →
    step s = .next { s with pending := rest, now := c.now, resp := 0x80000000#32, rearm := false }

/-- The model's choice, log 3 (R255, R270 say that the block waits and all state survives): with no command on CMD a
step changes nothing but the REARM strobe, which is low. -/
def Obligations.StepWaitsForCommand : Prop := ∀ s : State,
  s.cfg.wf = true → s.pending = [] → step s = .next { s with rearm := false }

/-- R9: a parameter set is well-formed iff t0 ≤ t1 ≤ t2 < 2^TW for both triples and TW = 16; the model refuses an
ill-formed one, in every state. -/
def Obligations.IllFormedParametersRefused : Prop := ∀ s : State,
  (s.cfg.wf = true ↔
    s.cfg.thrHi.t0.toNat ≤ s.cfg.thrHi.t1.toNat ∧ s.cfg.thrHi.t1.toNat ≤ s.cfg.thrHi.t2.toNat ∧
    s.cfg.thrHi.t2.toNat < 2 ^ s.cfg.tw ∧
    s.cfg.thrLo.t0.toNat ≤ s.cfg.thrLo.t1.toNat ∧ s.cfg.thrLo.t1.toNat ≤ s.cfg.thrLo.t2.toNat ∧
    s.cfg.thrLo.t2.toNat < 2 ^ s.cfg.tw ∧ s.cfg.tw = 16) ∧
  (s.cfg.wf = false → step s = .refused .illFormedParameters)

/-- R60: with the source's constants (R7) no access outside 0..63 happens: from any state, reachable or not, no step
ends in the index fault, whatever the other parameters, the command and the buffers are. -/
def Obligations.StepNeverFaults : Prop := ∀ (s : State) (f : Fault),
  s.cfg.consts = Constants.source → step s ≠ .fault f

/-- R41 with R22, R30, R33, R63, R144, R170, R172: every step from a state of the invariant ends in one. -/
def Obligations.StepKeepsInvariant : Prop := ∀ s t : State, Invariant s → step s = .next t → Invariant t

/-- R41, R271: the state after INIT meets the invariant, for every parameter set; reset is such a state. -/
def Obligations.ResetMeetsInvariant : Prop := (∀ c : Config, Invariant (State.afterInit c)) ∧ Invariant State.reset

/-- R21: the protocol state changes only IDLE to RXV3 or RXV2, RXV3 or RXV2 to READY, any state to IDLE. -/
def Obligations.ProtocolTransitions : Prop := ∀ s t : State, step s = .next t →
  t.st = s.st ∨ t.st = .idle ∨
  (s.st = .idle ∧ (t.st = .rxv3 ∨ t.st = .rxv2)) ∨
  (s.st.receiving = true ∧ t.st = .ready)

/-- R67, R32, R273: RAW changes only by INIT and by an EDGE or CAPTURE that starts in RXV3 or RXV2, or starts in IDLE and
commits to V3 (or, under a capacity of one bit or none, overflows at that commit, log 9). -/
def Obligations.RawChangesOnlyWhileReceiving : Prop := ∀ (i : Instr) (s t : State), exec i s = .next t → t.raw ≠ s.raw →
  i = .init ∨
  (pulseClass i s ≠ none ∧
    (s.st.receiving = true ∨ (s.st = .idle ∧ (t.st = .rxv3 ∨ rawBits s.cfg.consts ≤ 1))))

/-- R273, R246: READY is left only by INIT, by START, or by a GETDATA whose MAXLEN is at least the packet's nibbles, and
always for IDLE. -/
def Obligations.ReadyIsLeftOnlyByReArm : Prop := ∀ (i : Instr) (s t : State), exec i s = .next t →
  s.st = .ready → t.st ≠ .ready →
    t.st = .idle ∧ (i = .init ∨ i = .start ∨ ∃ m, i = .getdata m ∧ (s.cur.toNat + 3) / 4 ≤ m.toNat)

/-- R37, R148, R171: REARM is asserted for exactly the commands that call ArmTimer: an EDGE or CAPTURE that commits or
is accepted in a receiving state. Such a command leaves armed = 1. -/
def Obligations.RearmStrobe : Prop := ∀ (i : Instr) (s t : State), exec i s = .next t →
  t.rearm = (match pulseClass i s with | some c => armsTimer c s | none => false) ∧
  (t.rearm = true → t.armed = true ∧ t.st.receiving = true)

/-- R242, R245: a full reset is raised in exactly the seven rows of R242, by EDGE and CAPTURE only, with the cause of
the row; it leaves IDLE with the flags and counters clear, and no other command adds a cause but GETDATA. -/
def Obligations.FullResetsAndCauses : Prop := ∀ (i : Instr) (s t : State), exec i s = .next t →
  (∀ c, pulseClass i s = some c →
    t.trace = (match resetCause c s with | some cause => cause :: s.trace | none => s.trace) ∧
    (resetCause c s ≠ none → t.st = .idle ∧ IdleClear t ∧ t.shortCnt = 0 ∧ t.longCnt = 0)) ∧
  (pulseClass i s = none → (∀ m, i ≠ .getdata m) → t.trace = s.trace)

/-- R5, R38, R8: a step takes exactly the oldest command off CMD and never changes the parameter set. -/
def Obligations.StepConsumesOneCommand : Prop := ∀ s t : State, step s = .next t →
  t.pending = s.pending.tail ∧ t.cfg = s.cfg

/-- R33, R34, R73: DD and DT change only by INIT and by a GETDATA in READY with ver = 2, OUT only by INIT and by a
GETDATA in READY that answers a non-zero RESP. -/
def Obligations.DedupAndOutputChangeOnlyByGetdata : Prop := ∀ (i : Instr) (s t : State), exec i s = .next t →
  i ≠ .init →
    ((t.dd ≠ s.dd ∨ t.dt ≠ s.dt) → s.st = .ready ∧ s.ver = 2#2 ∧ ∃ m, i = .getdata m) ∧
    (t.out ≠ s.out → s.st = .ready ∧ t.resp ≠ 0#32 ∧ ∃ m, i = .getdata m)

/-- R243, R244: the environment's order of simultaneous requests keeps every request and sorts them by their rank; the
ranks put INIT before EDGE and CAPTURE, which are equal, these before TIMEOUT, and that before the background commands
AVAIL, GETDATA, START and STATUS, which are equal. -/
def Obligations.ArbitrationSortsByPriority : Prop :=
  (∀ l : List Instr,
    (arbitrate l).Perm l ∧ (arbitrate l).Pairwise (fun i j => (commandSource i).rank ≤ (commandSource j).rank)) ∧
  (commandSource .init).rank = 0 ∧
  (∀ ph ticks, (commandSource (.edge ph ticks)).rank = 1) ∧
  (∀ ovf ph cap, (commandSource (.capture ovf ph cap)).rank = 1) ∧
  (commandSource .timeout).rank = 2 ∧
  (commandSource .avail).rank = 3 ∧
  (∀ maxLen, (commandSource (.getdata maxLen)).rank = 3) ∧
  (commandSource .start).rank = 3 ∧
  (commandSource .statusControl).rank = 3 ∧
  (commandSource .statusCounters).rank = 3 ∧
  (commandSource .statusCapture).rank = 3

/-! ## Host interface -/

/-- R220: INIT sets every piece of state of R20 to its reset value in every state; the parameter set, the inputs, the
model's trace and its counter of draws stay. -/
def Obligations.InitClearsEverything : Prop := encode .init = 0x00000000#32 ∧ ∀ s : State,
  exec .init s = .next
    { State.afterInit s.cfg with pending := s.pending, now := s.now, trace := s.trace, draws := s.draws }

/-- R221: RDY is 1 exactly in READY; AVAIL answers 1 in READY and 0 elsewhere and writes RESP only (REARM low). -/
def Obligations.AvailReportsReady : Prop := encode .avail = 0x40000000#32 ∧ ∀ s : State,
  (s.rdy = true ↔ s.st = .ready) ∧
  (s.st = .ready → exec .avail s = .next { s with resp := 1#32, rearm := false }) ∧
  (s.st ≠ .ready → exec .avail s = .next { s with resp := 0#32, rearm := false })

/-- R222: START re-arms in READY and is a no-op elsewhere but for RESP (REARM low). -/
def Obligations.StartReArms : Prop := encode .start = 0x60000000#32 ∧ ∀ s : State,
  (s.st = .ready → exec .start s = .next
    { s with
      st := .idle, ver := 0#2, shortCnt := 0, longCnt := 0, pend := false, lastBit := false, dump := false,
      psp := false, cur := 0#8, armed := false, resp := 0#32, rearm := false }) ∧
  (s.st ≠ .ready → exec .start s = .next { s with resp := 0#32, rearm := false })

/-- R223, R21: the three STATUS views, as numbers, with IDLE 0, RXV3 1, RXV2 2 and READY 3 in bits 1:0 of the control
view; STATUS writes RESP only (REARM low). -/
def Obligations.StatusViews : Prop :=
  (encode .statusControl = 0x70000000#32 ∧ encode .statusCounters = 0x70000001#32 ∧
    encode .statusCapture = 0x70000002#32) ∧ ∀ s : State,
  (∃ r : Word, exec .statusControl s = .next { s with resp := r, rearm := false } ∧
    r.toNat = (match s.st with | .idle => 0 | .rxv3 => 1 | .rxv2 => 2 | .ready => 3) + 4 * s.ver.toNat +
      16 * s.pend.toNat + 32 * s.lastBit.toNat + 64 * s.dump.toNat + 128 * s.psp.toNat + 256 * s.armed.toNat +
      65536 * s.cur.toNat) ∧
  (∃ r : Word, exec .statusCounters s = .next { s with resp := r, rearm := false } ∧
    r.toNat = s.shortCnt % 256 + 256 * (s.longCnt % 256)) ∧
  (∃ r : Word, exec .statusCapture s = .next { s with resp := r, rearm := false } ∧ r.toNat = s.prevCap.toNat)

/-- R245, R246: the registers of FullReset and ReArm, and what they keep. -/
def Obligations.FullResetAndReArmRegisters : Prop := ∀ (c : Cause) (s : State),
  fullReset c s =
    { s with
      st := .idle, ver := 0#2, shortCnt := 0, longCnt := 0, pend := false, lastBit := false, dump := false,
      psp := false, cur := 0#8, armed := false, trace := c :: s.trace } ∧
  reArm s =
    { s with
      st := .idle, ver := 0#2, shortCnt := 0, longCnt := 0, pend := false, lastBit := false, dump := false,
      psp := false, cur := 0#8, armed := false }

/-! ## The completion timer -/

/-- R170: TIMEOUT disarms, and ends the message iff TIMEOUT_EFFECT = EFFECTIVE in a receiving state with more than
MIN_BITS_TMO bits; nothing else changes (REARM low). -/
def Obligations.TimeoutEndsLongMessages : Prop := encode .timeout = 0x30000000#32 ∧ ∀ s : State,
  (s.cfg.timeoutEffect = .effective → s.st = .rxv3 ∨ s.st = .rxv2 → s.cfg.consts.minBitsTmo < s.cur.toNat →
    exec .timeout s = .next { s with st := .ready, armed := false, resp := 0#32, rearm := false }) ∧
  (¬(s.cfg.timeoutEffect = .effective ∧ (s.st = .rxv3 ∨ s.st = .rxv2) ∧ s.cfg.consts.minBitsTmo < s.cur.toNat) →
    exec .timeout s = .next { s with armed := false, resp := 0#32, rearm := false })

/-- R172: under the invariant and TIMEOUT_EFFECT = EFFECTIVE a TIMEOUT out of contract, that is with armed = 0 in a
receiving state, has no effect on st. -/
def Obligations.UnarmedTimeoutHasNoEffect : Prop := ∀ s : State,
  Invariant s → s.st.receiving = true → s.armed = false → s.cfg.timeoutEffect = .effective →
    exec .timeout s = .next { s with resp := 0#32, rearm := false }

/-! ## The pulse classifier -/

/-- R101: Short iff t0 ≤ t < t1, Long iff t1 ≤ t < t2, Noise otherwise, with the triple of the phase, under every
parameter set, well-formed or not (Short is tested first). -/
def Obligations.ClassifyByThresholds : Prop := ∀ (c : Config) (t : Ticks),
  (classify c .hi t = .short ↔ c.thrHi.t0.toNat ≤ t.toNat ∧ t.toNat < c.thrHi.t1.toNat) ∧
  (classify c .hi t = .long ↔ c.thrHi.t1.toNat ≤ t.toNat ∧ t.toNat < c.thrHi.t2.toNat) ∧
  (classify c .hi t = .noise ↔
    ¬(c.thrHi.t0.toNat ≤ t.toNat ∧ t.toNat < c.thrHi.t1.toNat) ∧
    ¬(c.thrHi.t1.toNat ≤ t.toNat ∧ t.toNat < c.thrHi.t2.toNat)) ∧
  (classify c .lo t = .short ↔ c.thrLo.t0.toNat ≤ t.toNat ∧ t.toNat < c.thrLo.t1.toNat) ∧
  (classify c .lo t = .long ↔ c.thrLo.t1.toNat ≤ t.toNat ∧ t.toNat < c.thrLo.t2.toNat) ∧
  (classify c .lo t = .noise ↔
    ¬(c.thrLo.t0.toNat ≤ t.toNat ∧ t.toNat < c.thrLo.t1.toNat) ∧
    ¬(c.thrLo.t1.toNat ≤ t.toNat ∧ t.toNat < c.thrLo.t2.toNat))

/-- R92: under a well-formed parameter set SHORT, LONG and NOISE yield their classes, SHORT if t0 < t1 and LONG if
t1 < t2. -/
def Obligations.PseudoPulsesYieldTheirClass : Prop := ∀ (c : Config) (ph : Phase), c.wf = true →
  ((triple c ph).t0 < (triple c ph).t1 →
    ∃ t, pseudo c ph .short = .edge ph t ∧ classify c ph t = .short) ∧
  ((triple c ph).t1 < (triple c ph).t2 →
    ∃ t, pseudo c ph .long = .edge ph t ∧ classify c ph t = .long) ∧
  (∃ t, pseudo c ph .noise = .edge ph t ∧ classify c ph t = .noise)

/-- R103, R104: CAPTURE is EDGE of the elapsed width, after prevCap <- CAP: the difference modulo 2^16 for OVF = 0, and
for OVF = 1 under MODULAR, REALISTIC_MAX for OVF = 1 under CLAMP, 0xFFFF for OVF = 2 or 3. -/
def Obligations.CaptureIsEdgeOfElapsed : Prop := ∀ (s : State) (ovf : BitVec 2) (ph : Phase) (cap : Ticks),
  ∃ e : Ticks, exec (.capture ovf ph cap) s = exec (.edge ph e) { s with prevCap := cap } ∧
    (ovf.toNat = 0 → e.toNat = (cap.toNat + 65536 - s.prevCap.toNat) % 65536) ∧
    (ovf.toNat = 1 → s.cfg.ovf1Mode = .modular → e.toNat = (cap.toNat + 65536 - s.prevCap.toNat) % 65536) ∧
    (ovf.toNat = 1 → s.cfg.ovf1Mode = .clamp → e = s.cfg.realisticMax) ∧
    (2 ≤ ovf.toNat → e.toNat = 0xFFFF)

/-- R103: the width 0xFFFF is Noise under every well-formed parameter set. -/
def Obligations.MaximumWidthIsNoise : Prop := ∀ (c : Config) (ph : Phase), c.wf = true →
  classify c ph 0xFFFF#16 = .noise

/-- R105, R274: an edge in READY is discarded: EDGE changes only RESP, CAPTURE only prevCap and RESP (REARM low). -/
def Obligations.EdgeInReadyDiscarded : Prop := ∀ (s : State) (ovf : BitVec 2) (ph : Phase) (t : Ticks), s.st = .ready →
  exec (.edge ph t) s = .next { s with resp := 0#32, rearm := false } ∧
  exec (.capture ovf ph t) s = .next { s with prevCap := t, resp := 0#32, rearm := false }

/-- R100, R103: every EDGE and every CAPTURE completes in every state under every parameter set, with RESP = 0; CAPTURE
has written prevCap. -/
def Obligations.PulsesComplete : Prop := ∀ (s : State) (ovf : BitVec 2) (ph : Phase) (t : Ticks),
  (∃ u, exec (.edge ph t) s = .next u ∧ u.resp = 0#32 ∧ u.prevCap = s.prevCap) ∧
  (∃ u, exec (.capture ovf ph t) s = .next u ∧ u.resp = 0#32 ∧ u.prevCap = t)

/-- The frame of EDGE and CAPTURE (R100, R103, R121 to R126, R141 to R144, R245): the parameter set, the inputs, DD, DT,
OUT and the draws stay; EDGE keeps prevCap; every byte of RAW stays but the one that `rawTarget` computes; in a receiving
state the counters and the version stay unless the pulse leaves for IDLE; in READY only RESP, REARM and CAPTURE's prevCap
may change. -/
def Obligations.PulseFrame : Prop := ∀ (i : Instr) (c : PulseClass) (s t : State),
  pulseClass i s = some c → exec i s = .next t →
    t.cfg = s.cfg ∧ t.pending = s.pending ∧ t.now = s.now ∧ t.dd = s.dd ∧ t.dt = s.dt ∧ t.out = s.out ∧
    t.draws = s.draws ∧
    (∀ ph ticks, i = .edge ph ticks → t.prevCap = s.prevCap) ∧
    (∀ k, rawTarget c s ≠ some k → t.raw.byte k = s.raw.byte k) ∧
    (s.st.receiving = true → t.st ≠ .idle →
      t.shortCnt = s.shortCnt ∧ t.longCnt = s.longCnt ∧ t.ver = s.ver) ∧
    (s.st = .ready → t = { s with prevCap := t.prevCap, resp := 0#32, rearm := false })

/-! ## The sync detector -/

/-- R121, R123, R125: a Short in IDLE commits to V2.1, counts, or raises FullReset(a). -/
def Obligations.IdleShort : Prop := ∀ (s : State) (ph : Phase) (t : Ticks),
  s.st = .idle → classify s.cfg ph t = .short →
    (s.shortCnt ≤ 1 ∧ s.cfg.consts.v2Pre < s.longCnt →
      exec (.edge ph t) s = .next
        { s with
          st := .rxv2, ver := 2#2, lastBit := true, pend := true, dump := true, psp := false, cur := 0#8,
          armed := true, rearm := true, resp := 0#32 }) ∧
    (¬(s.shortCnt ≤ 1 ∧ s.cfg.consts.v2Pre < s.longCnt) → s.longCnt = 0 →
      exec (.edge ph t) s = .next
        { s with shortCnt := min (s.shortCnt + 1) (2 ^ s.cfg.cntW - 1), resp := 0#32, rearm := false }) ∧
    (¬(s.shortCnt ≤ 1 ∧ s.cfg.consts.v2Pre < s.longCnt) → s.longCnt ≠ 0 →
      exec (.edge ph t) s = .next (fullReset .syncFailure { s with resp := 0#32, rearm := false }))

/-- R122, R125, R126: a Long in IDLE commits to V3 and writes bit 0 of the sync nibble, counts, or raises
FullReset(a). With the source's constants the commit's bit write never overflows; the model's reading, log 9:
under a capacity of one bit or none it raises FullReset(d) after the write, as R62 has it. -/
def Obligations.IdleLong : Prop := ∀ (s : State) (ph : Phase) (t : Ticks),
  s.st = .idle → classify s.cfg ph t = .long →
    (s.cfg.consts = Constants.source → 1 < rawBits s.cfg.consts) ∧
    (s.cfg.consts.v3Pre < s.shortCnt → rawBits s.cfg.consts ≤ 1 →
      exec (.edge ph t) s = .next
        (fullReset .bufferOverflow { s with raw := s.raw.put 0 0#8, resp := 0#32, rearm := false })) ∧
    (s.cfg.consts.v3Pre < s.shortCnt → 1 < rawBits s.cfg.consts →
      exec (.edge ph t) s = .next
        { s with
          st := .rxv3, ver := 3#2, lastBit := false, pend := false, dump := false, psp := false, cur := 1#8,
          raw := s.raw.put 0 0#8, armed := true, rearm := true, resp := 0#32 }) ∧
    (¬ s.cfg.consts.v3Pre < s.shortCnt → s.shortCnt ≤ 1 →
      exec (.edge ph t) s = .next
        { s with longCnt := min (s.longCnt + 1) (2 ^ s.cfg.cntW - 1), resp := 0#32, rearm := false }) ∧
    (¬ s.cfg.consts.v3Pre < s.shortCnt → ¬ s.shortCnt ≤ 1 →
      exec (.edge ph t) s = .next (fullReset .syncFailure { s with resp := 0#32, rearm := false }))

/-- R124, R127: a Noise in IDLE raises FullReset(a), and the pulse is consumed. -/
def Obligations.IdleNoise : Prop := ∀ (s : State) (ph : Phase) (t : Ticks),
  s.st = .idle → classify s.cfg ph t = .noise →
    exec (.edge ph t) s = .next (fullReset .syncFailure { s with resp := 0#32, rearm := false })

/-! ## The Manchester decoder -/

/-- R61, R62: a bit write puts the bit at position cur[1:0] of byte cur[7:2]; at position 0 the whole byte is the bit, at
another position the byte's other bits stay; every other byte stays, and nibble bytes stay nibbles. -/
def Obligations.BitWritePlacement : Prop := ∀ (b : Bool) (s : State), s.raw.wf = true →
  (∀ k, k ≠ s.cur.toNat / 4 → (rawAfterBit b s).byte k = s.raw.byte k) ∧
  ((rawAfterBit b s).byte (s.cur.toNat / 4)).getLsbD (s.cur.toNat % 4) = b ∧
  (s.cur.toNat % 4 = 0 → ((rawAfterBit b s).byte (s.cur.toNat / 4)).toNat = b.toNat) ∧
  (s.cur.toNat % 4 ≠ 0 → ∀ j, j < 8 → j ≠ s.cur.toNat % 4 →
    ((rawAfterBit b s).byte (s.cur.toNat / 4)).getLsbD j = (s.raw.byte (s.cur.toNat / 4)).getLsbD j) ∧
  (rawAfterBit b s).wf = true ∧ (s.raw.nibbles = true → (rawAfterBit b s).nibbles = true)

/-- R142, R141, R145, R146, R147: a Short in a receiving state: it is kept pending; or it completes a pair whose bit is
lastBit, which is a violation (b), is dumped, is written, or overflows (d) after its write. With the source's constants
the overflowing write is the one at cur = 255; for other constants the capacity is the model's reading, log 9. -/
def Obligations.ReceiveShort : Prop := ∀ (s : State) (ph : Phase) (t : Ticks),
  s.st = .rxv3 ∨ s.st = .rxv2 → classify s.cfg ph t = .short →
    (s.cfg.consts = Constants.source → (rawBits s.cfg.consts ≤ s.cur.toNat + 1 ↔ s.cur = 255#8)) ∧
    (s.pend = false →
      exec (.edge ph t) s = .next { s with pend := true, armed := true, rearm := true, resp := 0#32 }) ∧
    (s.pend = true → s.st = .rxv2 → s.psp = true →
      exec (.edge ph t) s = .next (fullReset .structuralViolation { s with resp := 0#32, rearm := false })) ∧
    (s.pend = true → s.st = .rxv2 → s.psp = false → s.dump = true →
      exec (.edge ph t) s = .next
        { s with pend := false, psp := true, dump := false, armed := true, rearm := true, resp := 0#32 }) ∧
    (s.pend = true → s.st = .rxv2 → s.psp = false → s.dump = false → s.cur.toNat + 1 < rawBits s.cfg.consts →
      exec (.edge ph t) s = .next
        { s with
          pend := false, psp := true, dump := true, raw := rawAfterBit s.lastBit s, cur := s.cur + 1#8,
          armed := true, rearm := true, resp := 0#32 }) ∧
    (s.pend = true → s.st = .rxv3 → s.cur.toNat + 1 < rawBits s.cfg.consts →
      exec (.edge ph t) s = .next
        { s with
          pend := false, raw := rawAfterBit s.lastBit s, cur := s.cur + 1#8, armed := true, rearm := true,
          resp := 0#32 }) ∧
    (s.pend = true → (s.st = .rxv2 → s.psp = false ∧ s.dump = false) → rawBits s.cfg.consts ≤ s.cur.toNat + 1 →
      exec (.edge ph t) s = .next
        (fullReset .bufferOverflow { s with raw := rawAfterBit s.lastBit s, resp := 0#32, rearm := false }))

/-- R143, R141, R145, R147: a Long in a receiving state: with a pending Short a violation (b); else its bit is NOT
lastBit, which is dumped, is written, or overflows (d) after its write. With the source's constants the overflowing
write is the one at cur = 255; for other constants the capacity is the model's reading, log 9. -/
def Obligations.ReceiveLong : Prop := ∀ (s : State) (ph : Phase) (t : Ticks),
  s.st = .rxv3 ∨ s.st = .rxv2 → classify s.cfg ph t = .long →
    (s.cfg.consts = Constants.source → (rawBits s.cfg.consts ≤ s.cur.toNat + 1 ↔ s.cur = 255#8)) ∧
    (s.pend = true →
      exec (.edge ph t) s = .next (fullReset .structuralViolation { s with resp := 0#32, rearm := false })) ∧
    (s.pend = false → s.st = .rxv2 → s.dump = true →
      exec (.edge ph t) s = .next
        { s with
          psp := false, lastBit := !s.lastBit, dump := false, armed := true, rearm := true, resp := 0#32 }) ∧
    (s.pend = false → s.st = .rxv2 → s.dump = false → s.cur.toNat + 1 < rawBits s.cfg.consts →
      exec (.edge ph t) s = .next
        { s with
          psp := false, lastBit := !s.lastBit, dump := true, raw := rawAfterBit (!s.lastBit) s, cur := s.cur + 1#8,
          armed := true, rearm := true, resp := 0#32 }) ∧
    (s.pend = false → s.st = .rxv3 → s.cur.toNat + 1 < rawBits s.cfg.consts →
      exec (.edge ph t) s = .next
        { s with
          lastBit := !s.lastBit, raw := rawAfterBit (!s.lastBit) s, cur := s.cur + 1#8, armed := true, rearm := true,
          resp := 0#32 }) ∧
    (s.pend = false → (s.st = .rxv2 → s.dump = false) → rawBits s.cfg.consts ≤ s.cur.toNat + 1 →
      exec (.edge ph t) s = .next
        (fullReset .bufferOverflow { s with raw := rawAfterBit (!s.lastBit) s, resp := 0#32, rearm := false }))

/-- R144: a Noise in a receiving state ends the message with at least MIN_BITS_NOISE bits and raises FullReset(a) with
fewer. -/
def Obligations.ReceiveNoise : Prop := ∀ (s : State) (ph : Phase) (t : Ticks),
  s.st = .rxv3 ∨ s.st = .rxv2 → classify s.cfg ph t = .noise →
    (s.cfg.consts.minBitsNoise ≤ s.cur.toNat →
      exec (.edge ph t) s = .next { s with st := .ready, armed := false, resp := 0#32, rearm := false }) ∧
    (s.cur.toNat < s.cfg.consts.minBitsNoise →
      exec (.edge ph t) s = .next (fullReset .syncFailure { s with resp := 0#32, rearm := false }))

/-- R149: from IDLE with both counters 0, more than V3_PRE Shorts, one Long, then two Shorts for each repeated bit and
one Long for each flipped bit write exactly the message's bits to RAW, for a message shorter than the capacity (log 9;
with the source's constants, at most 255 bits); a following Noise enters READY iff the message has at least
MIN_BITS_NOISE bits. -/
def Obligations.V3TrainWritesMessage : Prop := ∀ (s : State) (ps : List (Phase × Ticks)) (k : Nat) (bits : List Bool),
  s.st = .idle → s.shortCnt = 0 → s.longCnt = 0 → s.raw.wf = true →
  s.cfg.consts.v3Pre < k → s.cfg.consts.v3Pre < 2 ^ s.cfg.cntW - 1 → bits.length + 1 < rawBits s.cfg.consts →
  classes s.cfg ps = v3Train k bits →
    ∃ t, runCommands (edges ps) s = .next t ∧ t.st = .rxv3 ∧ t.ver = 3#2 ∧ t.cur.toNat = bits.length + 1 ∧
      (∀ j, j < bits.length + 1 → messageBit t.raw j = (false :: bits).getD j false) ∧
      (∀ ph ticks, classify s.cfg ph ticks = .noise →
        ∃ u, exec (.edge ph ticks) t = .next u ∧
          (u.st = .ready ↔ s.cfg.consts.minBitsNoise ≤ bits.length + 1))

/-- R150: from IDLE with both counters 0, more than V2_PRE Longs, two Shorts and a Long, then the decoded pair
(NOT b, b) for each further bit write exactly the message's bits to RAW, with no violation, for a message shorter than
the capacity (log 9; with the source's constants, at most 255 bits). -/
def Obligations.V2TrainWritesMessage : Prop := ∀ (s : State) (ps : List (Phase × Ticks)) (k : Nat) (bits : List Bool),
  s.st = .idle → s.shortCnt = 0 → s.longCnt = 0 → s.raw.wf = true →
  s.cfg.consts.v2Pre < k → s.cfg.consts.v2Pre < 2 ^ s.cfg.cntW - 1 → bits.length + 1 < rawBits s.cfg.consts →
  classes s.cfg ps = v2Train k bits →
    ∃ t, runCommands (edges ps) s = .next t ∧ t.st = .rxv2 ∧ t.ver = 2#2 ∧ t.cur.toNat = bits.length + 1 ∧
      t.trace = s.trace ∧
      (∀ j, j < bits.length + 1 → messageBit t.raw j = (false :: bits).getD j false)

/-! ## The packet reader -/

/-- R180, F1 and F2: a GETDATA out of READY, or with MAXLEN below the packet's nibbles, changes nothing but RESP (REARM
low). -/
def Obligations.GetdataTurnedAway : Prop := ∀ (s : State) (m : BitVec 7),
  s.st ≠ .ready ∨ m.toNat < (s.cur.toNat + 3) / 4 →
    exec (.getdata m) s = .next { s with resp := 0#32, rearm := false }

/-- R181, R74: the snapshot takes all 64 bytes of RAW; under STALE_MODE = ANY a byte the message has not written is some
nibble, whatever the free values are. -/
def Obligations.SnapshotBytes : Prop := ∀ (s : State) (k : Nat), k < 64 →
  (s.cfg.staleMode = .retained → (snapshot s).byte k = s.raw.byte k) ∧
  (k < (s.cur.toNat + 3) / 4 → (snapshot s).byte k = s.raw.byte k) ∧
  (s.cfg.staleMode = .any → (s.cur.toNat + 3) / 4 ≤ k → ((snapshot s).byte k).toNat < 16)

/-- R183: with the source's constants and nibble bytes, DupScan(n) finds exactly the least index i, 14 ≤ i < n, whose
nibble is 0xA and whose four nibbles before are 0xF. -/
def Obligations.DupScanFindsSecondCopy : Prop := ∀ (w : Memory) (n : Nat), w.nibbles = true → n ≤ 64 →
  ∃ r, dupScan Constants.source w n = .ok r ∧
    ∀ i, r = some i ↔
      (14 ≤ i ∧ i < n ∧ MarksSecondCopy w i ∧ ∀ j, 14 ≤ j → j < i → ¬ MarksSecondCopy w j)

/-- R184: Splice(off, m) copies the second copy over the first and keeps the bytes from m on. -/
def Obligations.SpliceCopiesSecondCopy : Prop := ∀ (w : Memory) (off m : Nat), w.wf = true → off + m ≤ 64 →
  ∃ w', splice w off m = .ok w' ∧ w'.wf = true ∧
    ∀ k, w'.byte k = if k < m then w.byte (off + k) else w.byte k

/-- R185: with the source's constants and nibble bytes, Checksum(pos) is the 8-bit sum test for 1 ≤ pos ≤ 60 and false
elsewhere. -/
def Obligations.ChecksumTest : Prop := ∀ (w : Memory) (pos : Int), w.nibbles = true →
  (1 ≤ pos → pos ≤ 60 → ∃ b, checksum Constants.source w pos = .ok b ∧ (b = true ↔ ChecksumHolds w pos.toNat)) ∧
  (pos < 1 ∨ 60 < pos → checksum Constants.source w pos = .ok false)

/-- R186: Recover(n) tries n − 4, n − 3, n − 2 in this order; the first pass wins with length position + 4. -/
def Obligations.RecoverTriesThreePositions : Prop := ∀ (w : Memory) (n : Int) (b1 b2 b3 : Bool),
  checksum Constants.source w (n - 4) = .ok b1 →
  checksum Constants.source w (n - 3) = .ok b2 →
  checksum Constants.source w (n - 2) = .ok b3 →
    (b1 = true → recover Constants.source w n = .ok (some n.toNat)) ∧
    (b1 = false → b2 = true → recover Constants.source w n = .ok (some (n + 1).toNat)) ∧
    (b1 = false → b2 = false → b3 = true → recover Constants.source w n = .ok (some (n + 2).toNat)) ∧
    (b1 = false → b2 = false → b3 = false → recover Constants.source w n = .ok none)

/-- R191: a message of p + 4 nibbles whose last k ≤ 8 bits are lost is framed at length p + 4, if no second copy is found
and no earlier position passes by chance; the cursor counts the bits received. -/
def Obligations.BitLossIsRecovered : Prop := ∀ (w : Memory) (p k : Nat) (cur : BitVec 8),
  w.nibbles = true → w.byte 0 = 0x0A#8 → 1 ≤ p → p ≤ 60 → k ≤ 8 → cur.toNat + k = 4 * (p + 4) →
  findSecondCopy Constants.source w ((cur.toNat + 3) / 4) = .ok none → ChecksumHolds w p →
  (∀ q, (cur.toNat + 3) / 4 ≤ q + 4 → 1 ≤ q → q < p → ¬ ChecksumHolds w q) →
    (cur.toNat + 3) / 4 = p + 4 - k / 4 ∧
    frame Constants.source w ((cur.toNat + 3) / 4) = .ok (some (w, p + 4))

/-- R192, R187, R184: the split of a double transmission: copy A of a nibbles, four 0xF nibbles, copy B of b nibbles.
With A's sync nibble valid, A is framed at the length its recovery gives, and at its own length a if its checksum is
good; with A's sync nibble valid and none of A's three positions passing, or with A's sync nibble invalid, B is spliced over A
and what its recovery gives is framed, nothing where it gives nothing (F4). -/
def Obligations.DoubleTransmissionSplit : Prop := ∀ (w : Memory) (a b : Nat),
  w.wf = true → w.nibbles = true → 10 ≤ a → 27 < a + 4 + b → a + 4 + b ≤ 64 → 1 ≤ b →
  MarksSecondCopy w (a + 4) → (∀ j, 14 ≤ j → j < a + 4 → ¬ MarksSecondCopy w j) →
    (w.byte 0 = 0x0A#8 → ChecksumHolds w (a - 4) →
      frame Constants.source w (a + 4 + b) = .ok (some (w, a))) ∧
    (w.byte 0 = 0x0A#8 → ∀ len, recover Constants.source w a = .ok (some len) →
      frame Constants.source w (a + 4 + b) = .ok (some (w, len))) ∧
    ∃ w', splice w (a + 4) b = .ok w' ∧ (∀ k, k < b → w'.byte k = w.byte (a + 4 + k)) ∧
      ((w.byte 0 = 0x0A#8 ∧ ¬ ChecksumHolds w (a - 4) ∧ ¬ ChecksumHolds w (a - 3) ∧ ¬ ChecksumHolds w (a - 2)) ∨
          w.byte 0 ≠ 0x0A#8 →
        (5 ≤ b → ChecksumHolds w' (b - 4) → frame Constants.source w (a + 4 + b) = .ok (some (w', b))) ∧
        (∀ len, recover Constants.source w' b = .ok (some len) →
          frame Constants.source w (a + 4 + b) = .ok (some (w', len))) ∧
        (recover Constants.source w' b = .ok none → frame Constants.source w (a + 4 + b) = .ok none))

/-- R188: Dedup(L, t) finds a repeat iff the signed time difference is below DEDUP_MS and bytes 0 .. L−3 are equal; DD
and DT are replaced whatever the outcome, DD from L on is kept, nothing else changes. -/
def Obligations.DedupComparesAndReplaces : Prop := ∀ (w : Memory) (len t : Nat) (s : State),
  len ≤ 64 → s.dd.wf = true →
    ∃ ok dd', dedup w len t s = .ok (ok, { s with dd := dd', dt := t }) ∧
      (ok = false ↔
        timeSince s.cfg t s.dt < (s.cfg.consts.dedupMs : Int) ∧ ∀ k, k + 2 < len → w.byte k = s.dd.byte k) ∧
      ∀ k, dd'.byte k = if k < len then w.byte k else s.dd.byte k

/-- R189: with TIME_W = 32 the time difference is the signed 32-bit one: the elapsed time while it is below 2^31 ms, and
negative, so "less than 1000 ms ago", from 2^31 ms on. -/
def Obligations.TimeDifferenceIsSigned : Prop := ∀ (c : Config) (t dt : Nat),
  c.timeW = 32 → t < 2 ^ 32 → dt < 2 ^ 32 →
    ((t + 2 ^ 32 - dt) % 2 ^ 32 < 2 ^ 31 →
      timeSince c t dt = (((t + 2 ^ 32 - dt) % 2 ^ 32 : Nat) : Int)) ∧
    (2 ^ 31 ≤ (t + 2 ^ 32 - dt) % 2 ^ 32 →
      timeSince c t dt = (((t + 2 ^ 32 - dt) % 2 ^ 32 : Nat) : Int) - 2 ^ 32 ∧ timeSince c t dt < 0) ∧
    (dedupGapInRange c t dt → timeSince c t dt = (t : Int) - dt)

/-- R180, R181, R241: with the source's constants every GETDATA in READY whose MAXLEN is at least the packet's nibbles
completes and consumes the packet: the decoder is re-armed, RAW and prevCap stay, and RESP is 0 with OUT unchanged, or
holds the version and a length of 5 to 64 that MAXLEN admits. F3 and F4: where the snapshot does not frame, RESP = 0,
cause c is recorded, and OUT, DD and DT stay for either version. F6: where it frames with a length above MAXLEN and is no
repeat, RESP = 0, OUT stays and no cause is recorded, and a V2.1 packet replaces DD and DT all the same. -/
def Obligations.GetdataConsumesPacket : Prop := ∀ (s : State) (m : BitVec 7),
  s.cfg.consts = Constants.source → s.st = .ready → (s.cur.toNat + 3) / 4 ≤ m.toNat →
    ∃ t, exec (.getdata m) s = .next t ∧ t.st = .idle ∧ IdleClear t ∧ t.shortCnt = 0 ∧ t.longCnt = 0 ∧
      t.raw = s.raw ∧ t.prevCap = s.prevCap ∧ t.rearm = false ∧
      ((t.resp = 0#32 ∧ t.out = s.out) ∨
        ∃ len, 5 ≤ len ∧ len ≤ 64 ∧ len ≤ m.toNat ∧ t.resp.toNat = 256 * s.ver.toNat + len) ∧
      (frame s.cfg.consts (snapshot s) ((s.cur.toNat + 3) / 4) = .ok none →
        t.resp = 0#32 ∧ t.out = s.out ∧ t.dd = s.dd ∧ t.dt = s.dt ∧ t.trace = .checksumFailure :: s.trace) ∧
      (∀ w len, frame s.cfg.consts (snapshot s) ((s.cur.toNat + 3) / 4) = .ok (some (w, len)) → m.toNat < len →
        (s.ver = 2#2 → isRepeat s w len (s.now % 2 ^ s.cfg.timeW) = .ok false) →
          t.resp = 0#32 ∧ t.out = s.out ∧ t.trace = s.trace ∧
          (s.ver = 2#2 → t.dt = s.now % 2 ^ s.cfg.timeW ∧
            (s.dd.wf = true → ∀ k, t.dd.byte k = if k < len then w.byte k else s.dd.byte k)) ∧
          (s.ver ≠ 2#2 → t.dd = s.dd ∧ t.dt = s.dt))

/-- R180, R190: a packet that frames, is no repeat and fits MAXLEN is delivered: RESP holds LEN and VER, OUT[0 .. L−1] is
the framed packet, OUT from L on stays; a V2.1 packet replaces DD and DT, another leaves them. -/
def Obligations.GetdataDeliversFramedPacket : Prop := ∀ (s : State) (m : BitVec 7) (w : Memory) (len : Nat),
  s.cfg.consts = Constants.source → s.st = .ready → (s.cur.toNat + 3) / 4 ≤ m.toNat →
  s.out.wf = true → s.dd.wf = true →
  frame s.cfg.consts (snapshot s) ((s.cur.toNat + 3) / 4) = .ok (some (w, len)) → len ≤ m.toNat →
  (s.ver = 2#2 → isRepeat s w len (s.now % 2 ^ s.cfg.timeW) = .ok false) →
    ∃ t, exec (.getdata m) s = .next t ∧ t.resp.toNat = 256 * s.ver.toNat + len ∧
      t.st = .idle ∧ IdleClear t ∧ t.trace = s.trace ∧
      (∀ k, t.out.byte k = if k < len then w.byte k else s.out.byte k) ∧
      (s.ver = 2#2 → t.dt = s.now % 2 ^ s.cfg.timeW ∧
        ∀ k, t.dd.byte k = if k < len then w.byte k else s.dd.byte k) ∧
      (s.ver ≠ 2#2 → t.dd = s.dd ∧ t.dt = s.dt)

/-- R180, R188, F5: a V2.1 packet that is a repeat is suppressed, and still replaces DD and DT; OUT stays. -/
def Obligations.GetdataSuppressesRepeat : Prop := ∀ (s : State) (m : BitVec 7) (w : Memory) (len : Nat),
  s.cfg.consts = Constants.source → s.st = .ready → (s.cur.toNat + 3) / 4 ≤ m.toNat → s.dd.wf = true →
  frame s.cfg.consts (snapshot s) ((s.cur.toNat + 3) / 4) = .ok (some (w, len)) →
  s.ver = 2#2 → isRepeat s w len (s.now % 2 ^ s.cfg.timeW) = .ok true →
    ∃ t, exec (.getdata m) s = .next t ∧ t.resp = 0#32 ∧ t.st = .idle ∧ IdleClear t ∧ t.out = s.out ∧
      t.trace = .duplicateSuppressed :: s.trace ∧ t.dt = s.now % 2 ^ s.cfg.timeW ∧
      ∀ k, t.dd.byte k = if k < len then w.byte k else s.dd.byte k

/-- R180 to R190, from the buffer's own bytes: a V3 packet of n ≤ 27 nibbles in RAW that begins with the sync nibble and
has its checksum at n − 4 is delivered as it stands, with LEN = n and VER = 3. -/
def Obligations.GetdataDeliversIntactMessage : Prop := ∀ (s : State) (m : BitVec 7) (n : Nat),
  s.cfg.consts = Constants.source → s.st = .ready → s.ver = 3#2 → n = (s.cur.toNat + 3) / 4 →
  5 ≤ n → n ≤ 27 → n ≤ m.toNat → s.raw.nibbles = true → s.out.wf = true →
  s.raw.byte 0 = 0x0A#8 → ChecksumHolds s.raw (n - 4) →
    ∃ t, exec (.getdata m) s = .next t ∧ t.resp.toNat = 0x300 + n ∧ t.st = .idle ∧ t.dd = s.dd ∧ t.dt = s.dt ∧
      ∀ k, t.out.byte k = if k < n then s.raw.byte k else s.out.byte k

/-- R182, R185, R186, R190: whatever GETDATA delivers is a valid packet: with the source's constants and nibble buffers,
a non-zero RESP means that OUT holds a sync nibble, a checksum that matches, and a length MAXLEN admits. -/
def Obligations.DeliveredPacketIsValid : Prop := ∀ (s t : State) (m : BitVec 7),
  s.cfg.consts = Constants.source → BuffersOk s → exec (.getdata m) s = .next t → t.resp ≠ 0#32 →
    ∃ len, ValidPacket t.out len ∧ len ≤ m.toNat ∧ t.resp.toNat = 256 * s.ver.toNat + len

/-- The frame of GETDATA (R180, R181, R188, R190): the parameter set, the inputs, RAW and prevCap stay; DD and DT stay
unless ver = 2, and OUT unless RESP is non-zero; a byte of DD or OUT at or beyond the length that `frame` computes stays;
the trace grows by cause c or e at most. -/
def Obligations.GetdataFrame : Prop := ∀ (s t : State) (m : BitVec 7), exec (.getdata m) s = .next t →
  t.cfg = s.cfg ∧ t.pending = s.pending ∧ t.now = s.now ∧ t.raw = s.raw ∧ t.prevCap = s.prevCap ∧ t.rearm = false ∧
  (s.ver ≠ 2#2 → t.dd = s.dd ∧ t.dt = s.dt) ∧
  (t.resp = 0#32 → t.out = s.out) ∧
  (∀ k, (∀ w len, frame s.cfg.consts (snapshot s) (ceil4 s.cur) = .ok (some (w, len)) → len ≤ k) →
    t.out.byte k = s.out.byte k ∧ t.dd.byte k = s.dd.byte k) ∧
  (t.trace = s.trace ∨ t.trace = .checksumFailure :: s.trace ∨ t.trace = .duplicateSuppressed :: s.trace)
end

