-- ==== Sys2Proof/Laws/Memory.lean ====
section
/-!
SUPPORT. The laws of a buffer: what a byte reads as after a write, that every operation keeps the canonical form and
the nibble form, that canonical buffers with equal bytes are equal, and that an access inside 0..63 never faults.
-/
namespace Sys2Proof.Machine

/-! ## The canonical form -/

theorem Memory.wfFrom_cons {lo a : Nat} {x : Byte} {m : Memory} :
    Memory.wfFrom lo ((a, x) :: m) = true ↔
      lo ≤ a ∧ a < bufBytes ∧ x ≠ 0#8 ∧ Memory.wfFrom (a + 1) m = true := by
  simp [Memory.wfFrom, and_assoc]

theorem Memory.wfFrom_mono {m : Memory} : ∀ {lo hi : Nat}, lo ≤ hi → Memory.wfFrom hi m = true →
    Memory.wfFrom lo m = true := by
  cases m with
  | nil => intros; rfl
  | cons c m =>
    obtain ⟨a, x⟩ := c
    intro lo hi hle h
    rw [Memory.wfFrom_cons] at h ⊢
    exact ⟨by omega, h.2⟩

theorem Memory.wfFrom_put {m : Memory} {k : Nat} {v : Byte} (hk : k < bufBytes) :
    ∀ {lo : Nat}, lo ≤ k → Memory.wfFrom lo m = true → Memory.wfFrom lo (m.put k v) = true := by
  induction m with
  | nil =>
    intro lo hlo _
    by_cases hv : v = 0#8
    · simp [Memory.put, hv, Memory.wfFrom]
    · rw [Memory.put, if_neg hv, Memory.wfFrom_cons]
      exact ⟨hlo, hk, hv, rfl⟩
  | cons c m ih =>
    obtain ⟨a, x⟩ := c
    intro lo hlo h
    have hc := Memory.wfFrom_cons.1 h
    obtain ⟨h1, h2, h3, h4⟩ := hc
    unfold Memory.put
    split
    · rw [Memory.wfFrom_cons]
      exact ⟨h1, h2, h3, ih (by omega) h4⟩
    · split
      · split
        · exact Memory.wfFrom_mono (by omega) h4
        · rw [Memory.wfFrom_cons]
          exact ⟨hlo, hk, by assumption, by subst_vars; exact h4⟩
      · split
        · exact h
        · rw [Memory.wfFrom_cons, Memory.wfFrom_cons]
          exact ⟨hlo, hk, by assumption, by omega, h2, h3, h4⟩

/-- A write inside the buffer keeps the canonical form. -/
theorem Memory.wf_put {m : Memory} {k : Nat} {v : Byte} (hk : k < bufBytes) (h : m.wf = true) :
    (m.put k v).wf = true :=
  Memory.wfFrom_put hk (Nat.zero_le _) h

@[simp] theorem Memory.wf_nil : Memory.wf [] = true := rfl

/-! ## Reading after writing -/

@[simp] theorem Memory.byte_nil (k : Nat) : Memory.byte [] k = 0#8 := rfl

theorem Memory.byte_of_lt {m : Memory} : ∀ {lo k : Nat}, Memory.wfFrom lo m = true → k < lo → m.byte k = 0#8 := by
  induction m with
  | nil => intros; rfl
  | cons c m ih =>
    obtain ⟨a, x⟩ := c
    intro lo k h hk
    rw [Memory.wfFrom_cons] at h
    rw [Memory.byte, if_neg (by omega)]
    exact ih h.2.2.2 (by omega)

/-- A write leaves every other byte alone. -/
theorem Memory.byte_put_other {m : Memory} {k j : Nat} {v : Byte} (h : j ≠ k) : (m.put k v).byte j = m.byte j := by
  induction m with
  | nil =>
    unfold Memory.put
    split
    · rfl
    · simp [Memory.byte, Ne.symm h]
  | cons c m ih =>
    obtain ⟨a, x⟩ := c
    unfold Memory.put
    split
    · rw [Memory.byte, Memory.byte, ih]
    · split
      · subst_vars
        split
        · rw [Memory.byte, if_neg (Ne.symm h)]
        · rw [Memory.byte, Memory.byte, if_neg (Ne.symm h), if_neg (Ne.symm h)]
      · split
        · rfl
        · rw [Memory.byte, if_neg (Ne.symm h)]

theorem Memory.byte_put_same_from {m : Memory} {k : Nat} {v : Byte} :
    ∀ {lo : Nat}, Memory.wfFrom lo m = true → (m.put k v).byte k = v := by
  induction m with
  | nil =>
    intro lo _
    unfold Memory.put
    split
    · subst_vars; rfl
    · rw [Memory.byte, if_pos rfl]
  | cons c m ih =>
    obtain ⟨a, x⟩ := c
    intro lo h
    obtain ⟨h1, h2, h3, h4⟩ := Memory.wfFrom_cons.1 h
    unfold Memory.put
    split
    · rw [Memory.byte, if_neg (by omega)]
      exact ih h4
    · split
      · split
        · subst_vars
          exact Memory.byte_of_lt h4 (by omega)
        · rw [Memory.byte, if_pos rfl]
      · split
        · subst_vars
          rw [Memory.byte, if_neg (by omega)]
          exact Memory.byte_of_lt h4 (by omega)
        · rw [Memory.byte, if_pos rfl]

/-- The byte written is the byte read back. -/
theorem Memory.byte_put_same {m : Memory} {k : Nat} {v : Byte} (h : m.wf = true) : (m.put k v).byte k = v :=
  Memory.byte_put_same_from h

theorem Memory.byte_put {m : Memory} {k : Nat} {v : Byte} (h : m.wf = true) (j : Nat) :
    (m.put k v).byte j = if j = k then v else m.byte j := by
  split
  · subst_vars; exact Memory.byte_put_same h
  · exact Memory.byte_put_other (by assumption)

/-- Equal memories are equal data: two canonical buffers with the same bytes are the same list. -/
theorem Memory.eq_of_bytes : ∀ {m n : Memory} {lo : Nat}, Memory.wfFrom lo m = true → Memory.wfFrom lo n = true →
    (∀ k, m.byte k = n.byte k) → m = n := by
  intro m
  induction m with
  | nil =>
    intro n lo _ hn h
    cases n with
    | nil => rfl
    | cons c n =>
      obtain ⟨a, x⟩ := c
      have hx := (Memory.wfFrom_cons.1 hn).2.2.1
      have := h a
      rw [Memory.byte_nil, Memory.byte, if_pos rfl] at this
      exact absurd this.symm hx
  | cons c m ih =>
    obtain ⟨a, x⟩ := c
    intro n lo hm hn h
    obtain ⟨m1, m2, m3, m4⟩ := Memory.wfFrom_cons.1 hm
    cases n with
    | nil =>
      have := h a
      rw [Memory.byte_nil, Memory.byte, if_pos rfl] at this
      exact absurd this m3
    | cons d n =>
      obtain ⟨b, y⟩ := d
      obtain ⟨n1, n2, n3, n4⟩ := Memory.wfFrom_cons.1 hn
      have hab : a = b := by
        rcases Nat.lt_trichotomy a b with hlt | heq | hgt
        · have := h a
          rw [Memory.byte, if_pos rfl, Memory.byte, if_neg (by omega), Memory.byte_of_lt n4 (by omega)] at this
          exact absurd this m3
        · exact heq
        · have := h b
          rw [Memory.byte, if_neg (by omega), Memory.byte_of_lt m4 (by omega), Memory.byte, if_pos rfl] at this
          exact absurd this.symm n3
      subst hab
      have hxy : x = y := by
        have := h a
        rwa [Memory.byte, if_pos rfl, Memory.byte, if_pos rfl] at this
      subst hxy
      have : m = n := by
        refine ih m4 n4 fun k => ?_
        by_cases hk : k = a
        · subst hk
          rw [Memory.byte_of_lt m4 (by omega), Memory.byte_of_lt n4 (by omega)]
        · have := h k
          rwa [Memory.byte, if_neg (Ne.symm hk), Memory.byte, if_neg (Ne.symm hk)] at this
      rw [this]

/-! ## The nibble form -/

@[simp] theorem Memory.nibbles_nil : Memory.nibbles [] = true := rfl

theorem Memory.nibbles_cons {a : Nat} {x : Byte} {m : Memory} :
    Memory.nibbles ((a, x) :: m) = true ↔ x < 16#8 ∧ m.nibbles = true := by
  simp [Memory.nibbles]

theorem Memory.nibbles_put {m : Memory} {k : Nat} {v : Byte} (hv : v < 16#8) (h : m.nibbles = true) :
    (m.put k v).nibbles = true := by
  induction m with
  | nil =>
    unfold Memory.put
    split
    · rfl
    · rw [Memory.nibbles_cons]; exact ⟨hv, h⟩
  | cons c m ih =>
    obtain ⟨a, x⟩ := c
    obtain ⟨h1, h2⟩ := Memory.nibbles_cons.1 h
    unfold Memory.put
    split
    · rw [Memory.nibbles_cons]; exact ⟨h1, ih h2⟩
    · split
      · split
        · exact h2
        · rw [Memory.nibbles_cons]; exact ⟨hv, h2⟩
      · split
        · exact h
        · rw [Memory.nibbles_cons]; exact ⟨hv, h⟩

theorem Memory.byte_lt_of_nibbles {m : Memory} (h : m.nibbles = true) (k : Nat) : m.byte k < 16#8 := by
  induction m with
  | nil => simp
  | cons c m ih =>
    obtain ⟨a, x⟩ := c
    obtain ⟨h1, h2⟩ := Memory.nibbles_cons.1 h
    rw [Memory.byte]
    split
    · exact h1
    · exact ih h2

/-! ## The guarded accesses -/

theorem memRead_ok {m : Memory} {i : Nat} (h : i < 64) : memRead m i = .ok (m.byte i) := by
  simp [memRead, bufBytes, h]

theorem memWrite_ok {m : Memory} {i : Nat} {v : Byte} (h : i < 64) : memWrite m i v = .ok (m.put i v) := by
  simp [memWrite, bufBytes, h]

/-- A read that answers reads a byte inside the buffer. -/
theorem memRead_cases {m : Memory} {i : Nat} {x : Byte} (h : memRead m i = .ok x) : i < bufBytes ∧ x = m.byte i := by
  unfold memRead at h
  split at h
  · cases h; exact ⟨by assumption, rfl⟩
  · cases h

/-- A write that answers writes a byte inside the buffer and keeps the canonical form. -/
theorem memWrite_cases {m m' : Memory} {i : Nat} {v : Byte} (h : memWrite m i v = .ok m') :
    i < bufBytes ∧ m' = m.put i v := by
  unfold memWrite at h
  split at h
  · cases h; exact ⟨by assumption, rfl⟩
  · cases h

theorem memWrite_wf {m m' : Memory} {i : Nat} {v : Byte} (h : memWrite m i v = .ok m') (hm : m.wf = true) :
    m'.wf = true := by
  obtain ⟨hi, rfl⟩ := memWrite_cases h
  exact Memory.wf_put hi hm

/-! ## The cursor and the bit write -/

theorem nibIndex_eq (c : BitVec 8) : nibIndex c = c.toNat / 4 := by
  have := c.isLt
  rw [nibIndex, BitVec.extractLsb'_toNat, Nat.shiftRight_eq_div_pow]
  omega

theorem bitIndex_eq (c : BitVec 8) : bitIndex c = c.toNat % 4 := by
  rw [bitIndex, BitVec.extractLsb'_toNat, Nat.shiftRight_eq_div_pow]
  omega

theorem nibIndex_lt (c : BitVec 8) : nibIndex c < 64 := by
  have := c.isLt
  rw [nibIndex_eq]; omega

theorem bitIndex_lt (c : BitVec 8) : bitIndex c < 4 := by
  rw [bitIndex_eq]; omega

theorem ceil4_le (c : BitVec 8) : ceil4 c ≤ 64 := by
  have := c.isLt
  unfold ceil4; omega

/-- The bit write never faults: the cursor is 8 bits wide (R60, R147). -/
theorem writeRawBit_ok (m : Memory) (c : BitVec 8) (b : Bool) :
    writeRawBit m (nibIndex c) (bitIndex c) b =
      .ok (m.put (nibIndex c)
        (if bitIndex c = 0 then byteOfBit b else setBit (m.byte (nibIndex c)) (bitIndex c) b)) := by
  unfold writeRawBit
  split
  · rw [memWrite_ok (nibIndex_lt c)]
  · rw [memRead_ok (nibIndex_lt c)]
    exact memWrite_ok (nibIndex_lt c)

theorem byteOfBit_lt (b : Bool) : byteOfBit b < 16#8 := by cases b <;> decide

theorem setBit_lt {x : Byte} {i : Nat} {b : Bool} (hx : x < 16#8) (hi : i < 4) : setBit x i b < 16#8 := by
  have key : ∀ y : Fin 16, ∀ j : Fin 4, ∀ c : Bool, setBit (BitVec.ofNat 8 y.val) j.val c < 16#8 := by decide
  have h16 : x.toNat < 16 := by simpa [BitVec.lt_def] using hx
  have := key ⟨x.toNat, h16⟩ ⟨i, hi⟩ b
  simpa using this

end Sys2Proof.Machine
end

