-- ==== Sys2Proof/Laws/State.lean ====
section
/-!
SUPPORT. One lemma per field and per shared update of the state, each true by rfl, so that no proof unfolds a record
update.
-/
namespace Sys2Proof.Machine

@[simp] theorem beginCommand_cfg (s : State) : (beginCommand s).cfg = s.cfg := rfl
@[simp] theorem beginCommand_pending (s : State) : (beginCommand s).pending = s.pending := rfl
@[simp] theorem beginCommand_now (s : State) : (beginCommand s).now = s.now := rfl
@[simp] theorem beginCommand_st (s : State) : (beginCommand s).st = s.st := rfl
@[simp] theorem beginCommand_ver (s : State) : (beginCommand s).ver = s.ver := rfl
@[simp] theorem beginCommand_shortCnt (s : State) : (beginCommand s).shortCnt = s.shortCnt := rfl
@[simp] theorem beginCommand_longCnt (s : State) : (beginCommand s).longCnt = s.longCnt := rfl
@[simp] theorem beginCommand_pend (s : State) : (beginCommand s).pend = s.pend := rfl
@[simp] theorem beginCommand_lastBit (s : State) : (beginCommand s).lastBit = s.lastBit := rfl
@[simp] theorem beginCommand_cur (s : State) : (beginCommand s).cur = s.cur := rfl
@[simp] theorem beginCommand_dump (s : State) : (beginCommand s).dump = s.dump := rfl
@[simp] theorem beginCommand_psp (s : State) : (beginCommand s).psp = s.psp := rfl
@[simp] theorem beginCommand_armed (s : State) : (beginCommand s).armed = s.armed := rfl
@[simp] theorem beginCommand_prevCap (s : State) : (beginCommand s).prevCap = s.prevCap := rfl
@[simp] theorem beginCommand_raw (s : State) : (beginCommand s).raw = s.raw := rfl
@[simp] theorem beginCommand_dd (s : State) : (beginCommand s).dd = s.dd := rfl
@[simp] theorem beginCommand_dt (s : State) : (beginCommand s).dt = s.dt := rfl
@[simp] theorem beginCommand_out (s : State) : (beginCommand s).out = s.out := rfl
@[simp] theorem beginCommand_resp (s : State) : (beginCommand s).resp = s.resp := rfl
@[simp] theorem beginCommand_rearm (s : State) : (beginCommand s).rearm = false := rfl
@[simp] theorem beginCommand_trace (s : State) : (beginCommand s).trace = s.trace := rfl
@[simp] theorem beginCommand_draws (s : State) : (beginCommand s).draws = s.draws := rfl

@[simp] theorem respond_cfg (v : Word) (s : State) : (respond v s).cfg = s.cfg := rfl
@[simp] theorem respond_pending (v : Word) (s : State) : (respond v s).pending = s.pending := rfl
@[simp] theorem respond_now (v : Word) (s : State) : (respond v s).now = s.now := rfl
@[simp] theorem respond_st (v : Word) (s : State) : (respond v s).st = s.st := rfl
@[simp] theorem respond_ver (v : Word) (s : State) : (respond v s).ver = s.ver := rfl
@[simp] theorem respond_shortCnt (v : Word) (s : State) : (respond v s).shortCnt = s.shortCnt := rfl
@[simp] theorem respond_longCnt (v : Word) (s : State) : (respond v s).longCnt = s.longCnt := rfl
@[simp] theorem respond_pend (v : Word) (s : State) : (respond v s).pend = s.pend := rfl
@[simp] theorem respond_lastBit (v : Word) (s : State) : (respond v s).lastBit = s.lastBit := rfl
@[simp] theorem respond_cur (v : Word) (s : State) : (respond v s).cur = s.cur := rfl
@[simp] theorem respond_dump (v : Word) (s : State) : (respond v s).dump = s.dump := rfl
@[simp] theorem respond_psp (v : Word) (s : State) : (respond v s).psp = s.psp := rfl
@[simp] theorem respond_armed (v : Word) (s : State) : (respond v s).armed = s.armed := rfl
@[simp] theorem respond_prevCap (v : Word) (s : State) : (respond v s).prevCap = s.prevCap := rfl
@[simp] theorem respond_raw (v : Word) (s : State) : (respond v s).raw = s.raw := rfl
@[simp] theorem respond_dd (v : Word) (s : State) : (respond v s).dd = s.dd := rfl
@[simp] theorem respond_dt (v : Word) (s : State) : (respond v s).dt = s.dt := rfl
@[simp] theorem respond_out (v : Word) (s : State) : (respond v s).out = s.out := rfl
@[simp] theorem respond_resp (v : Word) (s : State) : (respond v s).resp = v := rfl
@[simp] theorem respond_rearm (v : Word) (s : State) : (respond v s).rearm = s.rearm := rfl
@[simp] theorem respond_trace (v : Word) (s : State) : (respond v s).trace = s.trace := rfl
@[simp] theorem respond_draws (v : Word) (s : State) : (respond v s).draws = s.draws := rfl

@[simp] theorem armTimer_cfg (s : State) : (armTimer s).cfg = s.cfg := rfl
@[simp] theorem armTimer_pending (s : State) : (armTimer s).pending = s.pending := rfl
@[simp] theorem armTimer_now (s : State) : (armTimer s).now = s.now := rfl
@[simp] theorem armTimer_st (s : State) : (armTimer s).st = s.st := rfl
@[simp] theorem armTimer_ver (s : State) : (armTimer s).ver = s.ver := rfl
@[simp] theorem armTimer_shortCnt (s : State) : (armTimer s).shortCnt = s.shortCnt := rfl
@[simp] theorem armTimer_longCnt (s : State) : (armTimer s).longCnt = s.longCnt := rfl
@[simp] theorem armTimer_pend (s : State) : (armTimer s).pend = s.pend := rfl
@[simp] theorem armTimer_lastBit (s : State) : (armTimer s).lastBit = s.lastBit := rfl
@[simp] theorem armTimer_cur (s : State) : (armTimer s).cur = s.cur := rfl
@[simp] theorem armTimer_dump (s : State) : (armTimer s).dump = s.dump := rfl
@[simp] theorem armTimer_psp (s : State) : (armTimer s).psp = s.psp := rfl
@[simp] theorem armTimer_armed (s : State) : (armTimer s).armed = true := rfl
@[simp] theorem armTimer_prevCap (s : State) : (armTimer s).prevCap = s.prevCap := rfl
@[simp] theorem armTimer_raw (s : State) : (armTimer s).raw = s.raw := rfl
@[simp] theorem armTimer_dd (s : State) : (armTimer s).dd = s.dd := rfl
@[simp] theorem armTimer_dt (s : State) : (armTimer s).dt = s.dt := rfl
@[simp] theorem armTimer_out (s : State) : (armTimer s).out = s.out := rfl
@[simp] theorem armTimer_resp (s : State) : (armTimer s).resp = s.resp := rfl
@[simp] theorem armTimer_rearm (s : State) : (armTimer s).rearm = true := rfl
@[simp] theorem armTimer_trace (s : State) : (armTimer s).trace = s.trace := rfl
@[simp] theorem armTimer_draws (s : State) : (armTimer s).draws = s.draws := rfl

@[simp] theorem clearDecoder_cfg (s : State) : (clearDecoder s).cfg = s.cfg := rfl
@[simp] theorem clearDecoder_pending (s : State) : (clearDecoder s).pending = s.pending := rfl
@[simp] theorem clearDecoder_now (s : State) : (clearDecoder s).now = s.now := rfl
@[simp] theorem clearDecoder_st (s : State) : (clearDecoder s).st = .idle := rfl
@[simp] theorem clearDecoder_ver (s : State) : (clearDecoder s).ver = 0#2 := rfl
@[simp] theorem clearDecoder_shortCnt (s : State) : (clearDecoder s).shortCnt = 0 := rfl
@[simp] theorem clearDecoder_longCnt (s : State) : (clearDecoder s).longCnt = 0 := rfl
@[simp] theorem clearDecoder_pend (s : State) : (clearDecoder s).pend = false := rfl
@[simp] theorem clearDecoder_lastBit (s : State) : (clearDecoder s).lastBit = false := rfl
@[simp] theorem clearDecoder_cur (s : State) : (clearDecoder s).cur = 0#8 := rfl
@[simp] theorem clearDecoder_dump (s : State) : (clearDecoder s).dump = false := rfl
@[simp] theorem clearDecoder_psp (s : State) : (clearDecoder s).psp = false := rfl
@[simp] theorem clearDecoder_armed (s : State) : (clearDecoder s).armed = false := rfl
@[simp] theorem clearDecoder_prevCap (s : State) : (clearDecoder s).prevCap = s.prevCap := rfl
@[simp] theorem clearDecoder_raw (s : State) : (clearDecoder s).raw = s.raw := rfl
@[simp] theorem clearDecoder_dd (s : State) : (clearDecoder s).dd = s.dd := rfl
@[simp] theorem clearDecoder_dt (s : State) : (clearDecoder s).dt = s.dt := rfl
@[simp] theorem clearDecoder_out (s : State) : (clearDecoder s).out = s.out := rfl
@[simp] theorem clearDecoder_resp (s : State) : (clearDecoder s).resp = s.resp := rfl
@[simp] theorem clearDecoder_rearm (s : State) : (clearDecoder s).rearm = s.rearm := rfl
@[simp] theorem clearDecoder_trace (s : State) : (clearDecoder s).trace = s.trace := rfl
@[simp] theorem clearDecoder_draws (s : State) : (clearDecoder s).draws = s.draws := rfl

@[simp] theorem recordCause_cfg (c : Cause) (s : State) : (recordCause c s).cfg = s.cfg := rfl
@[simp] theorem recordCause_pending (c : Cause) (s : State) : (recordCause c s).pending = s.pending := rfl
@[simp] theorem recordCause_now (c : Cause) (s : State) : (recordCause c s).now = s.now := rfl
@[simp] theorem recordCause_st (c : Cause) (s : State) : (recordCause c s).st = s.st := rfl
@[simp] theorem recordCause_ver (c : Cause) (s : State) : (recordCause c s).ver = s.ver := rfl
@[simp] theorem recordCause_shortCnt (c : Cause) (s : State) : (recordCause c s).shortCnt = s.shortCnt := rfl
@[simp] theorem recordCause_longCnt (c : Cause) (s : State) : (recordCause c s).longCnt = s.longCnt := rfl
@[simp] theorem recordCause_pend (c : Cause) (s : State) : (recordCause c s).pend = s.pend := rfl
@[simp] theorem recordCause_lastBit (c : Cause) (s : State) : (recordCause c s).lastBit = s.lastBit := rfl
@[simp] theorem recordCause_cur (c : Cause) (s : State) : (recordCause c s).cur = s.cur := rfl
@[simp] theorem recordCause_dump (c : Cause) (s : State) : (recordCause c s).dump = s.dump := rfl
@[simp] theorem recordCause_psp (c : Cause) (s : State) : (recordCause c s).psp = s.psp := rfl
@[simp] theorem recordCause_armed (c : Cause) (s : State) : (recordCause c s).armed = s.armed := rfl
@[simp] theorem recordCause_prevCap (c : Cause) (s : State) : (recordCause c s).prevCap = s.prevCap := rfl
@[simp] theorem recordCause_raw (c : Cause) (s : State) : (recordCause c s).raw = s.raw := rfl
@[simp] theorem recordCause_dd (c : Cause) (s : State) : (recordCause c s).dd = s.dd := rfl
@[simp] theorem recordCause_dt (c : Cause) (s : State) : (recordCause c s).dt = s.dt := rfl
@[simp] theorem recordCause_out (c : Cause) (s : State) : (recordCause c s).out = s.out := rfl
@[simp] theorem recordCause_resp (c : Cause) (s : State) : (recordCause c s).resp = s.resp := rfl
@[simp] theorem recordCause_rearm (c : Cause) (s : State) : (recordCause c s).rearm = s.rearm := rfl
@[simp] theorem recordCause_trace (c : Cause) (s : State) : (recordCause c s).trace = c :: s.trace := rfl
@[simp] theorem recordCause_draws (c : Cause) (s : State) : (recordCause c s).draws = s.draws := rfl

@[simp] theorem fullReset_cfg (c : Cause) (s : State) : (fullReset c s).cfg = s.cfg := rfl
@[simp] theorem fullReset_pending (c : Cause) (s : State) : (fullReset c s).pending = s.pending := rfl
@[simp] theorem fullReset_now (c : Cause) (s : State) : (fullReset c s).now = s.now := rfl
@[simp] theorem fullReset_st (c : Cause) (s : State) : (fullReset c s).st = .idle := rfl
@[simp] theorem fullReset_ver (c : Cause) (s : State) : (fullReset c s).ver = 0#2 := rfl
@[simp] theorem fullReset_shortCnt (c : Cause) (s : State) : (fullReset c s).shortCnt = 0 := rfl
@[simp] theorem fullReset_longCnt (c : Cause) (s : State) : (fullReset c s).longCnt = 0 := rfl
@[simp] theorem fullReset_pend (c : Cause) (s : State) : (fullReset c s).pend = false := rfl
@[simp] theorem fullReset_lastBit (c : Cause) (s : State) : (fullReset c s).lastBit = false := rfl
@[simp] theorem fullReset_cur (c : Cause) (s : State) : (fullReset c s).cur = 0#8 := rfl
@[simp] theorem fullReset_dump (c : Cause) (s : State) : (fullReset c s).dump = false := rfl
@[simp] theorem fullReset_psp (c : Cause) (s : State) : (fullReset c s).psp = false := rfl
@[simp] theorem fullReset_armed (c : Cause) (s : State) : (fullReset c s).armed = false := rfl
@[simp] theorem fullReset_prevCap (c : Cause) (s : State) : (fullReset c s).prevCap = s.prevCap := rfl
@[simp] theorem fullReset_raw (c : Cause) (s : State) : (fullReset c s).raw = s.raw := rfl
@[simp] theorem fullReset_dd (c : Cause) (s : State) : (fullReset c s).dd = s.dd := rfl
@[simp] theorem fullReset_dt (c : Cause) (s : State) : (fullReset c s).dt = s.dt := rfl
@[simp] theorem fullReset_out (c : Cause) (s : State) : (fullReset c s).out = s.out := rfl
@[simp] theorem fullReset_resp (c : Cause) (s : State) : (fullReset c s).resp = s.resp := rfl
@[simp] theorem fullReset_rearm (c : Cause) (s : State) : (fullReset c s).rearm = s.rearm := rfl
@[simp] theorem fullReset_trace (c : Cause) (s : State) : (fullReset c s).trace = c :: s.trace := rfl
@[simp] theorem fullReset_draws (c : Cause) (s : State) : (fullReset c s).draws = s.draws := rfl

@[simp] theorem reArm_cfg (s : State) : (reArm s).cfg = s.cfg := rfl
@[simp] theorem reArm_pending (s : State) : (reArm s).pending = s.pending := rfl
@[simp] theorem reArm_now (s : State) : (reArm s).now = s.now := rfl
@[simp] theorem reArm_st (s : State) : (reArm s).st = .idle := rfl
@[simp] theorem reArm_ver (s : State) : (reArm s).ver = 0#2 := rfl
@[simp] theorem reArm_shortCnt (s : State) : (reArm s).shortCnt = 0 := rfl
@[simp] theorem reArm_longCnt (s : State) : (reArm s).longCnt = 0 := rfl
@[simp] theorem reArm_pend (s : State) : (reArm s).pend = false := rfl
@[simp] theorem reArm_lastBit (s : State) : (reArm s).lastBit = false := rfl
@[simp] theorem reArm_cur (s : State) : (reArm s).cur = 0#8 := rfl
@[simp] theorem reArm_dump (s : State) : (reArm s).dump = false := rfl
@[simp] theorem reArm_psp (s : State) : (reArm s).psp = false := rfl
@[simp] theorem reArm_armed (s : State) : (reArm s).armed = false := rfl
@[simp] theorem reArm_prevCap (s : State) : (reArm s).prevCap = s.prevCap := rfl
@[simp] theorem reArm_raw (s : State) : (reArm s).raw = s.raw := rfl
@[simp] theorem reArm_dd (s : State) : (reArm s).dd = s.dd := rfl
@[simp] theorem reArm_dt (s : State) : (reArm s).dt = s.dt := rfl
@[simp] theorem reArm_out (s : State) : (reArm s).out = s.out := rfl
@[simp] theorem reArm_resp (s : State) : (reArm s).resp = s.resp := rfl
@[simp] theorem reArm_rearm (s : State) : (reArm s).rearm = s.rearm := rfl
@[simp] theorem reArm_trace (s : State) : (reArm s).trace = s.trace := rfl
@[simp] theorem reArm_draws (s : State) : (reArm s).draws = s.draws := rfl

@[simp] theorem acceptCommand_cfg (c : CommandIn) (rest : List CommandIn) (s : State) : (acceptCommand c rest s).cfg = s.cfg := rfl
@[simp] theorem acceptCommand_pending (c : CommandIn) (rest : List CommandIn) (s : State) : (acceptCommand c rest s).pending = rest := rfl
@[simp] theorem acceptCommand_now (c : CommandIn) (rest : List CommandIn) (s : State) : (acceptCommand c rest s).now = c.now := rfl
@[simp] theorem acceptCommand_st (c : CommandIn) (rest : List CommandIn) (s : State) : (acceptCommand c rest s).st = s.st := rfl
@[simp] theorem acceptCommand_ver (c : CommandIn) (rest : List CommandIn) (s : State) : (acceptCommand c rest s).ver = s.ver := rfl
@[simp] theorem acceptCommand_shortCnt (c : CommandIn) (rest : List CommandIn) (s : State) : (acceptCommand c rest s).shortCnt = s.shortCnt := rfl
@[simp] theorem acceptCommand_longCnt (c : CommandIn) (rest : List CommandIn) (s : State) : (acceptCommand c rest s).longCnt = s.longCnt := rfl
@[simp] theorem acceptCommand_pend (c : CommandIn) (rest : List CommandIn) (s : State) : (acceptCommand c rest s).pend = s.pend := rfl
@[simp] theorem acceptCommand_lastBit (c : CommandIn) (rest : List CommandIn) (s : State) : (acceptCommand c rest s).lastBit = s.lastBit := rfl
@[simp] theorem acceptCommand_cur (c : CommandIn) (rest : List CommandIn) (s : State) : (acceptCommand c rest s).cur = s.cur := rfl
@[simp] theorem acceptCommand_dump (c : CommandIn) (rest : List CommandIn) (s : State) : (acceptCommand c rest s).dump = s.dump := rfl
@[simp] theorem acceptCommand_psp (c : CommandIn) (rest : List CommandIn) (s : State) : (acceptCommand c rest s).psp = s.psp := rfl
@[simp] theorem acceptCommand_armed (c : CommandIn) (rest : List CommandIn) (s : State) : (acceptCommand c rest s).armed = s.armed := rfl
@[simp] theorem acceptCommand_prevCap (c : CommandIn) (rest : List CommandIn) (s : State) : (acceptCommand c rest s).prevCap = s.prevCap := rfl
@[simp] theorem acceptCommand_raw (c : CommandIn) (rest : List CommandIn) (s : State) : (acceptCommand c rest s).raw = s.raw := rfl
@[simp] theorem acceptCommand_dd (c : CommandIn) (rest : List CommandIn) (s : State) : (acceptCommand c rest s).dd = s.dd := rfl
@[simp] theorem acceptCommand_dt (c : CommandIn) (rest : List CommandIn) (s : State) : (acceptCommand c rest s).dt = s.dt := rfl
@[simp] theorem acceptCommand_out (c : CommandIn) (rest : List CommandIn) (s : State) : (acceptCommand c rest s).out = s.out := rfl
@[simp] theorem acceptCommand_resp (c : CommandIn) (rest : List CommandIn) (s : State) : (acceptCommand c rest s).resp = s.resp := rfl
@[simp] theorem acceptCommand_rearm (c : CommandIn) (rest : List CommandIn) (s : State) : (acceptCommand c rest s).rearm = s.rearm := rfl
@[simp] theorem acceptCommand_trace (c : CommandIn) (rest : List CommandIn) (s : State) : (acceptCommand c rest s).trace = s.trace := rfl
@[simp] theorem acceptCommand_draws (c : CommandIn) (rest : List CommandIn) (s : State) : (acceptCommand c rest s).draws = s.draws := rfl

@[simp] theorem waitForCommand_cfg (s : State) : (waitForCommand s).cfg = s.cfg := rfl
@[simp] theorem waitForCommand_pending (s : State) : (waitForCommand s).pending = s.pending := rfl
@[simp] theorem waitForCommand_now (s : State) : (waitForCommand s).now = s.now := rfl
@[simp] theorem waitForCommand_st (s : State) : (waitForCommand s).st = s.st := rfl
@[simp] theorem waitForCommand_ver (s : State) : (waitForCommand s).ver = s.ver := rfl
@[simp] theorem waitForCommand_shortCnt (s : State) : (waitForCommand s).shortCnt = s.shortCnt := rfl
@[simp] theorem waitForCommand_longCnt (s : State) : (waitForCommand s).longCnt = s.longCnt := rfl
@[simp] theorem waitForCommand_pend (s : State) : (waitForCommand s).pend = s.pend := rfl
@[simp] theorem waitForCommand_lastBit (s : State) : (waitForCommand s).lastBit = s.lastBit := rfl
@[simp] theorem waitForCommand_cur (s : State) : (waitForCommand s).cur = s.cur := rfl
@[simp] theorem waitForCommand_dump (s : State) : (waitForCommand s).dump = s.dump := rfl
@[simp] theorem waitForCommand_psp (s : State) : (waitForCommand s).psp = s.psp := rfl
@[simp] theorem waitForCommand_armed (s : State) : (waitForCommand s).armed = s.armed := rfl
@[simp] theorem waitForCommand_prevCap (s : State) : (waitForCommand s).prevCap = s.prevCap := rfl
@[simp] theorem waitForCommand_raw (s : State) : (waitForCommand s).raw = s.raw := rfl
@[simp] theorem waitForCommand_dd (s : State) : (waitForCommand s).dd = s.dd := rfl
@[simp] theorem waitForCommand_dt (s : State) : (waitForCommand s).dt = s.dt := rfl
@[simp] theorem waitForCommand_out (s : State) : (waitForCommand s).out = s.out := rfl
@[simp] theorem waitForCommand_resp (s : State) : (waitForCommand s).resp = s.resp := rfl
@[simp] theorem waitForCommand_rearm (s : State) : (waitForCommand s).rearm = false := rfl
@[simp] theorem waitForCommand_trace (s : State) : (waitForCommand s).trace = s.trace := rfl
@[simp] theorem waitForCommand_draws (s : State) : (waitForCommand s).draws = s.draws := rfl

@[simp] theorem offerWord_cfg (w : Word) (s : State) : (offerWord w s).cfg = s.cfg := rfl
@[simp] theorem offerWord_pending (w : Word) (s : State) : (offerWord w s).pending = { cmd := w, now := s.now } :: s.pending := rfl
@[simp] theorem offerWord_now (w : Word) (s : State) : (offerWord w s).now = s.now := rfl
@[simp] theorem offerWord_st (w : Word) (s : State) : (offerWord w s).st = s.st := rfl
@[simp] theorem offerWord_ver (w : Word) (s : State) : (offerWord w s).ver = s.ver := rfl
@[simp] theorem offerWord_shortCnt (w : Word) (s : State) : (offerWord w s).shortCnt = s.shortCnt := rfl
@[simp] theorem offerWord_longCnt (w : Word) (s : State) : (offerWord w s).longCnt = s.longCnt := rfl
@[simp] theorem offerWord_pend (w : Word) (s : State) : (offerWord w s).pend = s.pend := rfl
@[simp] theorem offerWord_lastBit (w : Word) (s : State) : (offerWord w s).lastBit = s.lastBit := rfl
@[simp] theorem offerWord_cur (w : Word) (s : State) : (offerWord w s).cur = s.cur := rfl
@[simp] theorem offerWord_dump (w : Word) (s : State) : (offerWord w s).dump = s.dump := rfl
@[simp] theorem offerWord_psp (w : Word) (s : State) : (offerWord w s).psp = s.psp := rfl
@[simp] theorem offerWord_armed (w : Word) (s : State) : (offerWord w s).armed = s.armed := rfl
@[simp] theorem offerWord_prevCap (w : Word) (s : State) : (offerWord w s).prevCap = s.prevCap := rfl
@[simp] theorem offerWord_raw (w : Word) (s : State) : (offerWord w s).raw = s.raw := rfl
@[simp] theorem offerWord_dd (w : Word) (s : State) : (offerWord w s).dd = s.dd := rfl
@[simp] theorem offerWord_dt (w : Word) (s : State) : (offerWord w s).dt = s.dt := rfl
@[simp] theorem offerWord_out (w : Word) (s : State) : (offerWord w s).out = s.out := rfl
@[simp] theorem offerWord_resp (w : Word) (s : State) : (offerWord w s).resp = s.resp := rfl
@[simp] theorem offerWord_rearm (w : Word) (s : State) : (offerWord w s).rearm = s.rearm := rfl
@[simp] theorem offerWord_trace (w : Word) (s : State) : (offerWord w s).trace = s.trace := rfl
@[simp] theorem offerWord_draws (w : Word) (s : State) : (offerWord w s).draws = s.draws := rfl

@[simp] theorem afterSnapshot_cfg (s : State) : (afterSnapshot s).cfg = s.cfg := rfl
@[simp] theorem afterSnapshot_pending (s : State) : (afterSnapshot s).pending = s.pending := rfl
@[simp] theorem afterSnapshot_now (s : State) : (afterSnapshot s).now = s.now := rfl
@[simp] theorem afterSnapshot_st (s : State) : (afterSnapshot s).st = .idle := rfl
@[simp] theorem afterSnapshot_ver (s : State) : (afterSnapshot s).ver = 0#2 := rfl
@[simp] theorem afterSnapshot_shortCnt (s : State) : (afterSnapshot s).shortCnt = 0 := rfl
@[simp] theorem afterSnapshot_longCnt (s : State) : (afterSnapshot s).longCnt = 0 := rfl
@[simp] theorem afterSnapshot_pend (s : State) : (afterSnapshot s).pend = false := rfl
@[simp] theorem afterSnapshot_lastBit (s : State) : (afterSnapshot s).lastBit = false := rfl
@[simp] theorem afterSnapshot_cur (s : State) : (afterSnapshot s).cur = 0#8 := rfl
@[simp] theorem afterSnapshot_dump (s : State) : (afterSnapshot s).dump = false := rfl
@[simp] theorem afterSnapshot_psp (s : State) : (afterSnapshot s).psp = false := rfl
@[simp] theorem afterSnapshot_armed (s : State) : (afterSnapshot s).armed = false := rfl
@[simp] theorem afterSnapshot_prevCap (s : State) : (afterSnapshot s).prevCap = s.prevCap := rfl
@[simp] theorem afterSnapshot_raw (s : State) : (afterSnapshot s).raw = s.raw := rfl
@[simp] theorem afterSnapshot_dd (s : State) : (afterSnapshot s).dd = s.dd := rfl
@[simp] theorem afterSnapshot_dt (s : State) : (afterSnapshot s).dt = s.dt := rfl
@[simp] theorem afterSnapshot_out (s : State) : (afterSnapshot s).out = s.out := rfl
@[simp] theorem afterSnapshot_resp (s : State) : (afterSnapshot s).resp = s.resp := rfl
@[simp] theorem afterSnapshot_rearm (s : State) : (afterSnapshot s).rearm = s.rearm := rfl
@[simp] theorem afterSnapshot_trace (s : State) : (afterSnapshot s).trace = s.trace := rfl
@[simp] theorem afterSnapshot_draws (s : State) : (afterSnapshot s).draws = s.draws + bufBytes := rfl

end Sys2Proof.Machine
end

