-- ==== Sys2Proof/Laws/Pulse.lean ====
section
/-!
SUPPORT. What each operation of the pulse path can do, said once: the bit write, the decoded bit, the two commits, the
receiving steps and the pulse as a whole.
-/
namespace Sys2Proof.Machine

@[simp] theorem Progress.andThen_run (s : State) (k : State → Progress) : (Progress.run s).andThen k = k s := rfl
@[simp] theorem Progress.andThen_raised (s : State) (k : State → Progress) : (Progress.raised s).andThen k = .raised s := rfl
@[simp] theorem Progress.andThen_fault (f : Fault) (k : State → Progress) : (Progress.fault f).andThen k = .fault f := rfl
@[simp] theorem Progress.outcome_run (s : State) : (Progress.run s).outcome = .next s := rfl
@[simp] theorem Progress.outcome_raised (s : State) : (Progress.raised s).outcome = .next s := rfl
@[simp] theorem Progress.outcome_fault (f : Fault) : (Progress.fault f).outcome = .fault f := rfl

/-- With the source's constants the guard is the test of R62: cur = 255. -/
theorem rawBits_source_le_iff (cur : BitVec 8) : rawBits Constants.source ≤ cur.toNat + 1 ↔ cur = 255#8 := by
  have h := cur.isLt
  rw [← BitVec.toNat_inj, show rawBits Constants.source = 256 from rfl, show (255#8).toNat = 255 from rfl]
  omega

theorem rawBits_le (k : Constants) : rawBits k ≤ 256 := Nat.min_le_right _ _

/-- The bit write in closed form: it never faults (R62, R147). -/
theorem writeBit_eq (b : Bool) (s : State) :
    writeBit b s =
      if rawBits s.cfg.consts ≤ s.cur.toNat + 1 then raiseReset .bufferOverflow { s with raw := rawAfterBit b s }
      else .run { s with raw := rawAfterBit b s, cur := s.cur + 1#8 } := by
  unfold writeBit
  rw [writeRawBit_ok]
  rfl

/-- The bit write at a cursor below 255. -/
theorem writeBit_run {b : Bool} {s : State} (h : s.cur.toNat + 1 < rawBits s.cfg.consts) :
    writeBit b s = .run { s with raw := rawAfterBit b s, cur := s.cur + 1#8 } := by
  rw [writeBit_eq, if_neg (Nat.not_le.2 h)]

/-- The bit write at the cursor 255: the bit lands, then the full reset (R147). -/
theorem writeBit_raised {b : Bool} {s : State} (h : rawBits s.cfg.consts ≤ s.cur.toNat + 1) :
    writeBit b s = raiseReset .bufferOverflow { s with raw := rawAfterBit b s } := by
  rw [writeBit_eq, if_pos h]

/-- A decoded bit in RXV2 while dump = 1 is dumped (R145). -/
theorem emitBit_dumped {m : Bool} {s : State} (h : s.st = .rxv2) (hd : s.dump = true) :
    emitBit m s = .run { s with lastBit := m, dump := false } := by
  simp [emitBit, h, hd]

/-- A decoded bit in RXV2 while dump = 0 is written (R145). -/
theorem emitBit_written {m : Bool} {s : State} (h : s.st = .rxv2) (hd : s.dump = false) :
    emitBit m s = writeBit m { s with lastBit := m, dump := true } := by
  simp [emitBit, h, hd]

/-- A decoded bit in another state is written (R141). -/
theorem emitBit_other {m : Bool} {s : State} (h : s.st ≠ .rxv2) :
    emitBit m s = writeBit m { s with lastBit := m } := by
  simp [emitBit, h]

/-- CommitV3 in closed form (R126): its bit is written, and only a capacity of one bit or none overflows. -/
theorem commitV3_eq (s : State) :
    commitV3 s =
      if rawBits s.cfg.consts ≤ 1 then .raised (fullReset .bufferOverflow { s with raw := s.raw.put 0 0#8 })
      else .run (armTimer
        { s with
          st := .rxv3, ver := 3#2, lastBit := false, pend := false, dump := false, psp := false, cur := 1#8,
          raw := s.raw.put 0 0#8 }) := by
  unfold commitV3
  by_cases h : rawBits s.cfg.consts ≤ 1
  · rw [if_pos h, writeBit_raised h]
    simp [rawAfterBit, nibIndex_eq, bitIndex_eq, byteOfBit, raiseReset, fullReset, clearDecoder, recordCause]
  · rw [if_neg h, writeBit_run (Nat.not_le.1 h)]
    simp [rawAfterBit, nibIndex_eq, bitIndex_eq, byteOfBit]

/-- EDGE and CAPTURE by the state they start in (R100). -/
theorem pulse_idle {c : PulseClass} {s : State} (h : s.st = .idle) : pulse c s = syncStep c s := by
  simp [pulse, h]

theorem pulse_receiving {c : PulseClass} {s : State} (h : s.st.receiving = true) : pulse c s = decodeStep c s := by
  unfold pulse
  cases hs : s.st <;> simp_all [ProtocolState.receiving]

theorem pulse_ready {c : PulseClass} {s : State} (h : s.st = .ready) : pulse c s = .run s := by
  simp [pulse, h]

/-- A receiving state is RXV3 or RXV2. -/
theorem receiving_iff (st : ProtocolState) : st.receiving = true ↔ st = .rxv3 ∨ st = .rxv2 := by
  cases st <;> simp [ProtocolState.receiving]

/-! ## Everything a pulse can do -/

/-- The pulse inversion: every way a pulse of class `c` can leave the state `s`, one constructor a case (R100, R105,
R121 to R126, R142 to R147). -/
inductive PulseCase (c : PulseClass) (s : State) : Progress → Prop where
  | discarded : s.st = .ready →
      PulseCase c s (.run s)
  | commit2 : s.st = .idle → c = .short → s.shortCnt ≤ 1 → s.cfg.consts.v2Pre < s.longCnt →
      PulseCase c s (.run (armTimer
        { s with st := .rxv2, ver := 2#2, lastBit := true, pend := true, dump := true, psp := false, cur := 0#8 }))
  | countShort : s.st = .idle → c = .short → ¬(s.shortCnt ≤ 1 ∧ s.cfg.consts.v2Pre < s.longCnt) → s.longCnt = 0 →
      PulseCase c s (.run { s with shortCnt := countUp s.cfg s.shortCnt })
  | resetShort : s.st = .idle → c = .short → ¬(s.shortCnt ≤ 1 ∧ s.cfg.consts.v2Pre < s.longCnt) → s.longCnt ≠ 0 →
      PulseCase c s (.raised (fullReset .syncFailure s))
  | commit3Overflow : s.st = .idle → c = .long → s.cfg.consts.v3Pre < s.shortCnt → rawBits s.cfg.consts ≤ 1 →
      PulseCase c s (.raised (fullReset .bufferOverflow { s with raw := s.raw.put 0 0#8 }))
  | commit3 : s.st = .idle → c = .long → s.cfg.consts.v3Pre < s.shortCnt → 1 < rawBits s.cfg.consts →
      PulseCase c s (.run (armTimer
        { s with
          st := .rxv3, ver := 3#2, lastBit := false, pend := false, dump := false, psp := false, cur := 1#8,
          raw := s.raw.put 0 0#8 }))
  | countLong : s.st = .idle → c = .long → ¬ s.cfg.consts.v3Pre < s.shortCnt → s.shortCnt ≤ 1 →
      PulseCase c s (.run { s with longCnt := countUp s.cfg s.longCnt })
  | resetLong : s.st = .idle → c = .long → ¬ s.cfg.consts.v3Pre < s.shortCnt → ¬ s.shortCnt ≤ 1 →
      PulseCase c s (.raised (fullReset .syncFailure s))
  | resetNoise : s.st = .idle → c = .noise →
      PulseCase c s (.raised (fullReset .syncFailure s))
  | keep : s.st.receiving = true → c = .short → s.pend = false →
      PulseCase c s (.run (armTimer { s with pend := true }))
  | violation : s.st.receiving = true → c = .short → s.pend = true → s.st = .rxv2 → s.psp = true →
      PulseCase c s (.raised (fullReset .structuralViolation s))
  | shortDumped : s.st.receiving = true → c = .short → s.pend = true → s.st = .rxv2 → s.psp = false → s.dump = true →
      PulseCase c s (.run (armTimer { s with pend := false, psp := true, dump := false }))
  | shortWritten2 : s.st.receiving = true → c = .short → s.pend = true → s.st = .rxv2 → s.psp = false →
      s.dump = false → s.cur.toNat + 1 < rawBits s.cfg.consts →
      PulseCase c s (.run (armTimer
        { s with pend := false, psp := true, dump := true, raw := rawAfterBit s.lastBit s, cur := s.cur + 1#8 }))
  | shortWritten3 : s.st.receiving = true → c = .short → s.pend = true → s.st = .rxv3 → s.cur.toNat + 1 < rawBits s.cfg.consts →
      PulseCase c s (.run (armTimer { s with pend := false, raw := rawAfterBit s.lastBit s, cur := s.cur + 1#8 }))
  | shortOverflow : s.st.receiving = true → c = .short → s.pend = true →
      (s.st = .rxv2 → s.psp = false ∧ s.dump = false) → rawBits s.cfg.consts ≤ s.cur.toNat + 1 →
      PulseCase c s (.raised (fullReset .bufferOverflow { s with raw := rawAfterBit s.lastBit s }))
  | unpaired : s.st.receiving = true → c = .long → s.pend = true →
      PulseCase c s (.raised (fullReset .structuralViolation s))
  | longDumped : s.st.receiving = true → c = .long → s.pend = false → s.st = .rxv2 → s.dump = true →
      PulseCase c s (.run (armTimer { s with psp := false, lastBit := !s.lastBit, dump := false }))
  | longWritten2 : s.st.receiving = true → c = .long → s.pend = false → s.st = .rxv2 → s.dump = false →
      s.cur.toNat + 1 < rawBits s.cfg.consts →
      PulseCase c s (.run (armTimer
        { s with
          psp := false, lastBit := !s.lastBit, dump := true, raw := rawAfterBit (!s.lastBit) s,
          cur := s.cur + 1#8 }))
  | longWritten3 : s.st.receiving = true → c = .long → s.pend = false → s.st = .rxv3 → s.cur.toNat + 1 < rawBits s.cfg.consts →
      PulseCase c s (.run (armTimer
        { s with lastBit := !s.lastBit, raw := rawAfterBit (!s.lastBit) s, cur := s.cur + 1#8 }))
  | longOverflow : s.st.receiving = true → c = .long → s.pend = false → (s.st = .rxv2 → s.dump = false) →
      rawBits s.cfg.consts ≤ s.cur.toNat + 1 →
      PulseCase c s (.raised (fullReset .bufferOverflow { s with raw := rawAfterBit (!s.lastBit) s }))
  | ends : s.st.receiving = true → c = .noise → s.cfg.consts.minBitsNoise ≤ s.cur.toNat →
      PulseCase c s (.run { s with st := .ready, armed := false })
  | tooShort : s.st.receiving = true → c = .noise → ¬ s.cfg.consts.minBitsNoise ≤ s.cur.toNat →
      PulseCase c s (.raised (fullReset .syncFailure s))

/-- The cases of SyncStep (R121 to R126). -/
theorem syncStep_case {s : State} (c : PulseClass) (hi : s.st = .idle) : PulseCase c s (syncStep c s) := by
  cases c with
  | short =>
    simp only [syncStep, idleShort, commitV2, raiseReset]
    split
    · rename_i h; exact .commit2 hi rfl h.1 h.2
    · split
      · exact .countShort hi rfl (by assumption) (by assumption)
      · exact .resetShort hi rfl (by assumption) (by assumption)
  | long =>
    simp only [syncStep, idleLong, commitV3_eq, raiseReset]
    split
    · split
      · exact .commit3Overflow hi rfl (by assumption) (by assumption)
      · exact .commit3 hi rfl (by assumption) (Nat.not_le.1 (by assumption))
    · split
      · exact .countLong hi rfl (by assumption) (by assumption)
      · exact .resetLong hi rfl (by assumption) (by assumption)
  | noise => exact .resetNoise hi rfl

/-- The cases of a decoded bit `m` on the way to ArmTimer (R141, R145, R147). -/
theorem emitBit_elim {P : Progress → Prop} (m : Bool) (s : State)
    (dumped : s.st = .rxv2 → s.dump = true → P (.run (armTimer { s with lastBit := m, dump := false })))
    (written : s.st = .rxv2 → s.dump = false → s.cur.toNat + 1 < rawBits s.cfg.consts → P (.run (armTimer
      { s with lastBit := m, dump := true, raw := rawAfterBit m s, cur := s.cur + 1#8 })))
    (written3 : s.st ≠ .rxv2 → s.cur.toNat + 1 < rawBits s.cfg.consts → P (.run (armTimer
      { s with lastBit := m, raw := rawAfterBit m s, cur := s.cur + 1#8 })))
    (overflow : (s.st = .rxv2 → s.dump = false) → rawBits s.cfg.consts ≤ s.cur.toNat + 1 →
      P (.raised (fullReset .bufferOverflow { s with raw := rawAfterBit m s }))) :
    P ((emitBit m s).andThen fun s => .run (armTimer s)) := by
  by_cases hs : s.st = .rxv2
  · cases hd : s.dump with
    | true => rw [emitBit_dumped hs hd]; exact dumped hs hd
    | false =>
      rw [emitBit_written hs hd, writeBit_eq]
      by_cases hc : rawBits s.cfg.consts ≤ s.cur.toNat + 1
      · rw [if_pos hc]; exact overflow (fun _ => hd) hc
      · rw [if_neg hc]; exact written hs hd (Nat.not_le.1 hc)
  · rw [emitBit_other hs, writeBit_eq]
    by_cases hc : rawBits s.cfg.consts ≤ s.cur.toNat + 1
    · rw [if_pos hc]; exact overflow (fun h => absurd h hs) hc
    · rw [if_neg hc]; exact written3 hs (Nat.not_le.1 hc)

/-- The cases of DecodeStep (R142 to R147). -/
theorem decodeStep_case {s : State} (c : PulseClass) (hr : s.st.receiving = true) :
    PulseCase c s (decodeStep c s) := by
  cases c with
  | short =>
    simp only [decodeStep, rxShort]
    cases hp : s.pend with
    | false => simpa using PulseCase.keep hr rfl hp
    | true =>
      by_cases hs : s.st = .rxv2
      · cases hq : s.psp with
        | true =>
          simpa [hs, hq, raiseReset, fullReset, clearDecoder, recordCause] using
            PulseCase.violation (c := .short) hr rfl hp hs hq
        | false =>
          rw [if_pos rfl, if_pos hs, if_neg (by simp)]
          refine emitBit_elim (P := PulseCase _ s) _ _ (fun _ hd => ?_) (fun _ hd hc => ?_)
            (fun h _ => absurd hs h) fun hd hc => ?_
          · exact PulseCase.shortDumped hr rfl hp hs hq hd
          · exact PulseCase.shortWritten2 hr rfl hp hs hq hd hc
          · exact PulseCase.shortOverflow hr rfl hp (fun h => ⟨hq, hd h⟩) hc
      · rw [if_pos rfl, if_neg hs]
        refine emitBit_elim (P := PulseCase _ s) _ _ (fun h _ => absurd h hs) (fun h _ _ => absurd h hs)
          (fun _ hc => ?_) fun _ hc => ?_
        · exact PulseCase.shortWritten3 hr rfl hp (((receiving_iff _).1 hr).resolve_right hs) hc
        · exact PulseCase.shortOverflow hr rfl hp (fun h => absurd h hs) hc
  | long =>
    simp only [decodeStep, rxLong]
    by_cases hp : s.pend = true
    · rw [if_pos hp]; exact PulseCase.unpaired hr rfl hp
    · rw [if_neg hp]
      replace hp := Bool.eq_false_iff.2 hp
      by_cases hs : s.st = .rxv2
      · rw [if_pos hs]
        refine emitBit_elim (P := PulseCase _ s) _ _ (fun _ hd => ?_) (fun _ hd hc => ?_)
            (fun h _ => absurd hs h) fun hd hc => ?_
        · exact PulseCase.longDumped hr rfl hp hs hd
        · exact PulseCase.longWritten2 hr rfl hp hs hd hc
        · exact PulseCase.longOverflow hr rfl hp hd hc
      · rw [if_neg hs]
        refine emitBit_elim (P := PulseCase _ s) _ _ (fun h _ => absurd h hs) (fun h _ _ => absurd h hs)
          (fun _ hc => ?_) fun _ hc => ?_
        · exact PulseCase.longWritten3 hr rfl hp (((receiving_iff _).1 hr).resolve_right hs) hc
        · exact PulseCase.longOverflow hr rfl hp (fun h => absurd h hs) hc
  | noise =>
    simp only [decodeStep, rxNoise]
    split
    · exact PulseCase.ends hr rfl (by assumption)
    · exact PulseCase.tooShort hr rfl (by assumption)

/-- Every pulse is one of the cases. -/
theorem pulse_case (c : PulseClass) (s : State) : PulseCase c s (pulse c s) := by
  unfold pulse
  cases hs : s.st with
  | idle => exact syncStep_case c hs
  | ready => exact .discarded hs
  | rxv3 => exact decodeStep_case c ((receiving_iff _).2 (.inl hs))
  | rxv2 => exact decodeStep_case c ((receiving_iff _).2 (.inr hs))

/-- A pulse never faults, and keeps RESP and prevCap (R100, R245). -/
theorem pulse_completes (c : PulseClass) (s : State) :
    ∃ t, (pulse c s).outcome = .next t ∧ t.resp = s.resp ∧ t.prevCap = s.prevCap := by
  have h := pulse_case c s
  generalize pulse c s = x at h
  cases h <;> exact ⟨_, rfl, rfl, rfl⟩

end Sys2Proof.Machine
end

