-- ==== Sys2Proof/Laws/Word.lean ====
section
/-!
SUPPORT. Words as numbers: a concatenation and a field as arithmetic on naturals, so that a statement about fields is
linear arithmetic.
-/
namespace Sys2Proof

/-- A concatenation as a number. -/
theorem Word.toNat_cat {a b : Nat} (x : BitVec a) (y : BitVec b) : (x ++ y).toNat = x.toNat * 2 ^ b + y.toNat := by
  rw [BitVec.toNat_append, ← Nat.shiftLeft_add_eq_or_of_lt y.isLt, Nat.shiftLeft_eq]

/-- A field as a number. -/
theorem Word.toNat_field {n : Nat} (x : BitVec n) (start len : Nat) :
    (x.extractLsb' start len).toNat = x.toNat / 2 ^ start % 2 ^ len := by
  rw [BitVec.extractLsb'_toNat, Nat.shiftRight_eq_div_pow]

/-- A command with a reserved field decodes iff the field is zero (R88). -/
theorem ifZero_eq_ok {n : Nat} {r : BitVec n} {i j : Instr} : ifZero r i = .ok j ↔ r.toNat = 0 ∧ i = j := by
  unfold ifZero
  split
  · simp_all
  · rename_i h
    constructor
    · intro he; cases he
    · intro h2; exact absurd (BitVec.eq_of_toNat_eq (by simpa using h2.1)) h

/-- The phase bit is read back (R83, R89). -/
theorem bitOfPhase_phaseOfBit : ∀ b : BitVec 1, bitOfPhase (phaseOfBit b) = b := by decide

theorem phaseOfBit_bitOfPhase (ph : Phase) : phaseOfBit (bitOfPhase ph) = ph := by cases ph <;> rfl

end Sys2Proof
end

