-- ==== Sys2Proof/Laws/Reader.lean ====
section
/-!
SUPPORT. What each step of the Packet Reader can do, said once: the snapshot, the sum and the checksum, the recovery, the
duplicate scan, the splice, the comparison and the copy. Each has a law for indices inside 0..63 (it answers, with this
result) and, where a caller needs it, a law for any answer.
-/
namespace Sys2Proof.Machine

@[simp] theorem Except.bind_ok {α β : Type} (x : α) (k : α → Except Fault β) : (Except.ok x >>= k) = k x := rfl
@[simp] theorem Except.bind_error {α β : Type} (f : Fault) (k : α → Except Fault β) :
    ((Except.error f : Except Fault α) >>= k) = .error f := rfl

/-- A sequence that answers: both parts answer. -/
theorem Except.bind_eq_ok {α β : Type} {x : Except Fault α} {k : α → Except Fault β} {b : β}
    (h : (x >>= k) = .ok b) : ∃ a, x = .ok a ∧ k a = .ok b := by
  cases x with
  | error f => cases h
  | ok a => exact ⟨a, rfl, h⟩

/-! ## The snapshot -/

theorem fillBytes_wf (f : Nat → Byte) : ∀ n, n ≤ 64 → (fillBytes f n).wf = true
  | 0, _ => rfl
  | n + 1, h => Memory.wf_put (by simp only [bufBytes]; omega) (fillBytes_wf f n (by omega))

theorem fillBytes_byte (f : Nat → Byte) : ∀ n, n ≤ 64 → ∀ k, (fillBytes f n).byte k = if k < n then f k else 0#8
  | 0, _, k => by simp [fillBytes]
  | n + 1, h, k => by
    rw [fillBytes, Memory.byte_put (fillBytes_wf f n (by omega)), fillBytes_byte f n (by omega)]
    by_cases hk : k = n
    · subst hk; simp
    · rw [if_neg hk]
      by_cases hn : k < n
      · rw [if_pos hn, if_pos (by omega)]
      · rw [if_neg hn, if_neg (by omega)]

theorem fillBytes_nibbles {f : Nat → Byte} (hf : ∀ k, f k < 16#8) : ∀ n, (fillBytes f n).nibbles = true
  | 0 => rfl
  | n + 1 => Memory.nibbles_put (hf n) (fillBytes_nibbles hf n)

theorem snapshot_wf (s : State) : (snapshot s).wf = true := fillBytes_wf _ _ (Nat.le_refl 64)

/-- The snapshot holds what it reads at every index (R181). -/
theorem snapshot_byte (s : State) {k : Nat} (h : k < 64) : (snapshot s).byte k = snapshotByte s k := by
  rw [snapshot, bufBytes, fillBytes_byte _ _ (Nat.le_refl 64), if_pos h]

theorem freeNibble_lt (k : Nat) : (Config.freeNibble k).setWidth 8 < 16#8 := by
  have := (Config.freeNibble k).isLt
  rw [BitVec.lt_def, BitVec.toNat_setWidth]
  simp only [BitVec.toNat_ofNat]
  omega

theorem snapshot_nibbles {s : State} (h : s.raw.nibbles = true) : (snapshot s).nibbles = true := by
  refine fillBytes_nibbles (fun k => ?_) _
  unfold snapshotByte
  split
  · exact Memory.byte_lt_of_nibbles h k
  · split
    · exact Memory.byte_lt_of_nibbles h k
    · exact freeNibble_lt _

/-! ## The checksum and the recovery -/

theorem sumBelow_lt (m : Memory) : ∀ p, sumBelow m p < 256
  | 0 => by simp [sumBelow]
  | 1 => by simp [sumBelow]
  | p + 2 => by rw [sumBelow]; omega

/-- The sum of nibbles 1 .. p−1 inside the buffer (R185). -/
theorem nibbleSum_ok (w : Memory) : ∀ p, p ≤ 64 → nibbleSum w p = .ok (BitVec.ofNat 8 (sumBelow w p))
  | 0, _ => rfl
  | 1, _ => rfl
  | p + 2, h => by
    rw [nibbleSum, nibbleSum_ok w (p + 1) (by omega), memRead_ok (by omega)]
    simp only [Except.bind_ok, sumBelow]
    congr 1
    apply BitVec.eq_of_toNat_eq
    simp

theorem byte_pair_toNat {x y : Byte} (hx : x < 16#8) (hy : y < 16#8) :
    (x ||| (y <<< 4)).toNat = (x.toNat + 16 * y.toNat) % 256 := by
  have key : ∀ a b : Fin 16, (BitVec.ofNat 8 a.val ||| (BitVec.ofNat 8 b.val <<< 4)).toNat =
      ((BitVec.ofNat 8 a.val).toNat + 16 * (BitVec.ofNat 8 b.val).toNat) % 256 := by decide
  have h1 : x.toNat < 16 := by simpa [BitVec.lt_def] using hx
  have h2 : y.toNat < 16 := by simpa [BitVec.lt_def] using hy
  have := key ⟨x.toNat, h1⟩ ⟨y.toNat, h2⟩
  simpa using this

/-- Checksum(pos) with the source's constants, inside its bounds (R185). -/
theorem checksum_inside {w : Memory} {pos : Int} (hw : w.nibbles = true) (h1 : 1 ≤ pos) (h2 : pos ≤ 60) :
    ∃ b, checksum Constants.source w pos = .ok b ∧ (b = true ↔ ChecksumHolds w pos.toNat) := by
  have hp : pos.toNat ≤ 60 := by omega
  unfold checksum
  rw [if_neg (by simp only [Constants.source]; omega), nibbleSum_ok w _ (by omega), memRead_ok (by omega),
    memRead_ok (by omega)]
  simp only [Except.bind_ok]
  refine ⟨_, rfl, ?_⟩
  have hlow := byte_pair_toNat (Memory.byte_lt_of_nibbles hw pos.toNat)
    (Memory.byte_lt_of_nibbles hw (pos.toNat + 1))
  have hs := sumBelow_lt w pos.toNat
  rw [beq_iff_eq, ChecksumHolds, ← BitVec.toNat_inj, hlow, BitVec.toNat_ofNat]
  constructor <;> intro h <;> omega

/-- Checksum(pos) with the source's constants, outside its bounds (R185). -/
theorem checksum_outside {w : Memory} {pos : Int} (h : pos < 1 ∨ 60 < pos) :
    checksum Constants.source w pos = .ok false := by
  unfold checksum
  rw [if_pos (by simp only [Constants.source]; omega)]

/-- Checksum(pos) with the source's constants always answers; a pass lies inside its bounds (R185). -/
theorem checksum_answers (w : Memory) (pos : Int) :
    ∃ b, checksum Constants.source w pos = .ok b ∧ (b = true → 1 ≤ pos ∧ pos ≤ 60) := by
  by_cases h : pos < 1 ∨ 60 < pos
  · exact ⟨false, checksum_outside h, by simp⟩
  · have hp : pos.toNat ≤ 60 := by omega
    unfold checksum
    rw [if_neg (by simp only [Constants.source]; omega), nibbleSum_ok w _ (by omega), memRead_ok (by omega),
      memRead_ok (by omega)]
    exact ⟨_, rfl, fun _ => by omega⟩

/-- What the tried positions can answer with the source's constants (R186). -/
theorem tryPositions_answers (w : Memory) : ∀ l : List Int,
    ∃ r, tryPositions Constants.source w l = .ok r ∧
      ∀ len, r = some len → ∃ pos ∈ l, 1 ≤ pos ∧ pos ≤ 60 ∧ len = pos.toNat + 4 ∧
        checksum Constants.source w pos = .ok true
  | [] => ⟨none, rfl, by simp⟩
  | pos :: rest => by
    obtain ⟨b, hb, hin⟩ := checksum_answers w pos
    rw [tryPositions, hb]
    cases b with
    | true =>
      refine ⟨_, rfl, fun len h => ⟨pos, List.mem_cons_self, (hin rfl).1, (hin rfl).2, ?_, hb⟩⟩
      cases h
      have := (hin rfl).1
      simp only [Constants.source]
      omega
    | false =>
      obtain ⟨r, hr, h⟩ := tryPositions_answers w rest
      refine ⟨r, hr, fun len hl => ?_⟩
      obtain ⟨p, hp, h2⟩ := h len hl
      exact ⟨p, List.mem_cons_of_mem _ hp, h2⟩

/-- What Recover(n) can answer with the source's constants: a length that passed its checksum (R186). -/
theorem recover_answers (w : Memory) (n : Int) :
    ∃ r, recover Constants.source w n = .ok r ∧
      ∀ len, r = some len → 5 ≤ len ∧ len ≤ 64 ∧ n ≤ len ∧ (len : Int) ≤ n + 2 ∧
        checksum Constants.source w ((len : Int) - 4) = .ok true := by
  obtain ⟨r, hr, h⟩ := tryPositions_answers w
    [n - (Constants.source.csBack : Nat), n - (Constants.source.csBack : Nat) + 1,
      n - (Constants.source.csBack : Nat) + 2]
  refine ⟨r, hr, fun len hl => ?_⟩
  obtain ⟨pos, hm, h1, h2, rfl, hc⟩ := h len hl
  have e : ((pos.toNat + 4 : Nat) : Int) - 4 = pos := by omega
  simp only [Constants.source, List.mem_cons, List.not_mem_nil, or_false] at hm
  rw [e]
  exact ⟨by omega, by omega, by omega, by omega, hc⟩

/-! ## The splice -/

/-- The copy loop inside the buffer: bytes i .. i+count−1 come from off + i .. (R184). -/
theorem spliceLoop_ok (off : Nat) : ∀ (count i : Nat) (w : Memory), w.wf = true → off + i + count ≤ 64 →
    ∃ w', spliceLoop off count i w = .ok w' ∧ w'.wf = true ∧
      ∀ k, w'.byte k = if i ≤ k ∧ k < i + count then w.byte (off + k) else w.byte k
  | 0, i, w, hw, _ => ⟨w, rfl, hw, fun k => by rw [if_neg (by omega)]⟩
  | count + 1, i, w, hw, h => by
    rw [spliceLoop, memRead_ok (by omega)]
    simp only [Except.bind_ok]
    rw [memWrite_ok (by omega)]
    simp only [Except.bind_ok]
    obtain ⟨w', h1, h2, h3⟩ := spliceLoop_ok off count (i + 1) (w.put i (w.byte (off + i)))
      (Memory.wf_put (by simp only [bufBytes]; omega) hw) (by omega)
    refine ⟨w', h1, h2, fun k => ?_⟩
    rw [h3, Memory.byte_put hw, Memory.byte_put hw]
    by_cases hk : k = i
    · subst hk
      rw [if_neg (by omega), if_pos rfl, if_pos (by omega)]
    · by_cases hr : i + 1 ≤ k ∧ k < i + 1 + count
      · have hj : ¬ off + k = i := by omega
        have hr' : i ≤ k ∧ k < i + (count + 1) := by omega
        rw [if_pos hr, if_pos hr', if_neg hj]
      · have hr' : ¬ (i ≤ k ∧ k < i + (count + 1)) := by omega
        rw [if_neg hr, if_neg hr', if_neg hk]

/-- Splice(off, m) inside the buffer (R184). -/
theorem splice_ok {w : Memory} {off m : Nat} (hw : w.wf = true) (h : off + m ≤ 64) :
    ∃ w', splice w off m = .ok w' ∧ w'.wf = true ∧
      ∀ k, w'.byte k = if k < m then w.byte (off + k) else w.byte k := by
  obtain ⟨w', h1, h2, h3⟩ := spliceLoop_ok off m 0 w hw (by omega)
  exact ⟨w', h1, h2, fun k => by simpa using h3 k⟩

/-- A splice that answers keeps the canonical form and the nibble form. -/
theorem spliceLoop_keeps (off : Nat) : ∀ (count i : Nat) {w w' : Memory}, spliceLoop off count i w = .ok w' →
    (w.wf = true → w'.wf = true) ∧ (w.nibbles = true → w'.nibbles = true)
  | 0, i, w, w', h => by cases h; exact ⟨id, id⟩
  | count + 1, i, w, w', h => by
    rw [spliceLoop] at h
    obtain ⟨x, hx, h⟩ := Except.bind_eq_ok h
    obtain ⟨v, hv, h⟩ := Except.bind_eq_ok h
    obtain ⟨h1, h2⟩ := spliceLoop_keeps off count (i + 1) h
    obtain ⟨hi, rfl⟩ := memWrite_cases hv
    obtain ⟨_, rfl⟩ := memRead_cases hx
    exact ⟨fun hw => h1 (Memory.wf_put hi hw),
      fun hn => h2 (Memory.nibbles_put (Memory.byte_lt_of_nibbles hn _) hn)⟩

/-- The splice answers inside the buffer, whatever the buffer. -/
theorem spliceLoop_answers (off : Nat) : ∀ (count i : Nat) (w : Memory), off + i + count ≤ 64 →
    ∃ w', spliceLoop off count i w = .ok w'
  | 0, _, w, _ => ⟨w, rfl⟩
  | count + 1, i, w, h => by
    rw [spliceLoop, memRead_ok (by omega)]
    simp only [Except.bind_ok]
    rw [memWrite_ok (by omega)]
    exact spliceLoop_answers off count (i + 1) _ (by omega)

/-! ## The duplicate scan -/

/-- The scan answers inside the buffer, with an offset it has shifted in (R183). -/
theorem dupScanLoop_answers (k : Constants) (w : Memory) : ∀ (count i : Nat) (r : BitVec 20), i + count ≤ 64 →
    ∃ a, dupScanLoop k w count i r = .ok a ∧ ∀ off, a = some off → i ≤ off ∧ off < i + count
  | 0, i, r, _ => ⟨none, rfl, by simp⟩
  | count + 1, i, r, h => by
    rw [dupScanLoop, memRead_ok (by omega)]
    simp only [Except.bind_ok]
    split
    · exact ⟨_, rfl, fun off ho => by cases ho; omega⟩
    · obtain ⟨a, ha, hb⟩ := dupScanLoop_answers k w count (i + 1) _ (by omega)
      exact ⟨a, ha, fun off ho => by have := hb off ho; omega⟩

/-! ## The comparison and the copy -/

/-- The comparison inside the buffer (R188). -/
theorem sameBytes_ok (w d : Memory) : ∀ n, n ≤ 64 →
    ∃ b, sameBytes w d n = .ok b ∧ (b = true ↔ ∀ k, k < n → w.byte k = d.byte k)
  | 0, _ => ⟨true, rfl, by simp⟩
  | n + 1, h => by
    obtain ⟨b, hb, hi⟩ := sameBytes_ok w d n (by omega)
    rw [sameBytes, hb, memRead_ok (by omega), memRead_ok (by omega)]
    refine ⟨_, rfl, ?_⟩
    rw [Bool.and_eq_true, hi, beq_iff_eq]
    constructor
    · rintro ⟨h1, h2⟩ k hk
      by_cases hn : k = n
      · subst hn; exact h2
      · exact h1 k (by omega)
    · exact fun h => ⟨fun k hk => h k (by omega), h n (by omega)⟩

/-- The copy inside the buffer: it answers, whatever the buffers (R188, R190). -/
theorem copyBytes_answers (src : Memory) : ∀ (n : Nat) (dst : Memory), n ≤ 64 → ∃ d, copyBytes src dst n = .ok d
  | 0, dst, _ => ⟨dst, rfl⟩
  | n + 1, dst, h => by
    obtain ⟨d, hd⟩ := copyBytes_answers src n dst (by omega)
    rw [copyBytes, hd, memRead_ok (by omega)]
    exact ⟨_, memWrite_ok (by omega)⟩

/-- A copy that answers: the bytes beyond it stay, its length is inside the buffer, the two forms are kept. -/
theorem copyBytes_keeps (src : Memory) : ∀ (n : Nat) {dst d : Memory}, copyBytes src dst n = .ok d →
    n ≤ 64 ∧ (∀ k, n ≤ k → d.byte k = dst.byte k) ∧ (dst.wf = true → d.wf = true) ∧
      (src.nibbles = true → dst.nibbles = true → d.nibbles = true)
  | 0, dst, d, h => by cases h; exact ⟨by omega, fun _ _ => rfl, id, fun _ => id⟩
  | n + 1, dst, d, h => by
    rw [copyBytes] at h
    obtain ⟨e, he, h⟩ := Except.bind_eq_ok h
    obtain ⟨x, hx, h⟩ := Except.bind_eq_ok h
    obtain ⟨_, h1, h2, h3⟩ := copyBytes_keeps src n he
    obtain ⟨hn, rfl⟩ := memWrite_cases h
    obtain ⟨_, rfl⟩ := memRead_cases hx
    simp only [bufBytes] at hn
    refine ⟨by omega, fun k hk => ?_, fun hd => Memory.wf_put hn (h2 hd), fun hs hd => ?_⟩
    · rw [Memory.byte_put_other (by omega), h1 k (by omega)]
    · exact Memory.nibbles_put (Memory.byte_lt_of_nibbles hs _) (h3 hs hd)

/-- A copy into a canonical buffer: every byte (R188, R190). -/
theorem copyBytes_byte (src : Memory) : ∀ (n : Nat) {dst d : Memory}, copyBytes src dst n = .ok d → dst.wf = true →
    ∀ k, d.byte k = if k < n then src.byte k else dst.byte k
  | 0, dst, d, h, _, k => by cases h; simp
  | n + 1, dst, d, h, hw, k => by
    rw [copyBytes] at h
    obtain ⟨e, he, h⟩ := Except.bind_eq_ok h
    obtain ⟨x, hx, h⟩ := Except.bind_eq_ok h
    have ih := copyBytes_byte src n he hw k
    have hwe := (copyBytes_keeps src n he).2.2.1 hw
    obtain ⟨hn, rfl⟩ := memWrite_cases h
    obtain ⟨_, rfl⟩ := memRead_cases hx
    rw [Memory.byte_put hwe, ih]
    by_cases hk : k = n
    · subst hk; rw [if_pos rfl, if_pos (by omega)]
    · rw [if_neg hk]
      by_cases hl : k < n
      · rw [if_pos hl, if_pos (by omega)]
      · rw [if_neg hl, if_neg (by omega)]

/-! ## The framing -/

/-- The framing with the source's constants always answers (R60, R182 to R187). -/
theorem recoverOn_answers (w : Memory) (n : Int) :
    ∃ r, recoverOn Constants.source w n = .ok r ∧
      ∀ p, r = some p → p.1 = w ∧ 5 ≤ p.2 ∧ p.2 ≤ 64 ∧ n ≤ p.2 ∧ (p.2 : Int) ≤ n + 2 ∧
        checksum Constants.source w ((p.2 : Int) - 4) = .ok true := by
  obtain ⟨r, hr, h⟩ := recover_answers w n
  rw [recoverOn, hr]
  refine ⟨_, rfl, fun p hp => ?_⟩
  cases r with
  | none => cases hp
  | some len => cases hp; exact ⟨rfl, h len rfl⟩

theorem secondCopy_answers (w : Memory) {off m : Nat} (h : off + m ≤ 64) :
    ∃ w' r, splice w off m = .ok w' ∧ secondCopy Constants.source w off m = .ok r ∧
      recoverOn Constants.source w' m = .ok r := by
  obtain ⟨w', hw⟩ := spliceLoop_answers off m 0 w (by omega)
  obtain ⟨r, hr, _⟩ := recoverOn_answers w' m
  refine ⟨w', r, hw, ?_, hr⟩
  rw [secondCopy, splice, hw]
  exact hr

theorem dupScan_answers (k : Constants) (w : Memory) {n : Nat} (h : n ≤ 64) :
    ∃ a, dupScan k w n = .ok a ∧ ∀ off, a = some off → off < n := by
  by_cases hn : k.dupScanStart ≤ n
  · obtain ⟨a, h1, h2⟩ := dupScanLoop_answers k w (n - k.dupScanStart) k.dupScanStart 0#20 (by omega)
    exact ⟨a, h1, fun off ho => by have := h2 off ho; omega⟩
  · have e : n - k.dupScanStart = 0 := by omega
    refine ⟨none, ?_, by simp⟩
    rw [dupScan, e]; rfl

theorem findSecondCopy_answers (k : Constants) (w : Memory) {n : Nat} (h : n ≤ 64) :
    ∃ a, findSecondCopy k w n = .ok a ∧ ∀ off, a = some off → off < n := by
  unfold findSecondCopy
  split
  · exact dupScan_answers k w h
  · exact ⟨none, rfl, by simp⟩

/-- The framing with the source's constants always answers (R182, R184, R187). -/
theorem frame_answers (w : Memory) {n : Nat} (h : n ≤ 64) : ∃ r, frame Constants.source w n = .ok r := by
  obtain ⟨a, ha, hlt⟩ := findSecondCopy_answers Constants.source w h
  rw [frame, memRead_ok (by omega), ha]
  simp only [Except.bind_ok]
  cases a with
  | none =>
    simp only
    split
    · obtain ⟨r, hr, _⟩ := recoverOn_answers w n
      exact ⟨r, hr⟩
    · exact ⟨_, rfl⟩
  | some off =>
    have := hlt off rfl
    obtain ⟨_, r2, _, hr2, _⟩ := secondCopy_answers w (off := off) (m := n - off) (by omega)
    simp only
    split
    · obtain ⟨r, hr, _⟩ := recoverOn_answers w ((off : Int) - Constants.source.dupCut)
      rw [hr]
      simp only [Except.bind_ok]
      cases r with
      | none => exact ⟨r2, hr2⟩
      | some p => exact ⟨_, rfl⟩
    · exact ⟨r2, hr2⟩

/-- A framing that answers a packet keeps the two forms of the buffer. -/
theorem frame_keeps {k : Constants} {w w' : Memory} {n len : Nat} (h : frame k w n = .ok (some (w', len))) :
    (w.wf = true → w'.wf = true) ∧ (w.nibbles = true → w'.nibbles = true) := by
  have hro : ∀ {v v' : Memory} {m : Int} {l : Nat}, recoverOn k v m = .ok (some (v', l)) → v' = v := by
    intro v v' m l hr
    rw [recoverOn] at hr
    obtain ⟨r, _, hr⟩ := Except.bind_eq_ok hr
    cases r with
    | none => cases hr
    | some x => cases hr; rfl
  have hsc : ∀ {v v' : Memory} {off m l : Nat}, secondCopy k v off m = .ok (some (v', l)) →
      (v.wf = true → v'.wf = true) ∧ (v.nibbles = true → v'.nibbles = true) := by
    intro v v' off m l hs
    rw [secondCopy] at hs
    obtain ⟨u, hu, hs⟩ := Except.bind_eq_ok hs
    have := hro hs
    subst this
    exact spliceLoop_keeps off m 0 hu
  rw [frame] at h
  obtain ⟨x, _, h⟩ := Except.bind_eq_ok h
  obtain ⟨a, _, h⟩ := Except.bind_eq_ok h
  cases a with
  | none =>
    simp only at h
    split at h
    · have := hro h; subst this; exact ⟨id, id⟩
    · cases h
  | some off =>
    simp only at h
    split at h
    · obtain ⟨r, hr, h⟩ := Except.bind_eq_ok h
      cases r with
      | none => exact hsc h
      | some p => cases h; have := hro hr; subst this; exact ⟨id, id⟩
    · exact hsc h

/-- A framing with the source's constants accepts a packet of 5 to 64 nibbles whose checksum passed (R186, R187). -/
theorem frame_accepts {w w' : Memory} {n len : Nat} (h : frame Constants.source w n = .ok (some (w', len))) :
    5 ≤ len ∧ len ≤ 64 ∧ checksum Constants.source w' ((len : Int) - 4) = .ok true := by
  have hro : ∀ {v v' : Memory} {m : Int} {l : Nat}, recoverOn Constants.source v m = .ok (some (v', l)) →
      5 ≤ l ∧ l ≤ 64 ∧ checksum Constants.source v' ((l : Int) - 4) = .ok true := by
    intro v v' m l hr
    obtain ⟨r, hr', hp⟩ := recoverOn_answers v m
    rw [hr] at hr'
    cases hr'
    obtain ⟨h1, h2, h3, _, _, h6⟩ := hp _ rfl
    simp only at h1 h2 h3 h6
    subst h1
    exact ⟨h2, h3, h6⟩
  have hsc : ∀ {v v' : Memory} {off m l : Nat}, secondCopy Constants.source v off m = .ok (some (v', l)) →
      5 ≤ l ∧ l ≤ 64 ∧ checksum Constants.source v' ((l : Int) - 4) = .ok true := by
    intro v v' off m l hs
    rw [secondCopy] at hs
    obtain ⟨u, _, hs⟩ := Except.bind_eq_ok hs
    exact hro hs
  rw [frame] at h
  obtain ⟨x, _, h⟩ := Except.bind_eq_ok h
  obtain ⟨a, _, h⟩ := Except.bind_eq_ok h
  cases a with
  | none =>
    simp only at h
    split at h
    · exact hro h
    · cases h
  | some off =>
    simp only at h
    split at h
    · obtain ⟨r, hr, h⟩ := Except.bind_eq_ok h
      cases r with
      | none => exact hsc h
      | some p => cases h; exact hro hr
    · exact hsc h

/-! ## The steps after the snapshot -/

/-- The response of a delivery as a number (R190). -/
theorem packetResponse_toNat (v : BitVec 2) {len : Nat} (h : len < 128) :
    (packetResponse v len).toNat = 256 * v.toNat + len := by
  have := v.isLt
  simp only [packetResponse, Word.toNat_cat, BitVec.toNat_ofNat]
  omega

/-- Everything step 6 can do (R180, R188). -/
theorem dedupStep_cases {v : BitVec 2} {w : Memory} {len t : Nat} {s s' : State} {ok : Bool}
    (h : dedupStep v w len t s = .ok (ok, s')) :
    (v ≠ 2#2 ∧ ok = true ∧ s' = s) ∨
    (v = 2#2 ∧ isRepeat s w len t = .ok (!ok) ∧
      ∃ dd, copyBytes w s.dd len = .ok dd ∧ s' = { s with dd := dd, dt := t }) := by
  unfold dedupStep at h
  split at h
  · rw [dedup] at h
    obtain ⟨r, hr, h⟩ := Except.bind_eq_ok h
    obtain ⟨d, hd, h⟩ := Except.bind_eq_ok h
    cases h
    exact .inr ⟨by assumption, by rw [hr, Bool.not_not], d, hd, rfl⟩
  · cases h
    exact .inl ⟨by assumption, rfl, rfl⟩

/-- Step 6 answers for a packet inside the buffer (R188). -/
theorem dedupStep_answers (v : BitVec 2) (w : Memory) {len : Nat} (t : Nat) (s : State) (h : len ≤ 64) :
    ∃ ok s', dedupStep v w len t s = .ok (ok, s') := by
  unfold dedupStep
  split
  · obtain ⟨b, hb, _⟩ := sameBytes_ok w s.dd (len - 2) (by omega)
    obtain ⟨d, hd⟩ := copyBytes_answers w len s.dd h
    rw [dedup, isRepeat, hb, hd]
    exact ⟨_, _, rfl⟩
  · exact ⟨_, _, rfl⟩

/-- Everything the steps after the snapshot can do: failure F3 or F4; failure F5; failure F6; delivery. -/
theorem readPacket_cases {maxLen : Nat} {v : BitVec 2} {t : Nat} {w : Memory} {n : Nat} {s s' : State}
    (h : readPacket maxLen v t w n s = .ok s') :
    (frame s.cfg.consts w n = .ok none ∧ s' = respond ackResponse (recordCause .checksumFailure s)) ∨
    ∃ w' len ok s1, frame s.cfg.consts w n = .ok (some (w', len)) ∧ dedupStep v w' len t s = .ok (ok, s1) ∧
      ((ok = false ∧ s' = respond ackResponse (recordCause .duplicateSuppressed s1)) ∨
       (ok = true ∧ maxLen < len ∧ s' = respond ackResponse s1) ∨
       (ok = true ∧ len ≤ maxLen ∧
         ∃ out, copyBytes w' s1.out len = .ok out ∧ s' = respond (packetResponse v len) { s1 with out := out })) := by
  rw [readPacket] at h
  obtain ⟨r, hr, h⟩ := Except.bind_eq_ok h
  cases r with
  | none => cases h; exact .inl ⟨hr, rfl⟩
  | some p =>
    obtain ⟨w', len⟩ := p
    simp only at h
    obtain ⟨⟨ok, s1⟩, hd, h⟩ := Except.bind_eq_ok h
    refine .inr ⟨w', len, ok, s1, hr, hd, ?_⟩
    cases ok with
    | false => cases h; exact .inl ⟨rfl, rfl⟩
    | true =>
      simp only [if_true] at h
      split at h
      · cases h; exact .inr (.inl ⟨rfl, by assumption, rfl⟩)
      · rw [deliver] at h
        obtain ⟨out, ho, h⟩ := Except.bind_eq_ok h
        cases h
        exact .inr (.inr ⟨rfl, by omega, out, ho, rfl⟩)

/-- The steps after the snapshot answer with the source's constants (R180). -/
theorem readPacket_answers (maxLen : Nat) (v : BitVec 2) (t : Nat) (w : Memory) {n : Nat} {s : State} (hn : n ≤ 64)
    (hc : s.cfg.consts = Constants.source) : ∃ s', readPacket maxLen v t w n s = .ok s' := by
  obtain ⟨r, hr⟩ := frame_answers w hn
  rw [readPacket, hc, hr]
  cases r with
  | none => exact ⟨_, rfl⟩
  | some p =>
    obtain ⟨w', len⟩ := p
    have hl := (frame_accepts hr).2.1
    obtain ⟨ok, s1, hd⟩ := dedupStep_answers v w' t s hl
    simp only [Except.bind_ok, hd]
    split
    · split
      · exact ⟨_, rfl⟩
      · obtain ⟨out, ho⟩ := copyBytes_answers w' len s1.out hl
        rw [deliver, ho]
        exact ⟨_, rfl⟩
    · exact ⟨_, rfl⟩

/-- GETDATA turned away: failures F1 and F2 (R180). -/
theorem execGetdata_turned_away {m : BitVec 7} {s : State} (h : s.st ≠ .ready ∨ m.toNat < ceil4 s.cur) :
    execGetdata m s = .next (respond ackResponse (beginCommand s)) := by
  unfold execGetdata
  by_cases hr : s.st = .ready
  · have hm : m.toNat < ceil4 (beginCommand s).cur := h.resolve_left (fun h => h hr)
    rw [if_neg (fun h => h hr), if_pos hm]
  · rw [if_pos (show (beginCommand s).st ≠ .ready from hr)]

/-- GETDATA on a packet that fits is what the steps after the snapshot answer (R180, R181). -/
theorem execGetdata_runs {m : BitVec 7} {s : State} (h : s.st = .ready) (hm : ceil4 s.cur ≤ m.toNat) :
    execGetdata m s =
      match readPacket m.toNat s.ver (arrivalTime s) (snapshot s) (ceil4 s.cur) (afterSnapshot (beginCommand s)) with
      | .ok s' => .next s'
      | .error f => .fault f := by
  unfold execGetdata
  rw [if_neg (fun hr => hr h), if_neg (show ¬ m.toNat < ceil4 (beginCommand s).cur from Nat.not_lt.2 hm)]
  rfl

end Sys2Proof.Machine
end

