-- ==== Sys2Proof/Laws/Exec.lean ====
section
/-!
SUPPORT. What exec and step can do, said once: a command that delivers a pulse is that pulse on the state with RESP
cleared; GETDATA is turned away or runs the steps after the snapshot; the other commands; a step.
-/
namespace Sys2Proof.Machine

/-- EDGE and CAPTURE are their pulse, on the state whose RESP, REARM and, for CAPTURE, prevCap are already written. -/
theorem exec_pulse {i : Instr} {c : PulseClass} {s t : State} (hc : pulseClass i s = some c)
    (h : exec i s = .next t) :
    ∃ p, (pulse c { s with prevCap := p, resp := 0#32, rearm := false }).outcome = .next t ∧
      ∀ ph ticks, i = .edge ph ticks → p = s.prevCap := by
  cases i <;> simp [pulseClass] at hc
  · subst hc
    exact ⟨s.prevCap, h, fun _ _ _ => rfl⟩
  · subst hc
    rename_i ovf ph cap
    exact ⟨cap, h, fun _ _ he => by cases he⟩

/-- GETDATA that answers: turned away (F1, F2), or the steps after the snapshot have answered. -/
theorem exec_getdata_cases {m : BitVec 7} {s t : State} (h : exec (.getdata m) s = .next t) :
    t = respond ackResponse (beginCommand s) ∨
    (s.st = .ready ∧ ceil4 s.cur ≤ m.toNat ∧
      readPacket m.toNat s.ver (arrivalTime s) (snapshot s) (ceil4 s.cur) (afterSnapshot (beginCommand s)) =
        .ok t) := by
  change execGetdata m s = _ at h
  by_cases h1 : s.st ≠ .ready ∨ m.toNat < ceil4 s.cur
  · rw [execGetdata_turned_away h1] at h
    cases h
    exact .inl rfl
  · simp only [not_or, Decidable.not_not, Nat.not_lt, ne_eq] at h1
    rw [execGetdata_runs h1.1 h1.2] at h
    split at h
    · cases h
      exact .inr ⟨h1.1, h1.2, by assumption⟩
    · cases h

/-- A command that is neither a pulse nor GETDATA: REARM low, no cause; all but INIT keep the buffers. -/
theorem exec_other {i : Instr} {s t : State} (hc : pulseClass i s = none) (hg : ∀ m, i ≠ .getdata m)
    (h : exec i s = .next t) :
    t.rearm = false ∧ t.trace = s.trace ∧ t.cfg = s.cfg ∧ t.pending = s.pending ∧
      (i ≠ .init → t.raw = s.raw ∧ t.dd = s.dd ∧ t.dt = s.dt ∧ t.out = s.out) := by
  cases i <;> simp [pulseClass] at hc <;> simp_all [exec]
  · cases h; simp
  · unfold execTimeout at h
    dsimp only at h
    split at h <;> cases h <;> simp
  · cases h; simp
  · unfold execStart at h
    split at h <;> cases h <;> simp
  · cases h; simp
  · cases h; simp
  · cases h; simp

/-- Everything a step that answers can be: the block waits, runs a command, or answers an illegal word. -/
theorem step_cases {s t : State} (h : step s = .next t) :
    s.cfg.wf = true ∧
      ((s.pending = [] ∧ t = waitForCommand s) ∨
       ∃ c rest, s.pending = c :: rest ∧
        ((∃ i, decode c.cmd = .ok i ∧ exec i (acceptCommand c rest s) = .next t) ∨
         ((∃ e, decode c.cmd = .error e) ∧ t = respond errResponse (beginCommand (acceptCommand c rest s))))) := by
  unfold step at h
  split at h
  · refine ⟨by assumption, ?_⟩
    split at h
    · cases h
      exact .inl ⟨by assumption, rfl⟩
    · rename_i c rest hp
      refine .inr ⟨c, rest, hp, ?_⟩
      unfold runWord at h
      split at h
      · exact .inl ⟨_, by assumption, h⟩
      · cases h
        exact .inr ⟨⟨_, by assumption⟩, rfl⟩
  · cases h

end Sys2Proof.Machine
end

