-- ==== Sys2Proof/Laws/PerInstr.lean ====
section
/-!
SUPPORT. The family Legal: the word the encoder writes for a command belongs to exactly one row of the opcode map
(30_encoding.md rule R87), with one lemma per constructor of Instr.
-/
namespace Sys2Proof

/-- A row whose mask takes all of OP does not cover a word of another OP (R87). -/
theorem OpcodeRow.not_covers {r : OpcodeRow} {w : Word} (hm : r.mask.extractLsb' 28 4 = 0xF#4)
    (h : w.extractLsb' 28 4 ≠ r.matchBits.extractLsb' 28 4) : r.covers w = false := by
  rw [OpcodeRow.covers, beq_eq_false_iff_ne]
  intro he
  apply h
  rw [← he, BitVec.extractLsb'_and, hm, show 0xF#4 = BitVec.allOnes 4 by decide, BitVec.and_allOnes]

/-- A word of one OP that its own row covers, while the rows of the other OPs do not, is legal (R87). -/
theorem Word.legal_of_row {w : Word} {l r : List OpcodeRow} {row : OpcodeRow} (hs : opcodeMap = l ++ row :: r)
    (hc : row.covers w = true)
    (ho : ∀ x ∈ l ++ r, x.mask.extractLsb' 28 4 = 0xF#4 ∧ w.extractLsb' 28 4 ≠ x.matchBits.extractLsb' 28 4) :
    Word.legal w = true := by
  have hz : ∀ k : List OpcodeRow, (∀ x ∈ k, x ∈ l ++ r) → k.countP (fun x => x.covers w) = 0 := by
    intro k hk
    rw [List.countP_eq_zero]
    intro x hx
    have := ho x (hk x hx)
    rw [OpcodeRow.not_covers this.1 this.2]
    decide
  rw [Word.legal, hs, List.countP_append, List.countP_cons, hz l (fun x h => List.mem_append_left _ h),
    hz r (fun x h => List.mem_append_right _ h), hc]
  rfl

end Sys2Proof

namespace Sys2Proof.Laws.Legal

/-- The encoding of a command is a legal word (R87, R88). -/
def Statement (i : Instr) : Prop := Word.legal (encode i) = true

theorem init : Statement .init := by unfold Statement; decide

theorem edge (ph : Phase) (ticks : Ticks) : Statement (.edge ph ticks) := by
  have hop : (encode (.edge ph ticks)).extractLsb' 28 4 = 0x1#4 := by
    apply BitVec.eq_of_toNat_eq
    have h1 := ticks.isLt
    have h2 := (bitOfPhase ph).isLt
    simp only [encode, Word.toNat_field, Word.toNat_cat, BitVec.toNat_ofNat]
    omega
  refine Word.legal_of_row (l := opcodeMap.take 1) (r := opcodeMap.drop 2) (row := ⟨0x10000000#32, 0xFFFE0000#32⟩)
    (by decide) ?_ ?_
  · rw [OpcodeRow.covers, encode, beq_iff_eq,
      show 0xFFFE0000#32 = 0xF#4 ++ 0x7FF#11 ++ 0#1 ++ 0#16 by decide, BitVec.and_append, BitVec.and_append,
      BitVec.and_zero, BitVec.and_zero]
    decide
  · rw [hop]; decide

theorem capture (ovf : BitVec 2) (ph : Phase) (cap : Ticks) : Statement (.capture ovf ph cap) := by
  have hop : (encode (.capture ovf ph cap)).extractLsb' 28 4 = 0x2#4 := by
    apply BitVec.eq_of_toNat_eq
    have h1 := cap.isLt
    have h2 := (bitOfPhase ph).isLt
    have h3 := ovf.isLt
    simp only [encode, Word.toNat_field, Word.toNat_cat, BitVec.toNat_ofNat]
    omega
  refine Word.legal_of_row (l := opcodeMap.take 2) (r := opcodeMap.drop 3) (row := ⟨0x20000000#32, 0xFFF20000#32⟩)
    (by decide) ?_ ?_
  · rw [OpcodeRow.covers, encode, beq_iff_eq,
      show 0xFFF20000#32 = 0xF#4 ++ 0xFF#8 ++ 0#2 ++ 1#1 ++ 0#1 ++ 0#16 by decide, BitVec.and_append,
      BitVec.and_append, BitVec.and_append, BitVec.and_append, BitVec.and_zero, BitVec.and_zero, BitVec.and_zero]
    decide
  · rw [hop]; decide

theorem timeout : Statement .timeout := by unfold Statement; decide

theorem avail : Statement .avail := by unfold Statement; decide

theorem getdata (maxLen : BitVec 7) : Statement (.getdata maxLen) := by
  have hop : (encode (.getdata maxLen)).extractLsb' 28 4 = 0x5#4 := by
    apply BitVec.eq_of_toNat_eq
    have h1 := maxLen.isLt
    simp only [encode, Word.toNat_field, Word.toNat_cat, BitVec.toNat_ofNat]
    omega
  refine Word.legal_of_row (l := opcodeMap.take 5) (r := opcodeMap.drop 6) (row := ⟨0x50000000#32, 0xFFFFFF80#32⟩)
    (by decide) ?_ ?_
  · rw [OpcodeRow.covers, encode, beq_iff_eq,
      show 0xFFFFFF80#32 = 0xF#4 ++ 0x1FFFFF#21 ++ 0#7 by decide, BitVec.and_append, BitVec.and_zero]
    decide
  · rw [hop]; decide

theorem start : Statement .start := by unfold Statement; decide

theorem statusControl : Statement .statusControl := by unfold Statement; decide

theorem statusCounters : Statement .statusCounters := by unfold Statement; decide

theorem statusCapture : Statement .statusCapture := by unfold Statement; decide

end Sys2Proof.Laws.Legal
end

