-- ==== Sys2Proof/Tests/Slice0.lean ====
section
/-!
SUPPORT. The model's own tests: words written out bit by bit from the formats of 30_encoding.md, ill-formed words and
parameter sets that the checks refuse, one-step tests whose results stand in the spec, and for every statement that has
hypotheses a witness that meets them. Each test's comment names where its expected result comes from.
-/
namespace Sys2Proof.Machine.Tests
open Sys2Proof Sys2Proof.Machine

/-! ## Decoding: each word bit by bit (R82 to R86) -/

theorem test_word_init : decodeTableWord 32 0b0000_0000000000000000000000000000 = some .init := by decide
theorem test_word_edge_hi : decodeTableWord 32 0b0001_00000000000_1_0000000011001000 = some (.edge .hi 200#16) := by
  decide
theorem test_word_edge_lo : decodeTableWord 32 0b0001_00000000000_0_1000000000000001 = some (.edge .lo 0x8001#16) := by
  decide
theorem test_word_capture : decodeTableWord 32 0b0010_00000000_10_0_1_0001001000110100 =
    some (.capture 2#2 .hi 0x1234#16) := by decide
theorem test_word_timeout : decodeTableWord 32 0b0011_0000000000000000000000000000 = some .timeout := by decide
theorem test_word_avail : decodeTableWord 32 0b0100_0000000000000000000000000000 = some .avail := by decide
theorem test_word_getdata : decodeTableWord 32 0b0101_000000000000000000000_1000001 = some (.getdata 65#7) := by decide
theorem test_word_start : decodeTableWord 32 0b0110_0000000000000000000000000000 = some .start := by decide
theorem test_word_status0 : decodeTableWord 32 0b0111_00000000000000000000000000_00 = some .statusControl := by decide
theorem test_word_status1 : decodeTableWord 32 0b0111_00000000000000000000000000_01 = some .statusCounters := by decide
theorem test_word_status2 : decodeTableWord 32 0b0111_00000000000000000000000000_10 = some .statusCapture := by decide

/-! ## Well-formedness: each check refuses an ill-formed term (R87, R88, R9) -/

/-- OP = 8; INIT with bit 0; EDGE with bit 17; CAPTURE with bit 17 and with bit 20; GETDATA with bit 7; STATUS with
SEL = 3 and with bit 2 (R88, R224). -/
theorem test_illegal_words :
    [0x80000000#32, 0x00000001#32, 0x10020000#32, 0x20020000#32, 0x20100000#32, 0x50000080#32, 0x70000003#32,
      0x70000004#32].all (fun w => !Word.legal w && (decodeTableWord 32 w.toNat).isNone) = true := by decide

/-- t0 > t1. -/
theorem test_wf_refuses_t0_above_t1 :
    { Config.tp with thrHi := { t0 := 301#16, t1 := 300#16, t2 := 500#16 } }.wf = false := by decide
/-- t1 > t2. -/
theorem test_wf_refuses_t1_above_t2 :
    { Config.tp with thrLo := { t0 := 100#16, t1 := 501#16, t2 := 500#16 } }.wf = false := by decide
/-- TW ≠ 16. -/
theorem test_wf_refuses_other_tw : { Config.tp with tw := 12 }.wf = false := by decide
/-- Equal thresholds are ordered (t0 ≤ t1 ≤ t2). -/
theorem test_wf_accepts_equal : { Config.tp with thrHi := { t0 := 7#16, t1 := 7#16, t2 := 7#16 } }.wf = true := by decide

/-! ## Small states -/

/-- Under TP, after INIT, in state `st` with `cur` bits received. -/
def small (st : ProtocolState) (ver : BitVec 2) (cur : BitVec 8) : State :=
  { State.reset with st := st, ver := ver, cur := cur }

/-- M16 of 95_test_vectors.md section 0 in a buffer. -/
def m16 : Memory :=
  [(0, 0xA#8), (1, 1#8), (2, 2#8), (3, 3#8), (6, 5#8), (8, 1#8), (9, 2#8), (10, 3#8), (11, 4#8), (12, 0xE#8), (13, 7#8),
    (14, 0xA#8), (15, 2#8)]

/-- READY with M16 received as version `v` (95_test_vectors.md section 2.10: cur = 64, n = 16). -/
def heldM16 (v : BitVec 2) : State := { small .ready v 64#8 with raw := m16 }

/-- The field test of a step that must answer a next state. -/
def answers (o : Host.Outcome State Fault Refusal) (p : State → Bool) : Bool :=
  match o with
  | .next t => p t
  | .fault _ => false
  | .refused _ => false

/-! ## One step of each command -/

/-- R220's example: INIT out of READY. -/
theorem test_init : answers (exec .init (heldM16 3#2))
    (fun t => t.st == .idle && t.cur == 0#8 && t.raw == [] && !t.rdy) = true := by decide
/-- R142's example: RXV3, pend = 1, lastBit = 1, cur = 5: a Short writes bit 1 at RAW[1] bit 1. -/
theorem test_edge_short : answers (exec (.edge .hi 100#16) { small .rxv3 3#2 5#8 with pend := true, lastBit := true })
    (fun t => t.raw == [(1, 2#8)] && t.cur == 6#8 && !t.pend) = true := by decide
/-- R143's example: RXV3, pend = 0, lastBit = 0, cur = 1: a Long writes 1 at RAW[0] bit 1. -/
theorem test_edge_long : answers (exec (.edge .lo 300#16) (small .rxv3 3#2 1#8))
    (fun t => t.raw == [(0, 2#8)] && t.cur == 2#8 && t.lastBit) = true := by decide
/-- R103's example: prevCap = 0xFF00, CAPTURE 0x0064 with one overflow gives 356, a Long. -/
theorem test_capture_wraps : answers (exec (.capture 1#2 .lo 0x0064#16) { State.reset with prevCap := 0xFF00#16 })
    (fun t => t.longCnt == 1 && t.prevCap == 0x0064#16) = true := by decide
/-- R103's example: the same with two overflows gives 0xFFFF, a Noise: FullReset(a). -/
theorem test_capture_overflows : answers (exec (.capture 2#2 .lo 0x0064#16) { State.reset with prevCap := 0xFF00#16 })
    (fun t => t.longCnt == 0 && t.trace == [.syncFailure] && t.prevCap == 0x0064#16) = true := by decide
/-- R170's example: RXV2, cur = 41. -/
theorem test_timeout_ends : answers (exec .timeout (small .rxv2 2#2 41#8))
    (fun t => t.st == .ready && t.ver == 2#2) = true := by decide
/-- R170: cur = 40 does not end the message. -/
theorem test_timeout_short : answers (exec .timeout { small .rxv2 2#2 40#8 with armed := true })
    (fun t => t.st == .rxv2 && !t.armed) = true := by decide
/-- R221's example. -/
theorem test_avail : answers (exec .avail (heldM16 3#2)) (fun t => t.resp == 1#32) = true := by decide
/-- 95_test_vectors.md section 2.10: GETDATA 18 on M16 as V3 answers 0x0000_0312 and OUT = M16 0 0. -/
theorem test_getdata_delivers : answers (exec (.getdata 18#7) (heldM16 3#2))
    (fun t => t.resp == 0x00000312#32 && t.st == .idle && t.out == m16) = true := by decide
/-- 95_test_vectors.md section 2.10: GETDATA 15 is turned away (F2). -/
theorem test_getdata_small_buffer : answers (exec (.getdata 15#7) (heldM16 3#2))
    (fun t => t.resp == 0#32 && t.st == .ready) = true := by decide
/-- R222's example. -/
theorem test_start : answers (exec .start (heldM16 3#2))
    (fun t => t.st == .idle && t.cur == 0#8 && t.ver == 0#2 && t.raw == m16) = true := by decide
/-- R223's example: right after a V3 commit. -/
theorem test_status_control : answers (exec .statusControl { small .rxv3 3#2 1#8 with armed := true })
    (fun t => t.resp == 0x0001010D#32) = true := by decide
/-- R223: bits 7:0 shortCnt, bits 15:8 longCnt. -/
theorem test_status_counters : answers (exec .statusCounters { State.reset with shortCnt := 0x12, longCnt := 0x34 })
    (fun t => t.resp == 0x00003412#32) = true := by decide
/-- R223: prevCap. -/
theorem test_status_capture : answers (exec .statusCapture { State.reset with prevCap := 0xBEEF#16 })
    (fun t => t.resp == 0x0000BEEF#32) = true := by decide
/-- R224's example: EDGE with bit 17 set. -/
theorem test_illegal_step : answers (step (State.reset.withFetchWord 32 0x10020000))
    (fun t => t.resp == 0x80000000#32 && t.shortCnt == 0) = true := by decide

/-! ## Witnesses: the hypotheses of each statement can be met -/

/-- IDLE after 21 Shorts, on an instance whose RAW holds one bit (log 9). -/
def oneBit : State :=
  { State.afterInit { Config.tp with consts := { Constants.source with capBits := 1 } } with shortCnt := 21 }

/-- One command on CMD. -/
def offered (w : Word) (s : State) : State := { s with pending := [{ cmd := w, now := 7 }] }

/-- A state that meets the invariant and is not reset: a held V3 packet. -/
theorem held_invariant : Invariant (heldM16 3#2) where
  buffers := ⟨by decide, by decide, by decide, by decide, by decide, by decide⟩
  idle := fun h => nomatch h
  cursor_inside := fun _ => by decide
  rxv3 := fun h => nomatch h
  rxv2 := fun h => nomatch h
  ready_ver := fun _ => .inr rfl
  ready_disarmed := fun _ => rfl
  ready_bits := fun _ => .inl (by decide)
  idle_counts := fun h => nomatch h
  short_width := by decide
  long_width := by decide
  dt_width := by decide
  unarmed_short := fun _ h => nomatch h

/-- A receiving state that meets the invariant with the timer not armed. -/
theorem unarmed_invariant : Invariant (small .rxv2 2#2 40#8) where
  buffers := ⟨rfl, rfl, rfl, rfl, rfl, rfl⟩
  idle := fun h => nomatch h
  cursor_inside := fun _ => by decide
  rxv3 := fun h => nomatch h
  rxv2 := fun _ => rfl
  ready_ver := fun h => nomatch h
  ready_disarmed := fun h => nomatch h
  ready_bits := fun h => nomatch h
  idle_counts := fun h => nomatch h
  short_width := by decide
  long_width := by decide
  dt_width := by decide
  unarmed_short := fun _ _ _ => by decide

theorem witness_EncodeOfDecode : ∃ w i, decode w = .ok i := ⟨0x50000040#32, .getdata 64#7, rfl⟩
theorem witness_IllegalWords : ∃ w, Word.legal w = false := ⟨0x70000003#32, by decide⟩
theorem witness_StepRunsDecodedCommand : ∃ (s : State) (c : CommandIn) (rest : List CommandIn) (i : Instr),
    s.cfg.wf = true ∧ s.pending = c :: rest ∧ decode c.cmd = .ok i :=
  ⟨offered 0x60000000#32 State.reset, _, _, .start, by decide, rfl, rfl⟩
theorem witness_StepOnIllegalWord : ∃ (s : State) (c : CommandIn) (rest : List CommandIn) (e : Illegal),
    s.cfg.wf = true ∧ s.pending = c :: rest ∧ decode c.cmd = .error e :=
  ⟨offered 0x10020000#32 State.reset, _, _, .reservedField, by decide, rfl, rfl⟩
theorem witness_StepWaitsForCommand : ∃ s : State, s.cfg.wf = true ∧ s.pending = [] := ⟨State.reset, by decide, rfl⟩
theorem witness_IllFormedParametersRefused : ∃ s : State, s.cfg.wf = false :=
  ⟨State.afterInit { Config.tp with tw := 12 }, by decide⟩
theorem witness_StepNeverFaults : ∃ s : State, s.cfg.consts = Constants.source := ⟨heldM16 2#2, rfl⟩
theorem witness_StepKeepsInvariant : ∃ s t : State, Invariant s ∧ step s = .next t :=
  ⟨heldM16 3#2, _, held_invariant, rfl⟩
theorem witness_ProtocolTransitions : ∃ s t : State, step s = .next t ∧ s.st.receiving = true ∧ t.st = .ready :=
  ⟨offered 0x100101F4#32 (small .rxv3 3#2 40#8), _, rfl, by decide, by decide⟩
theorem witness_RawChangesOnlyWhileReceiving : ∃ (i : Instr) (s t : State), exec i s = .next t ∧ t.raw ≠ s.raw :=
  ⟨.edge .lo 300#16, small .rxv3 3#2 1#8, _, rfl, by decide⟩
theorem witness_RawChanges_oneBit : ∃ t : State, exec (.edge .lo 300#16) { oneBit with raw := [(0, 1#8)] } = .next t ∧
    t.raw ≠ [(0, 1#8)] ∧ t.st = .idle ∧ rawBits oneBit.cfg.consts ≤ 1 := ⟨_, rfl, by decide, by decide, by decide⟩
theorem witness_ReadyIsLeftOnlyByReArm : ∃ (i : Instr) (s t : State),
    exec i s = .next t ∧ s.st = .ready ∧ t.st ≠ .ready := ⟨.start, heldM16 3#2, _, rfl, rfl, by decide⟩
theorem witness_RearmStrobe : ∃ (i : Instr) (s t : State), exec i s = .next t ∧ t.rearm = true :=
  ⟨.edge .lo 300#16, small .rxv3 3#2 1#8, _, rfl, by decide⟩
theorem witness_FullResetsAndCauses : ∃ (i : Instr) (c : PulseClass) (s t : State),
    exec i s = .next t ∧ pulseClass i s = some c ∧ resetCause c s = some .syncFailure :=
  ⟨.edge .hi 500#16, .noise, small .rxv3 3#2 39#8, _, rfl, by decide, by decide⟩
theorem witness_FullResetsAndCauses_other : ∃ (i : Instr) (s t : State),
    exec i s = .next t ∧ pulseClass i s = none ∧ ∀ m, i ≠ .getdata m :=
  ⟨.timeout, small .rxv2 2#2 41#8, _, rfl, rfl, fun _ h => nomatch h⟩
theorem witness_StepConsumesOneCommand : ∃ s t : State, step s = .next t ∧ s.pending ≠ [] :=
  ⟨offered 0x40000000#32 State.reset, _, rfl, by decide⟩
theorem witness_DedupAndOutput : ∃ (i : Instr) (s t : State),
    exec i s = .next t ∧ i ≠ .init ∧ t.dd ≠ s.dd ∧ t.out ≠ s.out :=
  ⟨.getdata 18#7, { heldM16 2#2 with now := 5000 }, _, rfl, by decide, by decide, by decide⟩
theorem witness_AvailReportsReady : ∃ s u : State, s.st = .ready ∧ u.st ≠ .ready :=
  ⟨heldM16 3#2, State.reset, rfl, by decide⟩
theorem witness_StartReArms : ∃ s u : State, s.st = .ready ∧ u.st ≠ .ready :=
  ⟨heldM16 2#2, small .rxv3 3#2 12#8, rfl, by decide⟩
/-- Both sides of the bound: cur = 41 and cur = 40. -/
theorem witness_TimeoutEndsLongMessages : ∃ s u : State,
    (s.cfg.timeoutEffect = .effective ∧ (s.st = .rxv3 ∨ s.st = .rxv2) ∧ s.cfg.consts.minBitsTmo < s.cur.toNat) ∧
    ¬(u.cfg.timeoutEffect = .effective ∧ (u.st = .rxv3 ∨ u.st = .rxv2) ∧
      u.cfg.consts.minBitsTmo < u.cur.toNat) :=
  ⟨small .rxv2 2#2 41#8, small .rxv2 2#2 40#8, by decide, by decide⟩
theorem witness_UnarmedTimeoutHasNoEffect : ∃ s : State,
    Invariant s ∧ s.st.receiving = true ∧ s.armed = false ∧ s.cfg.timeoutEffect = .effective :=
  ⟨small .rxv2 2#2 40#8, unarmed_invariant, rfl, rfl, rfl⟩
theorem witness_PseudoPulsesYieldTheirClass : ∃ (c : Config) (ph : Phase),
    c.wf = true ∧ (triple c ph).t0 < (triple c ph).t1 ∧ (triple c ph).t1 < (triple c ph).t2 :=
  ⟨Config.tp, .hi, by decide, by decide, by decide⟩
theorem witness_CaptureIsEdgeOfElapsed : ∃ s u : State,
    (s.cfg.ovf1Mode = .modular ∧ u.cfg.ovf1Mode = .clamp) ∧
    (0#2).toNat = 0 ∧ (1#2).toNat = 1 ∧ 2 ≤ (2#2).toNat ∧ 2 ≤ (3#2).toNat :=
  ⟨State.reset, State.afterInit { Config.tp with ovf1Mode := .clamp }, by decide⟩
theorem witness_MaximumWidthIsNoise : ∃ c : Config, c.wf = true ∧ c.thrHi.t2 = 0xFFFF#16 :=
  ⟨{ Config.tp with thrHi := { t0 := 1#16, t1 := 2#16, t2 := 0xFFFF#16 } }, by decide⟩
theorem witness_EdgeInReadyDiscarded : ∃ s : State, s.st = .ready := ⟨heldM16 3#2, rfl⟩
theorem witness_PulseFrame : ∃ (i : Instr) (c : PulseClass) (s t : State),
    pulseClass i s = some c ∧ exec i s = .next t ∧ rawTarget c s = some 1 ∧ s.st.receiving = true ∧ t.st ≠ .idle :=
  ⟨.edge .hi 100#16, .short, { small .rxv3 3#2 5#8 with pend := true }, _, by decide, rfl, by decide, rfl, by decide⟩
theorem witness_PulseFrame_ready : ∃ (i : Instr) (c : PulseClass) (s t : State),
    pulseClass i s = some c ∧ exec i s = .next t ∧ rawTarget c s = none ∧ s.st = .ready :=
  ⟨.capture 0#2 .hi 100#16, .short, heldM16 3#2, _, by decide, rfl, by decide, rfl⟩

/-- IDLE with the two counters (R121, R122). -/
def idleAt (short long : Nat) : State := { State.reset with shortCnt := short, longCnt := long }

/-- Boundary counts: (1, 26) commits; (0, 0) counts; (0, 25) and (2, 26) raise. -/
theorem witness_IdleShort : classify Config.tp .hi 100#16 = .short ∧
    ((idleAt 1 26).shortCnt ≤ 1 ∧ (idleAt 1 26).cfg.consts.v2Pre < (idleAt 1 26).longCnt) ∧
    (¬((idleAt 0 0).shortCnt ≤ 1 ∧ (idleAt 0 0).cfg.consts.v2Pre < (idleAt 0 0).longCnt) ∧
      (idleAt 0 0).longCnt = 0) ∧
    (¬((idleAt 0 25).shortCnt ≤ 1 ∧ (idleAt 0 25).cfg.consts.v2Pre < (idleAt 0 25).longCnt) ∧
      (idleAt 0 25).longCnt ≠ 0) ∧
    ¬((idleAt 2 26).shortCnt ≤ 1 ∧ (idleAt 2 26).cfg.consts.v2Pre < (idleAt 2 26).longCnt) := by decide
/-- Boundary counts: 21 commits, and overflows where RAW holds one bit; 1 counts; 2 and 20 raise. -/
theorem witness_IdleLong : classify Config.tp .lo 499#16 = .long ∧
    ((idleAt 21 0).cfg.consts = Constants.source ∧ (idleAt 21 0).cfg.consts.v3Pre < (idleAt 21 0).shortCnt ∧
      1 < rawBits (idleAt 21 0).cfg.consts) ∧
    (oneBit.cfg.consts.v3Pre < oneBit.shortCnt ∧ rawBits oneBit.cfg.consts ≤ 1) ∧
    (¬(idleAt 1 0).cfg.consts.v3Pre < (idleAt 1 0).shortCnt ∧ (idleAt 1 0).shortCnt ≤ 1) ∧
    (¬(idleAt 2 0).cfg.consts.v3Pre < (idleAt 2 0).shortCnt ∧ ¬(idleAt 2 0).shortCnt ≤ 1) ∧
    (¬(idleAt 20 0).cfg.consts.v3Pre < (idleAt 20 0).shortCnt ∧ ¬(idleAt 20 0).shortCnt ≤ 1) := by decide
theorem witness_IdleNoise : State.reset.st = .idle ∧ classify State.reset.cfg .hi 99#16 = .noise := by decide
/-- The first and the last position of a nibble, the first and the last cursor. -/
theorem witness_BitWritePlacement : (heldM16 3#2).raw.wf = true ∧ (heldM16 3#2).raw.nibbles = true ∧
    (0#8).toNat % 4 = 0 ∧ (255#8).toNat % 4 ≠ 0 := by decide
/-- A state for each clause of ReceiveShort: (pend, psp, dump, cur) in RXV2, then RXV3, then both at cur = 255. -/
def rx (v : ProtocolState) (pend psp dump : Bool) (cur : BitVec 8) : State :=
  { small v (if v = .rxv2 then 2#2 else 3#2) cur with pend := pend, psp := psp, dump := dump }

theorem witness_ReceiveShort : classify Config.tp .hi 299#16 = .short ∧
    (rx .rxv2 false false true 0#8).pend = false ∧
    ((rx .rxv2 true true false 9#8).pend = true ∧ (rx .rxv2 true true false 9#8).psp = true) ∧
    ((rx .rxv2 true false true 0#8).psp = false ∧ (rx .rxv2 true false true 0#8).dump = true) ∧
    ((rx .rxv2 true false false 254#8).dump = false ∧ (rx .rxv2 true false false 254#8).cur.toNat + 1 < rawBits Config.tp.consts) ∧
    ((rx .rxv3 true false false 254#8).st = .rxv3 ∧ (rx .rxv3 true false false 254#8).cur.toNat + 1 < rawBits Config.tp.consts) ∧
    (((rx .rxv2 true false false 255#8).st = .rxv2 → (rx .rxv2 true false false 255#8).psp = false ∧
      (rx .rxv2 true false false 255#8).dump = false) ∧
      rawBits Config.tp.consts ≤ (rx .rxv2 true false false 255#8).cur.toNat + 1) ∧
    (rx .rxv2 true false false 255#8).cfg.consts = Constants.source := by decide
theorem witness_ReceiveLong : classify Config.tp .hi 300#16 = .long ∧
    (rx .rxv3 true false false 1#8).pend = true ∧
    ((rx .rxv2 false true true 9#8).pend = false ∧ (rx .rxv2 false true true 9#8).dump = true) ∧
    ((rx .rxv2 false false false 254#8).dump = false ∧ (rx .rxv2 false false false 254#8).cur.toNat + 1 < rawBits Config.tp.consts) ∧
    ((rx .rxv3 false false false 254#8).st = .rxv3 ∧ (rx .rxv3 false false false 254#8).cur.toNat + 1 < rawBits Config.tp.consts) ∧
    ((rx .rxv3 false false false 255#8).pend = false ∧ rawBits Config.tp.consts ≤ (rx .rxv3 false false false 255#8).cur.toNat + 1) ∧
    (rx .rxv3 false false false 255#8).cfg.consts = Constants.source := by decide
/-- Both sides of the bound: cur = 40 and cur = 39. -/
theorem witness_ReceiveNoise : classify Config.tp .lo 500#16 = .noise ∧
    (small .rxv3 3#2 40#8).cfg.consts.minBitsNoise ≤ (small .rxv3 3#2 40#8).cur.toNat ∧
    (small .rxv2 2#2 39#8).cur.toNat < (small .rxv2 2#2 39#8).cfg.consts.minBitsNoise := by decide

/-- The pulses of a train under TP. -/
def pulsesOf (l : List PulseClass) : List (Phase × Ticks) :=
  l.map fun c => (.hi, match c with | .short => 100#16 | .long => 300#16 | .noise => 500#16)

theorem witness_V3TrainWritesMessage : ∃ (s : State) (ps : List (Phase × Ticks)) (k : Nat) (bits : List Bool),
    s.st = .idle ∧ s.shortCnt = 0 ∧ s.longCnt = 0 ∧ s.raw.wf = true ∧ s.cfg.consts.v3Pre < k ∧
    s.cfg.consts.v3Pre < 2 ^ s.cfg.cntW - 1 ∧ bits.length + 1 < rawBits s.cfg.consts ∧ classes s.cfg ps = v3Train k bits :=
  ⟨State.reset, pulsesOf (v3Train 21 [true, true, false]), 21, [true, true, false], by decide⟩
theorem witness_V2TrainWritesMessage : ∃ (s : State) (ps : List (Phase × Ticks)) (k : Nat) (bits : List Bool),
    s.st = .idle ∧ s.shortCnt = 0 ∧ s.longCnt = 0 ∧ s.raw.wf = true ∧ s.cfg.consts.v2Pre < k ∧
    s.cfg.consts.v2Pre < 2 ^ s.cfg.cntW - 1 ∧ bits.length + 1 < rawBits s.cfg.consts ∧ classes s.cfg ps = v2Train k bits :=
  ⟨State.reset, pulsesOf (v2Train 26 [true, true, false]), 26, [true, true, false], by decide⟩

/-- Each way to be turned away; MAXLEN = 15 is one below the packet's 16 nibbles. -/
theorem witness_GetdataTurnedAway : State.reset.st ≠ .ready ∧
    (15#7).toNat < ((heldM16 3#2).cur.toNat + 3) / 4 := by decide
/-- The last written and the first unwritten byte; both modes. -/
theorem witness_SnapshotBytes : (heldM16 3#2).cfg.staleMode = .retained ∧ 15 < ((heldM16 3#2).cur.toNat + 3) / 4 ∧
    ((heldM16 3#2).cur.toNat + 3) / 4 ≤ 16 ∧
    (State.afterInit { Config.tp with staleMode := .any }).cfg.staleMode = .any := by decide

/-- Copy A of ten nibbles (its sum of nibbles 1 to 5 is 0x13, the checksum at 6 is 0x10 + `low`), four 0xF nibbles, a
sync nibble at 14; the rest zero. -/
def doubledWith (first low : Byte) : Memory :=
  [(0, first), (1, 1#8), (2, 2#8), (3, 3#8), (4, 4#8), (5, 9#8), (6, low), (7, 1#8), (8, 5#8), (9, 6#8), (10, 15#8),
    (11, 15#8), (12, 15#8), (13, 15#8), (14, 10#8)]

/-- The same with the checksum good. -/
def doubled (first : Byte) : Memory := doubledWith first 3#8

theorem doubled_marks (b : Byte) : MarksSecondCopy (doubled b) 14 := ⟨rfl, rfl, rfl, rfl, rfl⟩

theorem witness_DupScanFindsSecondCopy : ∃ (w : Memory) (n : Nat), w.nibbles = true ∧ n ≤ 64 ∧
    dupScan Constants.source w n = .ok (some 14) := ⟨doubled 10#8, 28, by decide, by decide, rfl⟩
theorem witness_SpliceCopiesSecondCopy : ∃ (w : Memory) (off m : Nat), w.wf = true ∧ off + m ≤ 64 :=
  ⟨doubled 11#8, 14, 50, by decide, by decide⟩
/-- The first and the last position, and one outside on each side. -/
theorem witness_ChecksumTest : m16.nibbles = true ∧ ((1 : Int) ≤ 1 ∧ (1 : Int) ≤ 60) ∧ ((1 : Int) ≤ 60 ∧ (60 : Int) ≤ 60) ∧
    ((0 : Int) < 1 ∨ (60 : Int) < 0) ∧ ((61 : Int) < 1 ∨ (60 : Int) < 61) := by decide
/-- M16, n = 16: positions 12 and 13 fail, 14 passes (95_test_vectors.md section 2.7). -/
theorem witness_RecoverTriesThreePositions :
    checksum Constants.source m16 (16 - 4) = .ok false ∧ checksum Constants.source m16 (16 - 3) = .ok false ∧
    checksum Constants.source m16 (16 - 2) = .ok true := ⟨rfl, rfl, rfl⟩
/-- The ten-nibble message with eight bits lost: cur = 32, p = 6. -/
theorem witness_BitLossIsRecovered : ∃ (w : Memory) (p k : Nat) (cur : BitVec 8),
    w.nibbles = true ∧ w.byte 0 = 0x0A#8 ∧ 1 ≤ p ∧ p ≤ 60 ∧ k ≤ 8 ∧ cur.toNat + k = 4 * (p + 4) ∧
    findSecondCopy Constants.source w ((cur.toNat + 3) / 4) = .ok none ∧ ChecksumHolds w p ∧
    (∀ q, (cur.toNat + 3) / 4 ≤ q + 4 → 1 ≤ q → q < p → ¬ ChecksumHolds w q) := by
  refine ⟨doubled 10#8, 6, 8, 32#8, by decide, rfl, by decide, by decide, by decide, by decide, rfl,
    by unfold ChecksumHolds; decide, fun q h1 _ h3 => ?_⟩
  have h4 : 4 ≤ q := by simpa using h1
  have h5 : q = 4 ∨ q = 5 := by omega
  rcases h5 with rfl | rfl <;> unfold ChecksumHolds <;> decide
/-- a = 10 is the least length of copy A; 28 is the least length that is scanned. -/
theorem witness_DoubleTransmissionSplit_first : (doubled 10#8).wf = true ∧ (doubled 10#8).nibbles = true ∧ 10 ≤ 10 ∧
    27 < 10 + 4 + 14 ∧ 10 + 4 + 14 ≤ 64 ∧ MarksSecondCopy (doubled 10#8) (10 + 4) ∧
    (∀ j, 14 ≤ j → j < 10 + 4 → ¬ MarksSecondCopy (doubled 10#8) j) ∧ (doubled 10#8).byte 0 = 0x0A#8 ∧
    ChecksumHolds (doubled 10#8) (10 - 4) :=
  ⟨by decide, by decide, by decide, by decide, by decide, doubled_marks _, fun j h1 h2 => by omega, rfl,
    by unfold ChecksumHolds; decide⟩
theorem witness_DoubleTransmissionSplit_second : (doubled 11#8).wf = true ∧ (doubled 11#8).nibbles = true ∧
    MarksSecondCopy (doubled 11#8) (10 + 4) ∧ (∀ j, 14 ≤ j → j < 10 + 4 → ¬ MarksSecondCopy (doubled 11#8) j) ∧
    (doubled 11#8).byte 0 ≠ 0x0A#8 ∧ 5 ≤ 14 ∧
    ∃ w', splice (doubled 11#8) (10 + 4) 14 = .ok w' ∧ ChecksumHolds w' (14 - 4) :=
  ⟨by decide, by decide, doubled_marks _, fun j h1 h2 => by omega, by decide, by decide, _, rfl,
    by unfold ChecksumHolds; decide⟩
/-- The fallback of R187: A's sync nibble is valid and none of its positions 6, 7, 8 passes; B passes at once. -/
theorem witness_DoubleTransmissionSplit_fallback : (doubledWith 10#8 4#8).wf = true ∧
    (doubledWith 10#8 4#8).nibbles = true ∧ MarksSecondCopy (doubledWith 10#8 4#8) (10 + 4) ∧
    (doubledWith 10#8 4#8).byte 0 = 0x0A#8 ∧ ¬ ChecksumHolds (doubledWith 10#8 4#8) (10 - 4) ∧
    ¬ ChecksumHolds (doubledWith 10#8 4#8) (10 - 3) ∧ ¬ ChecksumHolds (doubledWith 10#8 4#8) (10 - 2) ∧
    ∃ w', splice (doubledWith 10#8 4#8) (10 + 4) 14 = .ok w' ∧
      recover Constants.source w' (14 : Nat) = .ok (some 14) := by
  refine ⟨by decide, by decide, ⟨rfl, rfl, rfl, rfl, rfl⟩, rfl, ?_, ?_, ?_, _, rfl, rfl⟩ <;>
    unfold ChecksumHolds <;> decide
/-- Neither copy validates: B's nibble 1 is 1. -/
theorem witness_DoubleTransmissionSplit_neither : ∃ w', splice ((doubledWith 10#8 4#8).put 15 1#8) (10 + 4) 14 = .ok w' ∧
    recover Constants.source w' (14 : Nat) = .ok none := ⟨_, rfl, rfl⟩
/-- A's recovery gives a length of its own: 10. -/
theorem witness_DoubleTransmissionSplit_recovered :
    recover Constants.source (doubled 10#8) (10 : Nat) = .ok (some 10) := rfl
theorem witness_DedupComparesAndReplaces : ∃ (len : Nat) (s : State), len ≤ 64 ∧ s.dd.wf = true :=
  ⟨64, { State.reset with dd := m16 }, by decide⟩
/-- The largest difference that reads as elapsed, the smallest that reads as negative, and one inside the obligation. -/
theorem witness_TimeDifferenceIsSigned : Config.tp.timeW = 32 ∧
    (2147483647 + 2 ^ 32 - 0) % 2 ^ 32 < 2 ^ 31 ∧ 2 ^ 31 ≤ (2147483648 + 2 ^ 32 - 0) % 2 ^ 32 ∧
    dedupGapInRange Config.tp 2147483647 0 := by
  refine ⟨rfl, by decide, by decide, by decide, ?_⟩
  decide
/-- MAXLEN equal to the packet's nibbles. -/
theorem witness_GetdataConsumesPacket : (heldM16 3#2).cfg.consts = Constants.source ∧ (heldM16 3#2).st = .ready ∧
    ((heldM16 3#2).cur.toNat + 3) / 4 ≤ (16#7).toNat := by decide

/-- F3: the first nibble is 0 (RAW empty, cur = 40). F4: ten nibbles 0xA (95_test_vectors.md section 2.8). -/
theorem witness_GetdataConsumesPacket_F3_F4 :
    frame Constants.source (snapshot (small .ready 3#2 40#8)) ((40 + 3) / 4) = .ok none ∧
    frame Constants.source
      (snapshot { small .ready 2#2 40#8 with raw := (List.range 10).map fun k => (k, 10#8) }) ((40 + 3) / 4) =
        .ok none := ⟨rfl, rfl⟩
/-- F6: M16 frames with length 18, one above MAXLEN = 17; as V2.1 it is no repeat of an empty DD. -/
theorem witness_GetdataConsumesPacket_F6 : ∃ (w : Memory) (len : Nat),
    frame Constants.source (snapshot (heldM16 2#2)) (((heldM16 2#2).cur.toNat + 3) / 4) = .ok (some (w, len)) ∧
    (17#7).toNat < len ∧ isRepeat (heldM16 2#2) w len ((heldM16 2#2).now % 2 ^ (heldM16 2#2).cfg.timeW) = .ok false ∧
    (heldM16 2#2).dd.wf = true := ⟨_, 18, rfl, by decide, rfl, rfl⟩

/-- READY with M16 as V2.1, the stored packet the same, DT = 0. -/
def repeated (now : Nat) : State := { heldM16 2#2 with dd := m16, now := now }

/-- 1000 ms is no repeat (R188: strictly less). -/
theorem witness_GetdataDeliversFramedPacket : ∃ (s : State) (m : BitVec 7) (w : Memory) (len : Nat),
    s.cfg.consts = Constants.source ∧ s.st = .ready ∧ (s.cur.toNat + 3) / 4 ≤ m.toNat ∧ s.out.wf = true ∧
    s.dd.wf = true ∧ frame s.cfg.consts (snapshot s) ((s.cur.toNat + 3) / 4) = .ok (some (w, len)) ∧ len ≤ m.toNat ∧
    s.ver = 2#2 ∧ isRepeat s w len (s.now % 2 ^ s.cfg.timeW) = .ok false :=
  ⟨repeated 1000, 18#7, _, 18, rfl, rfl, by decide, rfl, by decide, rfl, by decide, rfl, rfl⟩
/-- 999 ms is a repeat. -/
theorem witness_GetdataSuppressesRepeat : ∃ (s : State) (m : BitVec 7) (w : Memory) (len : Nat),
    s.cfg.consts = Constants.source ∧ s.st = .ready ∧ (s.cur.toNat + 3) / 4 ≤ m.toNat ∧ s.dd.wf = true ∧
    frame s.cfg.consts (snapshot s) ((s.cur.toNat + 3) / 4) = .ok (some (w, len)) ∧ s.ver = 2#2 ∧
    isRepeat s w len (s.now % 2 ^ s.cfg.timeW) = .ok true :=
  ⟨repeated 999, 18#7, _, 18, rfl, rfl, by decide, by decide, rfl, rfl, rfl⟩
/-- The ten-nibble message alone. -/
theorem witness_GetdataDeliversIntactMessage : ∃ (s : State) (m : BitVec 7) (n : Nat),
    s.cfg.consts = Constants.source ∧ s.st = .ready ∧ s.ver = 3#2 ∧ n = (s.cur.toNat + 3) / 4 ∧ 5 ≤ n ∧ n ≤ 27 ∧
    n ≤ m.toNat ∧ s.raw.nibbles = true ∧ s.out.wf = true ∧ s.raw.byte 0 = 0x0A#8 ∧ ChecksumHolds s.raw (n - 4) :=
  ⟨{ small .ready 3#2 40#8 with raw := doubled 10#8 }, 10#7, 10, rfl, rfl, rfl, rfl, by decide, by decide, by decide,
    by decide, rfl, rfl, by unfold ChecksumHolds; decide⟩
theorem witness_DeliveredPacketIsValid : ∃ (s t : State) (m : BitVec 7), s.cfg.consts = Constants.source ∧
    BuffersOk s ∧ exec (.getdata m) s = .next t ∧ t.resp ≠ 0#32 :=
  ⟨heldM16 3#2, _, 18#7, rfl, held_invariant.buffers, rfl, by decide⟩
theorem witness_GetdataFrame : ∃ (s t : State) (m : BitVec 7), exec (.getdata m) s = .next t ∧ s.ver ≠ 2#2 ∧
    t.resp = 0#32 ∧ t.trace = s.trace := ⟨heldM16 3#2, _, 15#7, rfl, by decide, by decide, by decide⟩

end Sys2Proof.Machine.Tests
end

section
/-!
PROOFS. The scope of a step (00_scope.md R5, R8, R9): it takes one command off CMD, it leaves the parameter set as it
is, and it refuses an ill-formed one.
-/
namespace Sys2Proof.Machine

/-! ## What a command leaves of its inputs -/

/-- A pulse leaves the parameter set and CMD (R8, R38). -/
theorem pulse_keeps_inputs {c : PulseClass} {s t : State} (h : (pulse c s).outcome = .next t) :
    t.cfg = s.cfg ∧ t.pending = s.pending := by
  have hcase := pulse_case c s
  generalize pulse c s = x at h hcase
  cases hcase <;> cases h <;> exact ⟨rfl, rfl⟩

/-- Step 6 leaves the parameter set and CMD: it writes DD and DT at most (R188). -/
theorem dedupStep_keeps_inputs {v : BitVec 2} {w : Memory} {len t : Nat} {s s' : State} {ok : Bool}
    (h : dedupStep v w len t s = .ok (ok, s')) : s'.cfg = s.cfg ∧ s'.pending = s.pending := by
  obtain ⟨-, -, rfl⟩ | ⟨-, -, dd, -, rfl⟩ := dedupStep_cases h
  · exact ⟨rfl, rfl⟩
  · exact ⟨rfl, rfl⟩

/-- The steps after the snapshot leave the parameter set and CMD, whether they fail or deliver (R180). -/
theorem readPacket_keeps_inputs {maxLen : Nat} {v : BitVec 2} {t : Nat} {w : Memory} {n : Nat} {s s' : State}
    (h : readPacket maxLen v t w n s = .ok s') : s'.cfg = s.cfg ∧ s'.pending = s.pending := by
  obtain ⟨-, rfl⟩ | ⟨w', len, ok, s1, -, hdedup, hend⟩ := readPacket_cases h
  · exact ⟨rfl, rfl⟩
  · have hs1 := dedupStep_keeps_inputs hdedup
    obtain ⟨-, rfl⟩ | ⟨-, -, rfl⟩ | ⟨-, -, out, -, rfl⟩ := hend
    · exact hs1
    · exact hs1
    · exact hs1

/-- GETDATA leaves the parameter set and CMD, turned away or not (R180). -/
theorem exec_getdata_keeps_inputs {m : BitVec 7} {s t : State} (h : exec (.getdata m) s = .next t) :
    t.cfg = s.cfg ∧ t.pending = s.pending := by
  obtain rfl | ⟨-, -, hread⟩ := exec_getdata_cases h
  · exact ⟨rfl, rfl⟩
  · simpa using readPacket_keeps_inputs hread

/-- No command changes the parameter set or what stands on CMD behind it (R8, R38). -/
theorem exec_keeps_inputs {i : Instr} {s t : State} (h : exec i s = .next t) :
    t.cfg = s.cfg ∧ t.pending = s.pending := by
  cases hc : pulseClass i s with
  | some c =>
    obtain ⟨p, hp, -⟩ := exec_pulse hc h
    simpa using pulse_keeps_inputs hp
  | none =>
    by_cases hg : ∃ m, i = .getdata m
    · obtain ⟨m, rfl⟩ := hg
      exact exec_getdata_keeps_inputs h
    · obtain ⟨-, -, hcfg, hpending, -⟩ := exec_other hc (not_exists.1 hg) h
      exact ⟨hcfg, hpending⟩

/-- Settles O19: by the cases of a step, the accepted command is gone and its effect leaves CMD and the parameters. -/
theorem stepConsumesOneCommand : Obligations.StepConsumesOneCommand := by
  intro s t h
  obtain ⟨-, ⟨hnil, rfl⟩ | ⟨c, rest, hcons, ⟨i, -, hexec⟩ | ⟨-, rfl⟩⟩⟩ := step_cases h
  · simp [hnil]
  · obtain ⟨hcfg, hpending⟩ := exec_keeps_inputs hexec
    simp [hcfg, hpending, hcons]
  · simp [hcons]

/-! ## Well-formed parameter sets -/

/-- A triple is well-formed iff its thresholds are in order as numbers (R9). -/
theorem thresholds_wf_iff (thr : Thresholds) :
    thr.wf = true ↔ thr.t0.toNat ≤ thr.t1.toNat ∧ thr.t1.toNat ≤ thr.t2.toNat := by
  simp [Thresholds.wf, BitVec.le_def]

/-- A parameter set is well-formed iff both triples are and TW = 16 (R9). -/
theorem config_wf_iff (c : Config) : c.wf = true ↔ c.thrHi.wf = true ∧ c.thrLo.wf = true ∧ c.tw = 16 := by
  simp [Config.wf, and_assoc]

/-- An ill-formed parameter set is refused before any command (R9, log 12). -/
theorem step_refuses {s : State} (h : s.cfg.wf = false) : step s = .refused .illFormedParameters := by
  simp [step, h]

/-- Settles O10: the bound t2 < 2^TW is the type's own once TW = 16. -/
theorem illFormedParametersRefused : Obligations.IllFormedParametersRefused := by
  intro s
  refine ⟨?_, step_refuses⟩
  rw [config_wf_iff, thresholds_wf_iff, thresholds_wf_iff]
  constructor
  · rintro ⟨⟨hi01, hi12⟩, ⟨lo01, lo12⟩, htw⟩
    rw [htw]
    exact ⟨hi01, hi12, s.cfg.thrHi.t2.isLt, lo01, lo12, s.cfg.thrLo.t2.isLt, rfl⟩
  · rintro ⟨hi01, hi12, -, lo01, lo12, -, htw⟩
    exact ⟨⟨hi01, hi12⟩, ⟨lo01, lo12⟩, htw⟩

end Sys2Proof.Machine
end

section
/-!
PROOFS. What the commands do to the state of the block, said once where Laws/ does not: a command that is neither a
pulse nor GETDATA in closed form, and whether a pulse raises a full reset.
-/
namespace Sys2Proof.Machine

/-! ## The commands that are neither a pulse nor GETDATA -/

/-- Every way a command that is neither a pulse nor GETDATA can leave the state `s`, one constructor a case (R170, R220
to R223). -/
inductive ControlCase (s : State) : Instr → State → Prop where
  | clears : ControlCase s .init
      { State.afterInit s.cfg with pending := s.pending, now := s.now, trace := s.trace, draws := s.draws }
  | responds (i : Instr) (r : Word) : i ≠ .init → ControlCase s i (respond r (beginCommand s))
  | reArms : s.st = .ready → ControlCase s .start (respond ackResponse (reArm (beginCommand s)))
  | ends : timeoutEnds s = true →
      ControlCase s .timeout { respond ackResponse (beginCommand s) with armed := false, st := .ready }
  | disarms : timeoutEnds s = false →
      ControlCase s .timeout { respond ackResponse (beginCommand s) with armed := false }

/-- TIMEOUT ends the message or only disarms the timer (R170). -/
theorem execTimeout_case {s t : State} (h : execTimeout s = .next t) : ControlCase s .timeout t := by
  unfold execTimeout at h
  dsimp only at h
  split at h
  · rename_i he
    cases h
    exact .ends he
  · rename_i he
    cases h
    exact .disarms (Bool.eq_false_iff.2 he)

/-- START re-arms in READY and answers RESP only elsewhere (R222). -/
theorem execStart_case {s t : State} (h : execStart s = .next t) : ControlCase s .start t := by
  unfold execStart at h
  split at h
  · cases h
    exact .reArms (by assumption)
  · cases h
    exact .responds _ _ (by simp)

/-- Every command that is neither a pulse nor GETDATA is one of the cases. -/
theorem exec_control_case {i : Instr} {s t : State} (hc : pulseClass i s = none) (hg : ∀ m, i ≠ .getdata m)
    (h : exec i s = .next t) : ControlCase s i t := by
  cases i with
  | edge ph ticks => simp [pulseClass] at hc
  | capture ovf ph cap => simp [pulseClass] at hc
  | getdata m => exact absurd rfl (hg m)
  | init => cases h; exact .clears
  | timeout => exact execTimeout_case h
  | start => exact execStart_case h
  | avail => cases h; exact .responds _ _ (by simp)
  | statusControl => cases h; exact .responds _ _ (by simp)
  | statusCounters => cases h; exact .responds _ _ (by simp)
  | statusCapture => cases h; exact .responds _ _ (by simp)

/-- A command that answers is GETDATA, or its pulse has answered, or it is one of the others. -/
theorem exec_cases {i : Instr} {s t : State} (h : exec i s = .next t) :
    (∃ m, i = .getdata m) ∨
    (∃ c p, pulseClass i s = some c ∧
      (pulse c { s with prevCap := p, resp := 0#32, rearm := false }).outcome = .next t) ∨
    (pulseClass i s = none ∧ (∀ m, i ≠ .getdata m) ∧ ControlCase s i t) := by
  by_cases hg : ∃ m, i = .getdata m
  · exact .inl hg
  · replace hg := not_exists.1 hg
    cases hc : pulseClass i s with
    | some c =>
      obtain ⟨p, hp, -⟩ := exec_pulse hc h
      exact .inr (.inl ⟨c, p, rfl, hp⟩)
    | none => exact .inr (.inr ⟨rfl, hg, exec_control_case hc hg h⟩)

/-- A pulse that ends in `t` is one of the cases, running on or raised. -/
theorem pulse_outcome_case {c : PulseClass} {s t : State} (h : (pulse c s).outcome = .next t) :
    PulseCase c s (.run t) ∨ PulseCase c s (.raised t) := by
  have hcase := pulse_case c s
  cases hx : pulse c s with
  | run u => rw [hx] at h hcase; cases h; exact .inl hcase
  | raised u => rw [hx] at h hcase; cases h; exact .inr hcase
  | fault f => rw [hx] at h; cases h

/-! ## Full resets -/

/-- In a receiving state a Noise raises a full reset iff fewer than MIN_BITS_NOISE bits are held (R144, R242). -/
theorem resetCause_noise {s : State} (hr : s.st.receiving = true) : resetCause .noise s =
    if s.cfg.consts.minBitsNoise ≤ s.cur.toNat then none else some .syncFailure := by
  obtain h | h := (receiving_iff _).1 hr <;> simp [resetCause, h]

/-- In a receiving state a Long raises a full reset iff a Short is pending or its bit overflows RAW (R143, R242). -/
theorem resetCause_long {s : State} (hr : s.st.receiving = true) : resetCause .long s =
    if s.pend then some .structuralViolation
    else if bitIsWritten s ∧ rawBits s.cfg.consts ≤ s.cur.toNat + 1 then some .bufferOverflow else none := by
  obtain h | h := (receiving_iff _).1 hr <;> simp [resetCause, h]

/-- In a receiving state a Short raises a full reset iff it completes a pair that is a violation or whose bit overflows
RAW (R142, R146, R242). -/
theorem resetCause_short {s : State} (hr : s.st.receiving = true) : resetCause .short s =
    if !s.pend then none
    else if s.st = .rxv2 ∧ s.psp then some .structuralViolation
    else if bitIsWritten s ∧ rawBits s.cfg.consts ≤ s.cur.toNat + 1 then some .bufferOverflow else none := by
  obtain h | h := (receiving_iff _).1 hr <;> simp [resetCause, h]

/-- A decoded bit is written unless it is dumped in RXV2 (R145). -/
theorem bitIsWritten_iff (s : State) : bitIsWritten s = true ↔ (s.st = .rxv2 → s.dump = false) := by
  cases hd : s.dump <;> simp [bitIsWritten, hd]

/-- A pulse that raises no full reset is in no row of R242. -/
theorem PulseCase.resetCause_run {c : PulseClass} {s t : State} (h : PulseCase c s (.run t)) :
    resetCause c s = none := by
  cases h
  case discarded hst => simp [resetCause, hst]
  case commit2 hi hc hs hl => simp [resetCause, hi, hc, hs, hl]
  case countShort hi hc hn hl => simp [resetCause, hi, hc, hl]
  case commit3 hi hc hs hcap => simp [resetCause, hi, hc, hs, hcap]
  case countLong hi hc hn hs => simp [resetCause, hi, hc, hn, hs]
  case keep hr hc hp => rw [hc, resetCause_short hr]; simp [hp]
  case shortDumped hr hc hp hst hq hd => rw [hc, resetCause_short hr]; simp [hp, hst, hq, hd, bitIsWritten]
  case shortWritten2 hr hc hp hst hq hd hcap => rw [hc, resetCause_short hr]; simp [hp, hq, hcap]
  case shortWritten3 hr hc hp hst hcap => rw [hc, resetCause_short hr]; simp [hp, hst, hcap]
  case longDumped hr hc hp hst hd => rw [hc, resetCause_long hr]; simp [hp, hst, hd, bitIsWritten]
  case longWritten2 hr hc hp hst hd hcap => rw [hc, resetCause_long hr]; simp [hp, hcap]
  case longWritten3 hr hc hp hst hcap => rw [hc, resetCause_long hr]; simp [hp, hcap]
  case ends hr hc hbits => rw [hc, resetCause_noise hr]; simp [hbits]

/-- A pulse that raises a full reset is in the row of R242 with its cause, and the reset may follow a write to RAW. -/
theorem PulseCase.resetCause_raised {c : PulseClass} {s t : State} (h : PulseCase c s (.raised t)) :
    ∃ cause raw, resetCause c s = some cause ∧ t = fullReset cause { s with raw := raw } := by
  cases h
  case resetShort hi hc hn hl => exact ⟨_, s.raw, by simpa [resetCause, hi, hc, hl] using hn, rfl⟩
  case commit3Overflow hi hc hs hcap => exact ⟨_, _, by simp [resetCause, hi, hc, hs, hcap], rfl⟩
  case resetLong hi hc hn hs => exact ⟨_, s.raw, by simp [resetCause, hi, hc, hn, hs], rfl⟩
  case resetNoise hi hc => exact ⟨_, s.raw, by simp [resetCause, hi, hc], rfl⟩
  case violation hr hc hp hst hq => exact ⟨_, s.raw, by rw [hc, resetCause_short hr]; simp [hp, hst, hq], rfl⟩
  case shortOverflow hr hc hp hw hcap =>
    refine ⟨_, _, ?_, rfl⟩
    have hvalid : ¬(s.st = .rxv2 ∧ s.psp = true) := fun ⟨hst, hq⟩ => by simp [(hw hst).1] at hq
    have hwritten := (bitIsWritten_iff s).2 fun hst => (hw hst).2
    rw [hc, resetCause_short hr, if_neg (by simp [hp]), if_neg hvalid, if_pos ⟨hwritten, hcap⟩]
  case unpaired hr hc hp => exact ⟨_, s.raw, by rw [hc, resetCause_long hr]; simp [hp], rfl⟩
  case longOverflow hr hc hp hw hcap =>
    refine ⟨_, _, ?_, rfl⟩
    rw [hc, resetCause_long hr, if_neg (by simp [hp]), if_pos ⟨(bitIsWritten_iff s).2 hw, hcap⟩]
  case tooShort hr hc hbits => exact ⟨_, s.raw, by rw [hc, resetCause_noise hr]; simp [hbits], rfl⟩

end Sys2Proof.Machine
end

section
/-!
PROOFS. The invariant of the block (10_state.md R41 and its neighbours): what keeps the buffers in form, the shapes of
state that meet the invariant, and that every pulse, GETDATA, command and step ends in one of them.
-/
namespace Sys2Proof.Machine

/-! ## The buffers -/

/-- The condition on the buffers reads nothing but the buffers. -/
theorem BuffersOk.of_eq {s t : State} (h : BuffersOk s) (hraw : t.raw = s.raw) (hdd : t.dd = s.dd)
    (hout : t.out = s.out) : BuffersOk t where
  raw_wf := hraw ▸ h.raw_wf
  dd_wf := hdd ▸ h.dd_wf
  out_wf := hout ▸ h.out_wf
  raw_nibbles := hraw ▸ h.raw_nibbles
  dd_nibbles := hdd ▸ h.dd_nibbles
  out_nibbles := hout ▸ h.out_nibbles

/-- A nibble written inside RAW keeps the buffers in form (R60, R63). -/
theorem BuffersOk.put_raw {s : State} (h : BuffersOk s) {k : Nat} {v : Byte} (hk : k < bufBytes) (hv : v < 16#8) :
    BuffersOk { s with raw := s.raw.put k v } :=
  { h with raw_wf := Memory.wf_put hk h.raw_wf, raw_nibbles := Memory.nibbles_put hv h.raw_nibbles }

/-- The bit write keeps the buffers in form (R62, R63). -/
theorem BuffersOk.write_bit {s : State} (h : BuffersOk s) (b : Bool) :
    BuffersOk { s with raw := rawAfterBit b s } := by
  refine h.put_raw (nibIndex_lt s.cur) ?_
  split
  · exact byteOfBit_lt b
  · exact setBit_lt (Memory.byte_lt_of_nibbles h.raw_nibbles _) (bitIndex_lt s.cur)

/-- A saturating counter stays CNT_W bits wide (R125). -/
theorem countUp_lt (c : Config) (x : Nat) : countUp c x < 2 ^ c.cntW := by
  have := Nat.two_pow_pos c.cntW
  unfold countUp
  omega

/-! ## States that meet the invariant -/

/-- The invariant reads none of the inputs, RESP, REARM, prevCap, the trace and the counter of draws. -/
theorem Invariant.with_ports {s : State} (h : Invariant s) (pending : List CommandIn) (now : Nat) (prevCap : Ticks)
    (resp : Word) (rearm : Bool) (trace : List Cause) (draws : Nat) :
    Invariant
      { s with
        pending := pending, now := now, prevCap := prevCap, resp := resp, rearm := rearm, trace := trace,
        draws := draws } :=
  { h with buffers := h.buffers.of_eq rfl rfl rfl, idle := fun hi => { h.idle hi with } }

/-- An IDLE state meets the invariant when it is clear and its counters and timestamp are in range (R41). -/
theorem Invariant.of_idle {t : State} (hst : t.st = .idle) (buffers : BuffersOk t) (clear : IdleClear t)
    (counts : 0 < t.longCnt → t.shortCnt ≤ 1) (short_width : t.shortCnt < 2 ^ t.cfg.cntW)
    (long_width : t.longCnt < 2 ^ t.cfg.cntW) (dt_width : t.dt < 2 ^ t.cfg.timeW) : Invariant t where
  buffers := buffers
  idle _ := clear
  cursor_inside hpos := by simpa [clear.cur] using hpos
  rxv3 h := by simp [hst] at h
  rxv2 h := by simp [hst] at h
  ready_ver h := by simp [hst] at h
  ready_disarmed h := by simp [hst] at h
  ready_bits h := by simp [hst] at h
  idle_counts _ := counts
  short_width := short_width
  long_width := long_width
  dt_width := dt_width
  unarmed_short _ h := by simp [hst, ProtocolState.receiving] at h

/-- In a receiving state `ver` is the version being received (R41 (d)). -/
def VersionOk (s : State) : Prop := s.st = .rxv3 ∧ s.ver = 3#2 ∨ s.st = .rxv2 ∧ s.ver = 2#2

/-- The invariant gives a receiving state its version (R41 (d)). -/
theorem Invariant.versionOk {s : State} (h : Invariant s) (hr : s.st.receiving = true) : VersionOk s :=
  ((receiving_iff _).1 hr).imp (fun h3 => ⟨h3, h.rxv3 h3⟩) (fun h2 => ⟨h2, h.rxv2 h2⟩)

/-- A receiving state meets the invariant when its version is the one being received, its cursor is inside the capacity,
its timer is armed and its counters and timestamp are in range (R41, R172). -/
theorem Invariant.of_receiving {t : State} (version : VersionOk t) (armed : t.armed = true) (buffers : BuffersOk t)
    (cursor : 0 < rawBits t.cfg.consts → t.cur.toNat < rawBits t.cfg.consts)
    (short_width : t.shortCnt < 2 ^ t.cfg.cntW) (long_width : t.longCnt < 2 ^ t.cfg.cntW)
    (dt_width : t.dt < 2 ^ t.cfg.timeW) : Invariant t := by
  have hidle : t.st ≠ .idle := by obtain ⟨hst, -⟩ | ⟨hst, -⟩ := version <;> simp [hst]
  have hready : t.st ≠ .ready := by obtain ⟨hst, -⟩ | ⟨hst, -⟩ := version <;> simp [hst]
  exact {
    buffers := buffers
    idle := fun h => absurd h hidle
    cursor_inside := cursor
    rxv3 := fun h => by simpa [VersionOk, h] using version
    rxv2 := fun h => by simpa [VersionOk, h] using version
    ready_ver := fun h => absurd h hready
    ready_disarmed := fun h => absurd h hready
    ready_bits := fun h => absurd h hready
    idle_counts := fun h => absurd h hidle
    short_width := short_width
    long_width := long_width
    dt_width := dt_width
    unarmed_short := fun _ _ h => by simp [armed] at h }

/-- A message that ends in a receiving state with enough bits is a held packet of the invariant (R144, R170). -/
theorem Invariant.to_ready {s : State} (h : Invariant s) (hr : s.st.receiving = true)
    (bits : s.cfg.consts.minBitsNoise ≤ s.cur.toNat ∨ s.cfg.consts.minBitsTmo < s.cur.toNat) :
    Invariant { s with st := .ready, armed := false } where
  buffers := h.buffers.of_eq rfl rfl rfl
  idle hst := by cases hst
  cursor_inside := h.cursor_inside
  rxv3 hst := by cases hst
  rxv2 hst := by cases hst
  ready_ver _ := (h.versionOk hr).symm.imp And.right And.right
  ready_disarmed _ := rfl
  ready_bits _ := bits
  idle_counts hst := by cases hst
  short_width := h.short_width
  long_width := h.long_width
  dt_width := h.dt_width
  unarmed_short _ hst := by cases hst

/-- The register changes of FullReset and ReArm end in a state of the invariant (R245, R246). -/
theorem invariant_clearDecoder {s : State} (buffers : BuffersOk s) (dt_width : s.dt < 2 ^ s.cfg.timeW) :
    Invariant (clearDecoder s) :=
  .of_idle rfl (buffers.of_eq rfl rfl rfl) ⟨rfl, rfl, rfl, rfl, rfl, rfl, rfl⟩ (fun _ => Nat.zero_le 1)
    (Nat.two_pow_pos _) (Nat.two_pow_pos _) dt_width

/-- A full reset ends in a state of the invariant (R245). -/
theorem invariant_fullReset (cause : Cause) {s : State} (buffers : BuffersOk s) (dt_width : s.dt < 2 ^ s.cfg.timeW) :
    Invariant (fullReset cause s) :=
  (invariant_clearDecoder buffers dt_width).with_ports _ _ _ _ _ _ _

/-- The state after INIT meets the invariant (R220, R271). -/
theorem invariant_afterInit (c : Config) : Invariant (State.afterInit c) :=
  invariant_clearDecoder (s := State.afterInit c) ⟨rfl, rfl, rfl, rfl, rfl, rfl⟩ (Nat.two_pow_pos _)

/-! ## Pulses -/

/-- A pulse that only moves the flags of a receiving state and re-arms the timer keeps the invariant (R142, R145). -/
theorem Invariant.arm_flags {s : State} (h : Invariant s) (hr : s.st.receiving = true) (pend lastBit dump psp : Bool) :
    Invariant (armTimer { s with pend := pend, lastBit := lastBit, dump := dump, psp := psp }) :=
  .of_receiving (h.versionOk hr) rfl (h.buffers.of_eq rfl rfl rfl) h.cursor_inside h.short_width h.long_width h.dt_width

/-- A pulse that writes a bit below the capacity in a receiving state keeps the invariant (R62, R147). -/
theorem Invariant.arm_written {s : State} (h : Invariant s) (hr : s.st.receiving = true)
    (hc : s.cur.toNat + 1 < rawBits s.cfg.consts) (b pend lastBit dump psp : Bool) :
    Invariant (armTimer
      { s with
        pend := pend, lastBit := lastBit, dump := dump, psp := psp, raw := rawAfterBit b s, cur := s.cur + 1#8 }) := by
  have hcur : (s.cur + 1#8).toNat = s.cur.toNat + 1 := by
    have := rawBits_le s.cfg.consts
    rw [BitVec.toNat_add, BitVec.toNat_ofNat]
    omega
  refine .of_receiving (h.versionOk hr) rfl ((h.buffers.write_bit b).of_eq rfl rfl rfl) (fun _ => ?_) h.short_width
    h.long_width h.dt_width
  simpa [hcur] using hc

/-- A full reset after an overflowing bit write ends in a state of the invariant (R147). -/
theorem Invariant.overflow {s : State} (h : Invariant s) (b : Bool) :
    Invariant (fullReset .bufferOverflow { s with raw := rawAfterBit b s }) :=
  invariant_fullReset _ (h.buffers.write_bit b) h.dt_width

/-- A full reset from a state of the invariant ends in one. -/
theorem Invariant.reset {s : State} (h : Invariant s) (cause : Cause) : Invariant (fullReset cause s) :=
  invariant_fullReset cause h.buffers h.dt_width

/-- Every pulse keeps the invariant: it counts in IDLE, commits, moves or writes a bit, ends the message, or resets. -/
theorem pulse_keeps_invariant {c : PulseClass} {s t : State} (h : Invariant s) (ht : (pulse c s).outcome = .next t) :
    Invariant t := by
  have sync_written : BuffersOk { s with raw := s.raw.put 0 0#8 } := h.buffers.put_raw (by decide) (by decide)
  have hcase := pulse_case c s
  generalize pulse c s = x at ht hcase
  cases hcase <;> cases ht
  case discarded => exact h
  case countShort hi _ _ hl =>
    exact .of_idle hi (h.buffers.of_eq rfl rfl rfl) { h.idle hi with } (fun hpos => by simp [hl] at hpos)
      (countUp_lt _ _) h.long_width h.dt_width
  case countLong hi _ _ hs =>
    exact .of_idle hi (h.buffers.of_eq rfl rfl rfl) { h.idle hi with } (fun _ => hs) h.short_width (countUp_lt _ _)
      h.dt_width
  case commit2 =>
    exact .of_receiving (.inr ⟨rfl, rfl⟩) rfl (h.buffers.of_eq rfl rfl rfl) id h.short_width h.long_width h.dt_width
  case commit3 hcap =>
    exact .of_receiving (.inl ⟨rfl, rfl⟩) rfl (sync_written.of_eq rfl rfl rfl) (fun _ => hcap) h.short_width
      h.long_width h.dt_width
  case commit3Overflow => exact invariant_fullReset _ sync_written h.dt_width
  case keep hr _ _ | shortDumped hr _ _ _ _ _ | longDumped hr _ _ _ _ => exact h.arm_flags hr _ _ _ _
  case shortWritten2 hr _ _ _ _ _ hc | shortWritten3 hr _ _ _ hc | longWritten2 hr _ _ _ _ hc
      | longWritten3 hr _ _ _ hc =>
    exact h.arm_written hr hc _ _ _ _ _
  case shortOverflow | longOverflow => exact h.overflow _
  case ends hr _ hbits => exact h.to_ready hr (.inl hbits)
  case resetShort | resetLong | resetNoise | violation | unpaired | tooShort => exact h.reset _

/-! ## GETDATA -/

/-- The dedup storage may take a buffer in form and a timestamp in range (R33, R188). -/
theorem Invariant.with_dedup {s : State} (h : Invariant s) {dd : Memory} {dt : Nat} (hwf : dd.wf = true)
    (hnib : dd.nibbles = true) (hdt : dt < 2 ^ s.cfg.timeW) : Invariant { s with dd := dd, dt := dt } :=
  { h with
    buffers := { h.buffers with dd_wf := hwf, dd_nibbles := hnib }
    idle := fun hi => { h.idle hi with }
    dt_width := hdt }

/-- OUT may take a buffer in form (R34, R190). -/
theorem Invariant.with_out {s : State} (h : Invariant s) {out : Memory} (hwf : out.wf = true)
    (hnib : out.nibbles = true) : Invariant { s with out := out } :=
  { h with
    buffers := { h.buffers with out_wf := hwf, out_nibbles := hnib }
    idle := fun hi => { h.idle hi with } }

/-- Step 6 keeps the invariant: DD takes nibbles of the packet and DT a time in range (R188). -/
theorem dedupStep_keeps_invariant {v : BitVec 2} {w : Memory} {len t : Nat} {s s' : State} {ok : Bool}
    (h : Invariant s) (hw : w.nibbles = true) (ht : t < 2 ^ s.cfg.timeW)
    (hd : dedupStep v w len t s = .ok (ok, s')) : Invariant s' := by
  obtain ⟨-, -, rfl⟩ | ⟨-, -, dd, hcopy, rfl⟩ := dedupStep_cases hd
  · exact h
  · obtain ⟨-, -, hwf, hnib⟩ := copyBytes_keeps w len hcopy
    exact h.with_dedup (hwf h.buffers.dd_wf) (hnib hw h.buffers.dd_nibbles) ht

/-- The steps after the snapshot keep the invariant, whether they fail or deliver (R180). -/
theorem readPacket_keeps_invariant {maxLen : Nat} {v : BitVec 2} {t : Nat} {w : Memory} {n : Nat} {s s' : State}
    (h : Invariant s) (hw : w.nibbles = true) (ht : t < 2 ^ s.cfg.timeW)
    (hread : readPacket maxLen v t w n s = .ok s') : Invariant s' := by
  obtain ⟨-, rfl⟩ | ⟨w', len, ok, s1, hframe, hdedup, hend⟩ := readPacket_cases hread
  · exact h.with_ports _ _ _ _ _ _ _
  · have hw' := (frame_keeps hframe).2 hw
    have h1 : Invariant s1 := dedupStep_keeps_invariant h hw' ht hdedup
    obtain ⟨-, rfl⟩ | ⟨-, -, rfl⟩ | ⟨-, -, out, hcopy, rfl⟩ := hend
    · exact h1.with_ports _ _ _ _ _ _ _
    · exact h1.with_ports _ _ _ _ _ _ _
    · obtain ⟨-, -, hwf, hnib⟩ := copyBytes_keeps w' len hcopy
      exact (h1.with_out (hwf h1.buffers.out_wf) (hnib hw' h1.buffers.out_nibbles)).with_ports _ _ _ _ _ _ _

/-- GETDATA keeps the invariant (R180): the re-armed state meets it, and NOW is sampled modulo 2^TIME_W (R189). -/
theorem exec_getdata_keeps_invariant {m : BitVec 7} {s t : State} (h : Invariant s)
    (ht : exec (.getdata m) s = .next t) : Invariant t := by
  obtain rfl | ⟨-, -, hread⟩ := exec_getdata_cases ht
  · exact h.with_ports _ _ _ _ _ _ _
  · have hcleared : Invariant (afterSnapshot (beginCommand s)) :=
      (invariant_clearDecoder h.buffers h.dt_width).with_ports _ _ _ _ _ _ _
    exact readPacket_keeps_invariant hcleared (snapshot_nibbles h.buffers.raw_nibbles)
      (Nat.mod_lt _ (Nat.two_pow_pos _)) hread

/-! ## Commands and steps -/

/-- TIMEOUT ends a message exactly where its effect is on, in a receiving state with more than MIN_BITS_TMO bits
(R170, R173). -/
theorem timeoutEnds_iff (s : State) : timeoutEnds s = true ↔
    s.cfg.timeoutEffect = .effective ∧ s.st.receiving = true ∧ s.cfg.consts.minBitsTmo < s.cur.toNat := by
  simp [timeoutEnds, and_assoc]

/-- Disarming the timer keeps the invariant when TIMEOUT does not end the message: in a receiving state the message is
then short, or TIMEOUT has no effect (R170, R172). -/
theorem Invariant.disarm {s : State} (h : Invariant s) (he : timeoutEnds s = false) :
    Invariant { s with armed := false } :=
  { h with
    buffers := h.buffers.of_eq rfl rfl rfl
    idle := fun hi => { h.idle hi with armed := rfl }
    ready_disarmed := fun _ => rfl
    unarmed_short := fun heff hr _ => Nat.le_of_not_lt fun hlong => by
      rw [(timeoutEnds_iff s).2 ⟨heff, hr, hlong⟩] at he
      cases he }

/-- A command that is neither a pulse nor GETDATA keeps the invariant. -/
theorem ControlCase.keeps_invariant {i : Instr} {s t : State} (h : Invariant s) (hcase : ControlCase s i t) :
    Invariant t := by
  cases hcase with
  | clears => exact (invariant_afterInit s.cfg).with_ports _ _ _ _ _ _ _
  | responds r hi => exact h.with_ports _ _ _ _ _ _ _
  | reArms hst => exact (invariant_clearDecoder h.buffers h.dt_width).with_ports _ _ _ _ _ _ _
  | ends he =>
    obtain ⟨-, hr, hbits⟩ := (timeoutEnds_iff s).1 he
    exact (h.to_ready hr (.inr hbits)).with_ports _ _ _ _ _ _ _
  | disarms he => exact (h.disarm he).with_ports _ _ _ _ _ _ _

/-- Every command keeps the invariant. -/
theorem exec_keeps_invariant {i : Instr} {s t : State} (h : Invariant s) (ht : exec i s = .next t) : Invariant t := by
  obtain ⟨m, rfl⟩ | ⟨c, p, -, hp⟩ | ⟨-, -, hcase⟩ := exec_cases ht
  · exact exec_getdata_keeps_invariant h ht
  · exact pulse_keeps_invariant (h.with_ports _ _ _ _ _ _ _) hp
  · exact hcase.keeps_invariant h

/-- Settles O12: by the cases of a step, and of a command inside it; a waiting step, an accepted command and an illegal
word touch the ports only. -/
theorem stepKeepsInvariant : Obligations.StepKeepsInvariant := by
  intro s t h hstep
  obtain ⟨-, ⟨-, rfl⟩ | ⟨c, rest, -, ⟨i, -, hexec⟩ | ⟨-, rfl⟩⟩⟩ := step_cases hstep
  · exact h.with_ports _ _ _ _ _ _ _
  · have haccepted : Invariant (acceptCommand c rest s) := h.with_ports _ _ _ _ _ _ _
    exact exec_keeps_invariant haccepted hexec
  · exact h.with_ports _ _ _ _ _ _ _

/-- Settles O13: the state after INIT is a cleared one, and State.reset is such a state for the test set TP. -/
theorem resetMeetsInvariant : Obligations.ResetMeetsInvariant :=
  ⟨invariant_afterInit, invariant_afterInit Config.tp⟩

end Sys2Proof.Machine
end

section
/-!
PROOFS. What each command may change (10_state.md R21, R32 to R34, R37): the transitions of the protocol state, who
writes RAW, DD, DT and OUT, and who asserts REARM.
-/
namespace Sys2Proof.Machine

/-! ## What GETDATA leaves unchanged -/

/-- Step 6 touches no register but DD and DT, and these for V2.1 only (R188). -/
theorem dedupStep_frame {v : BitVec 2} {w : Memory} {len t : Nat} {s s' : State} {ok : Bool}
    (h : dedupStep v w len t s = .ok (ok, s')) :
    (s'.st = s.st ∧ s'.rearm = s.rearm ∧ s'.raw = s.raw ∧ s'.out = s.out) ∧
      (v ≠ 2#2 → s'.dd = s.dd ∧ s'.dt = s.dt) := by
  obtain ⟨-, -, rfl⟩ | ⟨hv, -, dd, -, rfl⟩ := dedupStep_cases h
  · exact ⟨⟨rfl, rfl, rfl, rfl⟩, fun _ => ⟨rfl, rfl⟩⟩
  · exact ⟨⟨rfl, rfl, rfl, rfl⟩, fun hne => absurd hv hne⟩

/-- The response of a delivered packet that is not empty is not 0 (R190). -/
theorem packetResponse_ne_zero (v : BitVec 2) {len : Nat} (hpos : 0 < len) (hlt : len < 128) :
    packetResponse v len ≠ 0#32 := by
  intro h
  have hnum := packetResponse_toNat v hlt
  rw [h, BitVec.toNat_ofNat] at hnum
  omega

/-- A copy of no byte changes nothing, so a copy that changes its target is not empty. -/
theorem copyBytes_pos_of_ne {src dst d : Memory} {n : Nat} (h : copyBytes src dst n = .ok d) (hne : d ≠ dst) :
    0 < n := by
  cases n with
  | zero => cases h; exact absurd rfl hne
  | succ n => exact Nat.succ_pos n

/-- The steps after the snapshot leave the protocol state, REARM and RAW, change DD and DT for V2.1 only, and change OUT
with a response that is not 0 only (R180, R188, R190). -/
theorem readPacket_frame {maxLen : Nat} {v : BitVec 2} {t : Nat} {w : Memory} {n : Nat} {s s' : State}
    (h : readPacket maxLen v t w n s = .ok s') :
    (s'.st = s.st ∧ s'.rearm = s.rearm ∧ s'.raw = s.raw) ∧ (v ≠ 2#2 → s'.dd = s.dd ∧ s'.dt = s.dt) ∧
      (s'.out ≠ s.out → s'.resp ≠ 0#32) := by
  obtain ⟨-, rfl⟩ | ⟨w', len, ok, s1, -, hdedup, hend⟩ := readPacket_cases h
  · exact ⟨⟨rfl, rfl, rfl⟩, fun _ => ⟨rfl, rfl⟩, fun hne => absurd rfl hne⟩
  · obtain ⟨⟨hst, hrearm, hraw, hout⟩, hdd⟩ := dedupStep_frame hdedup
    obtain ⟨-, rfl⟩ | ⟨-, -, rfl⟩ | ⟨-, -, out, hcopy, rfl⟩ := hend
    · exact ⟨⟨hst, hrearm, hraw⟩, hdd, fun hne => absurd hout hne⟩
    · exact ⟨⟨hst, hrearm, hraw⟩, hdd, fun hne => absurd hout hne⟩
    · refine ⟨⟨hst, hrearm, hraw⟩, hdd, fun hne => ?_⟩
      have hle := (copyBytes_keeps w' len hcopy).1
      exact packetResponse_ne_zero v (copyBytes_pos_of_ne hcopy (hout ▸ hne)) (by omega)

/-- GETDATA keeps the protocol state or leaves it for IDLE, drives REARM low and leaves RAW (R180, R181). -/
theorem exec_getdata_frame {m : BitVec 7} {s t : State} (h : exec (.getdata m) s = .next t) :
    (t.st = s.st ∨ t.st = .idle) ∧ t.rearm = false ∧ t.raw = s.raw := by
  obtain rfl | ⟨-, -, hread⟩ := exec_getdata_cases h
  · exact ⟨.inl rfl, rfl, rfl⟩
  · obtain ⟨⟨hst, hrearm, hraw⟩, -, -⟩ := readPacket_frame hread
    exact ⟨.inr hst, hrearm, hraw⟩

/-! ## The protocol state -/

/-- The transitions that R21 lists, with the state that stays as it is. -/
def AllowedMove (a b : ProtocolState) : Prop :=
  b = a ∨ b = .idle ∨ (a = .idle ∧ (b = .rxv3 ∨ b = .rxv2)) ∨ (a.receiving = true ∧ b = .ready)

/-- A pulse makes the transitions of R21 only: a commit leaves IDLE, a Noise may end a message, a reset enters IDLE. -/
theorem pulse_allowedMove {c : PulseClass} {s t : State} (h : (pulse c s).outcome = .next t) :
    AllowedMove s.st t.st := by
  obtain hrun | hraised := pulse_outcome_case h
  · cases hrun
    case commit2 hi _ _ _ => exact .inr (.inr (.inl ⟨hi, .inr rfl⟩))
    case commit3 hi _ _ _ => exact .inr (.inr (.inl ⟨hi, .inl rfl⟩))
    case ends hr _ _ => exact .inr (.inr (.inr ⟨hr, rfl⟩))
    all_goals exact .inl rfl
  · obtain ⟨cause, raw, -, rfl⟩ := hraised.resetCause_raised
    exact .inr (.inl rfl)

/-- A command that is neither a pulse nor GETDATA makes the transitions of R21 only. -/
theorem ControlCase.allowedMove {i : Instr} {s t : State} (h : ControlCase s i t) : AllowedMove s.st t.st := by
  cases h with
  | clears => exact .inr (.inl rfl)
  | responds r hi => exact .inl rfl
  | reArms hst => exact .inr (.inl rfl)
  | ends he =>
    obtain ⟨-, hr, -⟩ := (timeoutEnds_iff s).1 he
    exact .inr (.inr (.inr ⟨hr, rfl⟩))
  | disarms he => exact .inl rfl

/-- Every command makes the transitions of R21 only. -/
theorem exec_allowedMove {i : Instr} {s t : State} (h : exec i s = .next t) : AllowedMove s.st t.st := by
  obtain ⟨m, rfl⟩ | ⟨c, p, -, hp⟩ | ⟨-, -, hcase⟩ := exec_cases h
  · exact (exec_getdata_frame h).1.imp id .inl
  · have hmove := pulse_allowedMove hp
    exact hmove
  · exact hcase.allowedMove

/-- Settles O14: by the cases of a step; only a command that runs can move the protocol state. -/
theorem protocolTransitions : Obligations.ProtocolTransitions := by
  intro s t hstep
  obtain ⟨-, ⟨-, rfl⟩ | ⟨c, rest, -, ⟨i, -, hexec⟩ | ⟨-, rfl⟩⟩⟩ := step_cases hstep
  · exact .inl rfl
  · have hmove := exec_allowedMove hexec
    exact hmove
  · exact .inl rfl

/-! ## RAW -/

/-- A pulse writes RAW only in a receiving state or at the V3 commit, which enters RXV3 or, under a capacity of one bit
or none, overflows (R32, R126). -/
theorem pulse_changes_raw {c : PulseClass} {s t : State} (h : (pulse c s).outcome = .next t) (hne : t.raw ≠ s.raw) :
    s.st.receiving = true ∨ (s.st = .idle ∧ (t.st = .rxv3 ∨ rawBits s.cfg.consts ≤ 1)) := by
  refine Decidable.or_iff_not_imp_left.2 fun hr => ?_
  have hcase := pulse_case c s
  generalize pulse c s = x at h hcase
  cases hcase <;> cases h
  case commit3 hi _ _ _ => exact ⟨hi, .inl rfl⟩
  case commit3Overflow hi _ _ hcap => exact ⟨hi, .inr hcap⟩
  case discarded | commit2 | countShort | resetShort | countLong | resetLong | resetNoise => exact absurd rfl hne
  all_goals contradiction

/-- Settles O15: GETDATA and the commands other than INIT leave RAW, and a pulse writes it where it says. -/
theorem rawChangesOnlyWhileReceiving : Obligations.RawChangesOnlyWhileReceiving := by
  intro i s t h hne
  obtain ⟨m, rfl⟩ | ⟨c, p, hc, hp⟩ | ⟨hc, hg, -⟩ := exec_cases h
  · obtain ⟨-, -, hraw⟩ := exec_getdata_frame h
    exact absurd hraw hne
  · have hchange := pulse_changes_raw hp hne
    exact .inr ⟨by simp [hc], hchange⟩
  · obtain ⟨-, -, -, -, hbuffers⟩ := exec_other hc hg h
    exact .inl (Decidable.byContradiction fun hi => hne (hbuffers hi).1)

/-! ## DD, DT and OUT -/

/-- A pulse leaves DD, DT and OUT (R33, R34). -/
theorem pulse_keeps_storage {c : PulseClass} {s t : State} (h : (pulse c s).outcome = .next t) :
    t.dd = s.dd ∧ t.dt = s.dt ∧ t.out = s.out := by
  have hcase := pulse_case c s
  generalize pulse c s = x at h hcase
  cases hcase <;> cases h <;> exact ⟨rfl, rfl, rfl⟩

/-- GETDATA changes DD and DT in READY with ver = 2 only, and OUT in READY with a response that is not 0 only. -/
theorem exec_getdata_changes_storage {m : BitVec 7} {s t : State} (h : exec (.getdata m) s = .next t) :
    ((t.dd ≠ s.dd ∨ t.dt ≠ s.dt) → s.st = .ready ∧ s.ver = 2#2) ∧ (t.out ≠ s.out → s.st = .ready ∧ t.resp ≠ 0#32) := by
  obtain rfl | ⟨hst, -, hread⟩ := exec_getdata_cases h
  · simp
  · obtain ⟨-, hdd, hout⟩ := readPacket_frame hread
    refine ⟨fun hne => ⟨hst, Decidable.byContradiction fun hv => ?_⟩, fun hne => ⟨hst, hout hne⟩⟩
    exact hne.elim (absurd (hdd hv).1) (absurd (hdd hv).2)

/-- Settles O20: pulses and the commands other than INIT and GETDATA leave the three, and GETDATA changes them where it
says. -/
theorem dedupAndOutputChangeOnlyByGetdata : Obligations.DedupAndOutputChangeOnlyByGetdata := by
  intro i s t h hi
  obtain ⟨m, rfl⟩ | ⟨c, p, -, hp⟩ | ⟨hc, hg, -⟩ := exec_cases h
  · obtain ⟨hdedup, hout⟩ := exec_getdata_changes_storage h
    refine ⟨fun hne => ?_, fun hne => ?_⟩
    · obtain ⟨hst, hver⟩ := hdedup hne
      exact ⟨hst, hver, m, rfl⟩
    · obtain ⟨hst, hresp⟩ := hout hne
      exact ⟨hst, hresp, m, rfl⟩
  · obtain ⟨hdd, hdt, hout⟩ := pulse_keeps_storage hp
    exact ⟨fun hne => hne.elim (absurd hdd) (absurd hdt), absurd hout⟩
  · obtain ⟨-, -, -, -, hbuffers⟩ := exec_other hc hg h
    obtain ⟨-, hdd, hdt, hout⟩ := hbuffers hi
    exact ⟨fun hne => hne.elim (absurd hdd) (absurd hdt), absurd hout⟩

/-! ## REARM -/

/-- In a receiving state a pulse that is no Noise arms the timer iff it raises no full reset (R148). -/
theorem armsTimer_receiving {c : PulseClass} {s : State} (hr : s.st.receiving = true) (hc : c ≠ .noise) :
    armsTimer c s = (resetCause c s).isNone := by
  cases c with
  | noise => exact absurd rfl hc
  | short => obtain h | h := (receiving_iff _).1 hr <;> simp [armsTimer, h]
  | long => obtain h | h := (receiving_iff _).1 hr <;> simp [armsTimer, h]

/-- A Noise ends or resets and never arms the timer (R144). -/
theorem armsTimer_noise (s : State) : armsTimer .noise s = false := by
  cases hst : s.st <;> simp [armsTimer, hst]

/-- A pulse that raises a full reset does not arm the timer. -/
theorem armsTimer_of_resetCause {c : PulseClass} {s : State} {cause : Cause} (h : resetCause c s = some cause) :
    armsTimer c s = false := by
  refine Bool.eq_false_iff.2 fun ha => ?_
  cases hst : s.st with
  | ready => simp [armsTimer, hst] at ha
  | rxv3 | rxv2 => cases c <;> simp [armsTimer, hst, h] at ha
  | idle =>
    cases c with
    | noise => exact absurd ha (Bool.eq_false_iff.1 (armsTimer_noise s))
    | short =>
      obtain ⟨hs, hl⟩ : s.shortCnt ≤ 1 ∧ s.cfg.consts.v2Pre < s.longCnt := by simpa [armsTimer, hst] using ha
      simp [resetCause, hst, hs, hl] at h
    | long =>
      obtain ⟨hs, hcap⟩ : s.cfg.consts.v3Pre < s.shortCnt ∧ 1 < rawBits s.cfg.consts := by
        simpa [armsTimer, hst] using ha
      simp [resetCause, hst, hs, Nat.not_le.2 hcap] at h

/-- A pulse that raises no full reset calls ArmTimer, and then leaves an armed receiving state, or leaves REARM alone
(R148, R171). -/
theorem PulseCase.rearm_run {c : PulseClass} {s t : State} (h : PulseCase c s (.run t)) :
    (armsTimer c s = true ∧ t.rearm = true ∧ t.armed = true ∧ t.st.receiving = true) ∨
    (armsTimer c s = false ∧ t.rearm = s.rearm) := by
  have accepted (hr : s.st.receiving = true) (hc : c ≠ .noise) : armsTimer c s = true := by
    rw [armsTimer_receiving hr hc, h.resetCause_run]
    rfl
  cases h
  case discarded hst => exact .inr ⟨by simp [armsTimer, hst], rfl⟩
  case countShort hi hc hn _ => exact .inr ⟨by simpa [armsTimer, hi, hc] using hn, rfl⟩
  case countLong hi hc hn _ => exact .inr ⟨by simp [armsTimer, hi, hc, hn], rfl⟩
  case ends _ hc _ => exact .inr ⟨hc ▸ armsTimer_noise s, rfl⟩
  case commit2 hi hc hs hl => exact .inl ⟨by simp [armsTimer, hi, hc, hs, hl], rfl, rfl, rfl⟩
  case commit3 hi hc hs hcap => exact .inl ⟨by simp [armsTimer, hi, hc, hs, hcap], rfl, rfl, rfl⟩
  case keep hr hc _ | shortDumped hr hc _ _ _ _ | shortWritten2 hr hc _ _ _ _ _ | shortWritten3 hr hc _ _ _
      | longDumped hr hc _ _ _ | longWritten2 hr hc _ _ _ _ | longWritten3 hr hc _ _ _ =>
    exact .inl ⟨accepted hr (by simp [hc]), rfl, rfl, hr⟩

/-- From a state with REARM low a pulse asserts REARM iff it calls ArmTimer (R37, R171). -/
theorem pulse_rearm {c : PulseClass} {s t : State} (h : (pulse c s).outcome = .next t) (hlow : s.rearm = false) :
    t.rearm = armsTimer c s ∧ (t.rearm = true → t.armed = true ∧ t.st.receiving = true) := by
  obtain hrun | hraised := pulse_outcome_case h
  · obtain ⟨harms, hrearm, hleft⟩ | ⟨harms, hrearm⟩ := hrun.rearm_run
    · exact ⟨by rw [hrearm, harms], fun _ => hleft⟩
    · simp [hrearm, harms, hlow]
  · obtain ⟨cause, raw, hrow, rfl⟩ := hraised.resetCause_raised
    simp [armsTimer_of_resetCause hrow, hlow]

/-- Settles O17: every command lowers REARM first, and only a pulse that calls ArmTimer raises it. -/
theorem rearmStrobe : Obligations.RearmStrobe := by
  intro i s t h
  obtain ⟨m, rfl⟩ | ⟨c, p, hc, hp⟩ | ⟨hc, hg, -⟩ := exec_cases h
  · obtain ⟨-, hlow, -⟩ := exec_getdata_frame h
    simp [pulseClass, hlow]
  · have hpulse := pulse_rearm hp rfl
    rw [hc]
    exact hpulse
  · obtain ⟨hlow, -⟩ := exec_other hc hg h
    simp [hc, hlow]

end Sys2Proof.Machine
end

section
/-!
PROOFS. A step runs the command that the oldest word on CMD decodes to (10_state.md R37, R38), and the decoder reads
back the word the encoder writes (30_encoding.md R82 to R90).
-/
namespace Sys2Proof

/-! ## Reading back an encoded command -/

/-- A field is known by its number. -/
theorem Word.field_eq {n start len : Nat} {w : BitVec n} {x : BitVec len}
    (h : w.toNat / 2 ^ start % 2 ^ len = x.toNat) : w.extractLsb' start len = x :=
  BitVec.eq_of_toNat_eq (by rw [Word.toNat_field, h])

/-- EDGE is read back field by field (R83). -/
theorem decode_encode_edge (ph : Phase) (ticks : Ticks) : decode (encode (.edge ph ticks)) = .ok (.edge ph ticks) := by
  have hticks := ticks.isLt
  have hph := (bitOfPhase ph).isLt
  have hnum : (encode (.edge ph ticks)).toNat = 2 ^ 28 + 2 ^ 16 * (bitOfPhase ph).toNat + ticks.toNat := by
    simp only [encode, Word.toNat_cat, BitVec.toNat_ofNat]
    omega
  have hop : ((encode (.edge ph ticks)).extractLsb' 28 4).toNat = 1 := by rw [Word.toNat_field, hnum]; omega
  have hreserved : (encode (.edge ph ticks)).extractLsb' 17 11 = 0#11 :=
    Word.field_eq (by rw [hnum, BitVec.toNat_ofNat]; omega)
  have hphase : (encode (.edge ph ticks)).extractLsb' 16 1 = bitOfPhase ph := Word.field_eq (by rw [hnum]; omega)
  have hwidth : (encode (.edge ph ticks)).extractLsb' 0 16 = ticks := Word.field_eq (by rw [hnum]; omega)
  simp only [decode, hop, hreserved, hphase, hwidth, phaseOfBit_bitOfPhase, ifZero, if_pos]

/-- CAPTURE is read back field by field (R84). -/
theorem decode_encode_capture (ovf : BitVec 2) (ph : Phase) (cap : Ticks) :
    decode (encode (.capture ovf ph cap)) = .ok (.capture ovf ph cap) := by
  have hcap := cap.isLt
  have hph := (bitOfPhase ph).isLt
  have hovf := ovf.isLt
  have hnum : (encode (.capture ovf ph cap)).toNat =
      2 ^ 29 + 2 ^ 18 * ovf.toNat + 2 ^ 16 * (bitOfPhase ph).toNat + cap.toNat := by
    simp only [encode, Word.toNat_cat, BitVec.toNat_ofNat]
    omega
  have hop : ((encode (.capture ovf ph cap)).extractLsb' 28 4).toNat = 2 := by rw [Word.toNat_field, hnum]; omega
  have hhigh : (encode (.capture ovf ph cap)).extractLsb' 20 8 = 0#8 :=
    Word.field_eq (by rw [hnum, BitVec.toNat_ofNat]; omega)
  have hlow : (encode (.capture ovf ph cap)).extractLsb' 17 1 = 0#1 :=
    Word.field_eq (by rw [hnum, BitVec.toNat_ofNat]; omega)
  have hov : (encode (.capture ovf ph cap)).extractLsb' 18 2 = ovf := Word.field_eq (by rw [hnum]; omega)
  have hphase : (encode (.capture ovf ph cap)).extractLsb' 16 1 = bitOfPhase ph := Word.field_eq (by rw [hnum]; omega)
  have hvalue : (encode (.capture ovf ph cap)).extractLsb' 0 16 = cap := Word.field_eq (by rw [hnum]; omega)
  simp only [decode, hop, hov, hphase, hvalue, phaseOfBit_bitOfPhase]
  exact ifZero_eq_ok.2 ⟨by rw [hhigh, hlow]; rfl, rfl⟩

/-- GETDATA is read back field by field (R85). -/
theorem decode_encode_getdata (maxLen : BitVec 7) : decode (encode (.getdata maxLen)) = .ok (.getdata maxLen) := by
  have hlen := maxLen.isLt
  have hhead : (0x5#4 ++ 0#21).toNat = 5 * 2 ^ 21 := rfl
  have hcat : (encode (.getdata maxLen)).toNat = (0x5#4 ++ 0#21).toNat * 2 ^ 7 + maxLen.toNat := Word.toNat_cat _ _
  have hnum : (encode (.getdata maxLen)).toNat = 5 * 2 ^ 28 + maxLen.toNat := by omega
  have hop : ((encode (.getdata maxLen)).extractLsb' 28 4).toNat = 5 := by rw [Word.toNat_field, hnum]; omega
  have hreserved : (encode (.getdata maxLen)).extractLsb' 7 21 = 0#21 :=
    Word.field_eq (by rw [hnum, BitVec.toNat_ofNat]; omega)
  have hvalue : (encode (.getdata maxLen)).extractLsb' 0 7 = maxLen := Word.field_eq (by rw [hnum]; omega)
  simp only [decode, hop, hreserved, hvalue, ifZero, if_pos]

/-- The decoder reads back every command the encoder writes (R82 to R86, R90). -/
theorem decode_encode (i : Instr) : decode (encode i) = .ok i := by
  cases i with
  | edge ph ticks => exact decode_encode_edge ph ticks
  | capture ovf ph cap => exact decode_encode_capture ovf ph cap
  | getdata maxLen => exact decode_encode_getdata maxLen
  | init | timeout | avail | start | statusControl | statusCounters | statusCapture => rfl

/-- The opcode table's number of a 32-bit word is that word (R10). -/
theorem tableWord_toNat (w : Word) : tableWord 32 w.toNat = w := by
  rw [tableWord, Nat.mod_eq_of_lt w.isLt, BitVec.ofNat_toNat, BitVec.setWidth_eq]

end Sys2Proof

namespace Sys2Proof.Machine

/-! ## The step -/

/-- A step on a word that decodes is its command on the state that has accepted it (R37, R38). -/
theorem step_of_decode {s : State} {c : CommandIn} {rest : List CommandIn} {i : Instr} (hwf : s.cfg.wf = true)
    (hp : s.pending = c :: rest) (hd : decode c.cmd = .ok i) : step s = exec i (acceptCommand c rest s) := by
  simp [step, hwf, hp, runWord, hd]

/-- Taking an offered word off CMD again gives the state it was offered on (log 3). -/
theorem acceptCommand_offerWord (w : Word) (s : State) :
    acceptCommand { cmd := w, now := s.now } s.pending (offerWord w s) = s := rfl

/-- Settles O7: the step's own equation, and the offered word decodes to the command it encodes. -/
theorem stepRunsDecodedCommand : Obligations.StepRunsDecodedCommand := by
  refine ⟨fun s c rest i => step_of_decode, fun s i hwf => ?_⟩
  have hstep : step (offerWord (encode i) s) = exec i (acceptCommand _ _ (offerWord (encode i) s)) :=
    step_of_decode hwf (offerWord_pending _ s) (decode_encode i)
  rw [State.withFetchWord, tableWord_toNat, hstep, acceptCommand_offerWord]

end Sys2Proof.Machine
end

section
/-!
PROOFS. The buffers (20_memory.md): no step indexes one outside 0..63 (R60), where a received bit lands in RAW (R61,
R62), and what the snapshot of GETDATA takes from RAW (R74, R181).
-/
namespace Sys2Proof.Machine

/-! ## Every command completes -/

/-- A delivered edge completes in every state and with every parameter set (R100, R147). -/
theorem deliverEdge_completes (ph : Phase) (t : Ticks) (s : State) : ∃ s', deliverEdge ph t s = .next s' := by
  obtain ⟨s', hs', -⟩ := pulse_completes (classify s.cfg ph t) (respond ackResponse (beginCommand s))
  exact ⟨s', hs'⟩

/-- TIMEOUT completes, whether it ends the message or only disarms the timer (R170). -/
theorem execTimeout_completes (s : State) : ∃ s', execTimeout s = .next s' := by
  unfold execTimeout
  dsimp only
  split
  · exact ⟨_, rfl⟩
  · exact ⟨_, rfl⟩

/-- GETDATA completes with the source's constants: it is turned away, or its packet has at most 64 nibbles because cur
is 8 bits wide (R27, R180, R185). -/
theorem execGetdata_completes (m : BitVec 7) {s : State} (hsource : s.cfg.consts = Constants.source) :
    ∃ s', execGetdata m s = .next s' := by
  by_cases haway : s.st ≠ .ready ∨ m.toNat < ceil4 s.cur
  · exact ⟨_, execGetdata_turned_away haway⟩
  · obtain ⟨hready, hfits⟩ := not_or.1 haway
    obtain ⟨s', hread⟩ := readPacket_answers m.toNat s.ver (arrivalTime s) (snapshot s)
      (s := afterSnapshot (beginCommand s)) (ceil4_le s.cur) hsource
    rw [execGetdata_runs (Decidable.not_not.1 hready) (Nat.not_lt.1 hfits), hread]
    exact ⟨s', rfl⟩

/-- With the source's constants every command completes, from every state. -/
theorem exec_completes (i : Instr) {s : State} (hsource : s.cfg.consts = Constants.source) :
    ∃ s', exec i s = .next s' := by
  cases i with
  | edge ph ticks => exact deliverEdge_completes ph ticks s
  | capture ovf ph cap => exact deliverEdge_completes ph _ { s with prevCap := cap }
  | timeout => exact execTimeout_completes s
  | getdata m => exact execGetdata_completes m hsource
  | init => exact ⟨_, rfl⟩
  | avail => exact ⟨_, rfl⟩
  | start => exact ⟨_, rfl⟩
  | statusControl => exact ⟨_, rfl⟩
  | statusCounters => exact ⟨_, rfl⟩
  | statusCapture => exact ⟨_, rfl⟩

/-- With the source's constants every word completes, legal or not (R224). -/
theorem runWord_completes (w : Word) {s : State} (hsource : s.cfg.consts = Constants.source) :
    ∃ s', runWord w s = .next s' := by
  unfold runWord
  split
  · exact exec_completes _ hsource
  · exact ⟨_, rfl⟩

/-- With the source's constants a step on a well-formed parameter set completes. -/
theorem step_completes {s : State} (hwf : s.cfg.wf = true) (hsource : s.cfg.consts = Constants.source) :
    ∃ s', step s = .next s' := by
  unfold step
  rw [if_pos hwf]
  split
  · exact ⟨_, rfl⟩
  · exact runWord_completes _ hsource

/-- Settles O11: an ill-formed parameter set is refused, and with a well-formed one the step completes. -/
theorem stepNeverFaults : Obligations.StepNeverFaults := by
  intro s f hsource hfault
  cases hwf : s.cfg.wf with
  | false => cases (step_refuses hwf).symm.trans hfault
  | true =>
    obtain ⟨s', hnext⟩ := step_completes hwf hsource
    cases hnext.symm.trans hfault

/-! ## The bit write -/

/-- The byte of a bit holds that bit at position 0 and zeros above. -/
theorem byteOfBit_getLsbD (b : Bool) (j : Nat) : (byteOfBit b).getLsbD j = (decide (j = 0) && b) := by
  cases b <;> simp [byteOfBit]

theorem byteOfBit_toNat (b : Bool) : (byteOfBit b).toNat = b.toNat := by
  cases b <;> rfl

/-- The byte of a bit moved to position `i` holds the bit there and zeros elsewhere. -/
theorem byteOfBit_shiftLeft_getLsbD (b : Bool) (i : Nat) {j : Nat} (hj : j < 8) :
    (byteOfBit b <<< i).getLsbD j = (decide (j = i) && b) := by
  have hpos : (!decide (j < i) && decide (j - i = 0)) = decide (j = i) := by
    rw [Bool.eq_iff_iff]
    simp only [Bool.and_eq_true, Bool.not_eq_true', decide_eq_false_iff_not, decide_eq_true_eq]
    omega
  rw [BitVec.getLsbD_shiftLeft, byteOfBit_getLsbD, decide_eq_true hj, Bool.true_and, ← Bool.and_assoc, hpos]

/-- Setting a bit changes that bit and no other (R62). -/
theorem setBit_getLsbD (x : Byte) (i : Nat) (b : Bool) {j : Nat} (hj : j < 8) :
    (setBit x i b).getLsbD j = if j = i then b else x.getLsbD j := by
  have hmask : (1#8 <<< i).getLsbD j = decide (j = i) := by
    simpa [byteOfBit] using byteOfBit_shiftLeft_getLsbD true i hj
  rw [setBit, BitVec.getLsbD_or, BitVec.getLsbD_and, BitVec.getLsbD_not, hmask, byteOfBit_shiftLeft_getLsbD b i hj]
  by_cases hji : j = i
  · simp [hji]
  · simp [hji, hj]

/-- RAW after a bit write, byte by byte: the cursor's byte is written and the others stay (R61, R62). -/
theorem rawAfterBit_byte (b : Bool) {s : State} (hraw : s.raw.wf = true) (k : Nat) :
    (rawAfterBit b s).byte k =
      if k = s.cur.toNat / 4 then
        if s.cur.toNat % 4 = 0 then byteOfBit b else setBit (s.raw.byte (s.cur.toNat / 4)) (s.cur.toNat % 4) b
      else s.raw.byte k := by
  rw [rawAfterBit, Memory.byte_put hraw, nibIndex_eq, bitIndex_eq]

theorem rawAfterBit_wf (b : Bool) {s : State} (hraw : s.raw.wf = true) : (rawAfterBit b s).wf = true :=
  Memory.wf_put (nibIndex_lt s.cur) hraw

/-- The written byte is a nibble again if RAW's bytes are (R62, R63). -/
theorem rawAfterBit_nibbles (b : Bool) {s : State} (hraw : s.raw.nibbles = true) :
    (rawAfterBit b s).nibbles = true := by
  refine Memory.nibbles_put ?_ hraw
  split
  · exact byteOfBit_lt b
  · exact setBit_lt (Memory.byte_lt_of_nibbles hraw _) (bitIndex_lt s.cur)

/-- Settles O39: the cursor's byte is the bit alone at position 0, and one bit of it is set at another position. -/
theorem bitWritePlacement : Obligations.BitWritePlacement := by
  intro b s hraw
  have hbyte := rawAfterBit_byte b hraw
  have hpos : s.cur.toNat % 4 < 8 := by omega
  refine ⟨fun k hk => ?_, ?_, fun hfirst => ?_, fun hlater j hlt hj => ?_, rawAfterBit_wf b hraw, rawAfterBit_nibbles b⟩
  · rw [hbyte, if_neg hk]
  · rw [hbyte, if_pos rfl]
    by_cases hfirst : s.cur.toNat % 4 = 0
    · rw [if_pos hfirst, hfirst, byteOfBit_getLsbD, decide_eq_true rfl, Bool.true_and]
    · rw [if_neg hfirst, setBit_getLsbD _ _ b hpos, if_pos rfl]
  · rw [hbyte, if_pos rfl, if_pos hfirst, byteOfBit_toNat]
  · rw [hbyte, if_pos rfl, if_neg hlater, setBit_getLsbD _ _ b hlt, if_neg hj]

/-! ## The snapshot -/

/-- RETAINED: the snapshot reads RAW (R74). -/
theorem snapshotByte_retained {s : State} (h : s.cfg.staleMode = .retained) (k : Nat) :
    snapshotByte s k = s.raw.byte k := by
  simp [snapshotByte, h]

/-- Below the written nibbles the snapshot reads RAW in both modes (R74, R181). -/
theorem snapshotByte_written {s : State} {k : Nat} (h : k < ceil4 s.cur) : snapshotByte s k = s.raw.byte k := by
  unfold snapshotByte
  split
  · rfl
  · rw [if_pos h]

/-- ANY: from the written nibbles on the snapshot reads a free nibble (R74). -/
theorem snapshotByte_stale {s : State} {k : Nat} (h : s.cfg.staleMode = .any) (hk : ceil4 s.cur ≤ k) :
    snapshotByte s k = (Config.freeNibble (s.draws + k)).setWidth 8 := by
  simp [snapshotByte, h, Nat.not_lt.2 hk]

/-- Settles O46: the snapshot holds what it reads, RAW's byte or a free nibble, which is below 16 whatever it is. -/
theorem snapshotBytes : Obligations.SnapshotBytes := by
  intro s k hk
  rw [snapshot_byte s hk]
  refine ⟨fun hmode => snapshotByte_retained hmode k, snapshotByte_written, fun hmode hstale => ?_⟩
  rw [snapshotByte_stale hmode hstale]
  exact freeNibble_lt _

end Sys2Proof.Machine
end

section
/-!
PROOFS. The encoding (30_encoding.md): the encoder undoes the decoder (R82 to R90), the rows of the opcode map are
disjoint and cover the words the decoder accepts and no others (R87), and which words are illegal (R88).
-/
namespace Sys2Proof

/-! ## The formats: a word is its fields side by side -/

/-- Format N (R82). -/
theorem Word.fields_formatN (w : Word) : w.extractLsb' 28 4 ++ w.extractLsb' 0 28 = w := by
  rw [BitVec.extractLsb'_append_extractLsb'_eq_extractLsb' (by rfl)]
  exact BitVec.extractLsb'_eq_self

/-- Format E (R83). -/
theorem Word.fields_formatE (w : Word) :
    w.extractLsb' 28 4 ++ w.extractLsb' 17 11 ++ w.extractLsb' 16 1 ++ w.extractLsb' 0 16 = w := by
  iterate 3 rw [BitVec.extractLsb'_append_extractLsb'_eq_extractLsb' (by rfl)]
  exact BitVec.extractLsb'_eq_self

/-- Format C (R84). -/
theorem Word.fields_formatC (w : Word) :
    w.extractLsb' 28 4 ++ w.extractLsb' 20 8 ++ w.extractLsb' 18 2 ++ w.extractLsb' 17 1 ++ w.extractLsb' 16 1 ++
      w.extractLsb' 0 16 = w := by
  iterate 5 rw [BitVec.extractLsb'_append_extractLsb'_eq_extractLsb' (by rfl)]
  exact BitVec.extractLsb'_eq_self

/-- Format G (R85). -/
theorem Word.fields_formatG (w : Word) : w.extractLsb' 28 4 ++ w.extractLsb' 7 21 ++ w.extractLsb' 0 7 = w := by
  iterate 2 rw [BitVec.extractLsb'_append_extractLsb'_eq_extractLsb' (by rfl)]
  exact BitVec.extractLsb'_eq_self

/-- Format S (R86). -/
theorem Word.fields_formatS (w : Word) : w.extractLsb' 28 4 ++ w.extractLsb' 2 26 ++ w.extractLsb' 0 2 = w := by
  iterate 2 rw [BitVec.extractLsb'_append_extractLsb'_eq_extractLsb' (by rfl)]
  exact BitVec.extractLsb'_eq_self

/-! ## The decoder, one equation per OP (R87, R90) -/

/-- OP is reserved or one of the eight that have a format (R87). -/
theorem Word.op_cases (w : Word) : 8 ≤ (w.extractLsb' 28 4).toNat ∨ w.extractLsb' 28 4 = 0#4 ∨
    w.extractLsb' 28 4 = 1#4 ∨ w.extractLsb' 28 4 = 2#4 ∨ w.extractLsb' 28 4 = 3#4 ∨ w.extractLsb' 28 4 = 4#4 ∨
    w.extractLsb' 28 4 = 5#4 ∨ w.extractLsb' 28 4 = 6#4 ∨ w.extractLsb' 28 4 = 7#4 := by
  generalize w.extractLsb' 28 4 = op
  revert op
  decide

/-- An OP without a format is illegal whatever else the word holds (R88). -/
theorem decode_reservedOpcode {w : Word} (hop : 8 ≤ (w.extractLsb' 28 4).toNat) :
    decode w = .error .reservedOpcode := by
  unfold decode
  split
  case h_9 => rfl
  all_goals omega

/-- INIT, format N. -/
theorem decode_op0 {w : Word} (hop : w.extractLsb' 28 4 = 0#4) : decode w = ifZero (w.extractLsb' 0 28) .init := by
  rw [decode, hop]
  rfl

/-- EDGE, format E. -/
theorem decode_op1 {w : Word} (hop : w.extractLsb' 28 4 = 1#4) : decode w =
    ifZero (w.extractLsb' 17 11) (.edge (phaseOfBit (w.extractLsb' 16 1)) (w.extractLsb' 0 16)) := by
  rw [decode, hop]
  rfl

/-- CAPTURE, format C, whose reserved bits lie on both sides of OVF. -/
theorem decode_op2 {w : Word} (hop : w.extractLsb' 28 4 = 2#4) : decode w =
    ifZero (w.extractLsb' 20 8 ++ w.extractLsb' 17 1)
      (.capture (w.extractLsb' 18 2) (phaseOfBit (w.extractLsb' 16 1)) (w.extractLsb' 0 16)) := by
  rw [decode, hop]
  rfl

/-- TIMEOUT, format N. -/
theorem decode_op3 {w : Word} (hop : w.extractLsb' 28 4 = 3#4) : decode w = ifZero (w.extractLsb' 0 28) .timeout := by
  rw [decode, hop]
  rfl

/-- AVAIL, format N. -/
theorem decode_op4 {w : Word} (hop : w.extractLsb' 28 4 = 4#4) : decode w = ifZero (w.extractLsb' 0 28) .avail := by
  rw [decode, hop]
  rfl

/-- GETDATA, format G. -/
theorem decode_op5 {w : Word} (hop : w.extractLsb' 28 4 = 5#4) : decode w =
    ifZero (w.extractLsb' 7 21) (.getdata (w.extractLsb' 0 7)) := by
  rw [decode, hop]
  rfl

/-- START, format N. -/
theorem decode_op6 {w : Word} (hop : w.extractLsb' 28 4 = 6#4) : decode w = ifZero (w.extractLsb' 0 28) .start := by
  rw [decode, hop]
  rfl

/-- STATUS, format S. -/
theorem decode_op7 {w : Word} (hop : w.extractLsb' 28 4 = 7#4) : decode w =
    if w.extractLsb' 2 26 = 0#26 then statusOfSel (w.extractLsb' 0 2) else .error .reservedField := by
  rw [decode, hop]
  rfl

/-! ## What the reserved field and the selector admit -/

/-- Where the reserved field decides, a decoded command is the format's and the field is zero (R88). -/
theorem ifZero_ok {n : Nat} {r : BitVec n} {i j : Instr} (h : ifZero r i = .ok j) : r = 0#n ∧ i = j := by
  obtain ⟨hr, hij⟩ := ifZero_eq_ok.1 h
  exact ⟨BitVec.eq_of_toNat_eq hr, hij⟩

/-- A word is turned away on its reserved field iff the field is not zero (R88). -/
theorem ifZero_error_iff {n : Nat} {r : BitVec n} {i : Instr} : (∃ e, ifZero r i = .error e) ↔ r ≠ 0#n := by
  unfold ifZero
  split <;> simp [*]

/-- The reserved bits of format C are two fields (R84). -/
theorem Word.cat_eq_zero_iff {a b : Nat} (x : BitVec a) (y : BitVec b) :
    x ++ y = 0#(a + b) ↔ x = 0#a ∧ y = 0#b := by
  simp [← BitVec.toNat_inj]

/-- The command of a selector is encoded with that selector (R86). -/
theorem encode_of_statusOfSel {sel : BitVec 2} {i : Instr} (h : statusOfSel sel = .ok i) :
    encode i = 7#4 ++ 0#26 ++ sel := by
  unfold statusOfSel at h
  split at h
  · cases h; subst sel; rfl
  · split at h
    · cases h; subst sel; rfl
    · split at h
      · cases h; subst sel; rfl
      · cases h

/-- Selector 3 is the reserved one (R88). -/
theorem statusOfSel_error_iff (sel : BitVec 2) : (∃ e, statusOfSel sel = .error e) ↔ sel = 3#2 := by
  have hvalues : ∀ x : BitVec 2, x = 0#2 ∨ x = 1#2 ∨ x = 2#2 ∨ x = 3#2 := by decide
  obtain rfl | rfl | rfl | rfl := hvalues sel
  · exact iff_of_false (fun ⟨_, he⟩ => nomatch he) (by decide)
  · exact iff_of_false (fun ⟨_, he⟩ => nomatch he) (by decide)
  · exact iff_of_false (fun ⟨_, he⟩ => nomatch he) (by decide)
  · exact iff_of_true ⟨_, rfl⟩ rfl

/-! ## The encoder undoes the decoder -/

/-- A word of format N is its OP alone. -/
theorem Word.eq_of_formatN {w : Word} {op : BitVec 4} (hop : w.extractLsb' 28 4 = op)
    (hzero : w.extractLsb' 0 28 = 0#28) : op ++ 0#28 = w := by
  rw [← hop, ← hzero, w.fields_formatN]

/-- The encoder gives back every word the decoder accepts: its fields are OP, zeros and the operands. -/
theorem encode_of_decode {w : Word} {i : Instr} (h : decode w = .ok i) : encode i = w := by
  obtain hop | hop | hop | hop | hop | hop | hop | hop | hop := w.op_cases
  · cases (decode_reservedOpcode hop).symm.trans h
  · obtain ⟨hzero, rfl⟩ := ifZero_ok (decode_op0 hop ▸ h)
    exact Word.eq_of_formatN hop hzero
  · obtain ⟨hzero, rfl⟩ := ifZero_ok (decode_op1 hop ▸ h)
    rw [encode, bitOfPhase_phaseOfBit, ← hop, ← hzero, w.fields_formatE]
  · obtain ⟨hzero, rfl⟩ := ifZero_ok (decode_op2 hop ▸ h)
    obtain ⟨hhigh, hlow⟩ := (Word.cat_eq_zero_iff _ _).1 hzero
    rw [encode, bitOfPhase_phaseOfBit, ← hop, ← hhigh, ← hlow, w.fields_formatC]
  · obtain ⟨hzero, rfl⟩ := ifZero_ok (decode_op3 hop ▸ h)
    exact Word.eq_of_formatN hop hzero
  · obtain ⟨hzero, rfl⟩ := ifZero_ok (decode_op4 hop ▸ h)
    exact Word.eq_of_formatN hop hzero
  · obtain ⟨hzero, rfl⟩ := ifZero_ok (decode_op5 hop ▸ h)
    rw [encode, ← hop, ← hzero, w.fields_formatG]
  · obtain ⟨hzero, rfl⟩ := ifZero_ok (decode_op6 hop ▸ h)
    exact Word.eq_of_formatN hop hzero
  · rw [decode_op7 hop] at h
    split at h
    · rename_i hzero
      rw [encode_of_statusOfSel h, ← hop, ← hzero, w.fields_formatS]
    · cases h

/-! ## The opcode map -/

/-- Two rows that disagree on a bit both masks keep cover no word together. -/
theorem OpcodeRow.disjoint {r r' : OpcodeRow} {w : Word} (h : r.matchBits &&& r'.mask ≠ r'.matchBits &&& r.mask) :
    ¬(r.covers w = true ∧ r'.covers w = true) := by
  rintro ⟨hr, hr'⟩
  apply h
  rw [← beq_iff_eq.1 hr, ← beq_iff_eq.1 hr', BitVec.and_assoc, BitVec.and_assoc, BitVec.and_comm r.mask]

/-- Where no two elements meet the test together, at most one does. -/
theorem countP_le_one_of_pairwise {α : Type} {p : α → Bool} {l : List α}
    (h : l.Pairwise fun a b => ¬(p a = true ∧ p b = true)) : l.countP p ≤ 1 := by
  induction h with
  | nil => exact Nat.zero_le 1
  | @cons a l ha hl ih =>
    by_cases hp : p a = true
    · have hrest : l.countP p = 0 := List.countP_eq_zero.2 fun b hb hpb => ha b hb ⟨hp, hpb⟩
      exact Nat.le_of_eq (by rw [List.countP_cons_of_pos hp, hrest])
    · rw [List.countP_cons_of_neg hp]
      exact ih

/-- At most one row covers a word (R87). -/
theorem opcodeMap_countP_le_one (w : Word) : opcodeMap.countP (fun r => r.covers w) ≤ 1 := by
  have hdiffer : opcodeMap.Pairwise fun r r' => r.matchBits &&& r'.mask ≠ r'.matchBits &&& r.mask := by decide
  exact countP_le_one_of_pairwise (hdiffer.imp OpcodeRow.disjoint)

/-- A legal word is covered by some row; no second row can cover it (R87). -/
theorem Word.legal_iff_covered (w : Word) : Word.legal w = true ↔ ∃ r ∈ opcodeMap, r.covers w = true := by
  have hle := opcodeMap_countP_le_one w
  rw [← List.countP_pos_iff (p := fun r : OpcodeRow => r.covers w), Word.legal, beq_iff_eq]
  omega

/-- A field the row's mask takes whole is, in a word of the row, the row's own. -/
theorem OpcodeRow.field_of_covers {r : OpcodeRow} {w : Word} (start len : Nat) (h : r.covers w = true)
    (hmask : r.mask.extractLsb' start len = BitVec.allOnes len) :
    w.extractLsb' start len = r.matchBits.extractLsb' start len := by
  rw [← beq_iff_eq.1 h, BitVec.extractLsb'_and, hmask, BitVec.and_allOnes]

/-- A row whose mask takes every bit covers one word. -/
theorem OpcodeRow.eq_of_covers {m w : Word} (h : OpcodeRow.covers ⟨m, 0xFFFFFFFF#32⟩ w = true) : w = m := by
  simpa using OpcodeRow.field_of_covers 0 32 h rfl

/-- The decoder accepts a word of a row that covers one word only, if it accepts the row's own. -/
theorem decode_of_covers_one {m w : Word} {i : Instr} (hm : decode m = .ok i)
    (h : OpcodeRow.covers ⟨m, 0xFFFFFFFF#32⟩ w = true) : ∃ i, decode w = .ok i :=
  ⟨i, OpcodeRow.eq_of_covers h ▸ hm⟩

/-- The decoder accepts every word that a row covers: the row gives it the OP and the zeros the decoder asks for. -/
theorem decode_of_covers {r : OpcodeRow} {w : Word} (hr : r ∈ opcodeMap) (h : r.covers w = true) :
    ∃ i, decode w = .ok i := by
  simp only [opcodeMap, List.mem_cons, List.not_mem_nil, or_false] at hr
  obtain rfl | rfl | rfl | rfl | rfl | rfl | rfl | rfl | rfl | rfl := hr
  · exact decode_of_covers_one (i := .init) rfl h
  · have hop := OpcodeRow.field_of_covers 28 4 h rfl
    have hzero := OpcodeRow.field_of_covers 17 11 h rfl
    exact ⟨_, (decode_op1 hop).trans (if_pos hzero)⟩
  · have hop := OpcodeRow.field_of_covers 28 4 h rfl
    have hhigh := OpcodeRow.field_of_covers 20 8 h rfl
    have hlow := OpcodeRow.field_of_covers 17 1 h rfl
    exact ⟨_, (decode_op2 hop).trans (if_pos ((Word.cat_eq_zero_iff _ _).2 ⟨hhigh, hlow⟩))⟩
  · exact decode_of_covers_one (i := .timeout) rfl h
  · exact decode_of_covers_one (i := .avail) rfl h
  · have hop := OpcodeRow.field_of_covers 28 4 h rfl
    have hzero := OpcodeRow.field_of_covers 7 21 h rfl
    exact ⟨_, (decode_op5 hop).trans (if_pos hzero)⟩
  · exact decode_of_covers_one (i := .start) rfl h
  · exact decode_of_covers_one (i := .statusControl) rfl h
  · exact decode_of_covers_one (i := .statusCounters) rfl h
  · exact decode_of_covers_one (i := .statusCapture) rfl h

/-- The encoder writes legal words only (R87). -/
theorem legal_encode (i : Instr) : Word.legal (encode i) = true := by
  cases i with
  | init => exact Laws.Legal.init
  | edge ph ticks => exact Laws.Legal.edge ph ticks
  | capture ovf ph cap => exact Laws.Legal.capture ovf ph cap
  | timeout => exact Laws.Legal.timeout
  | avail => exact Laws.Legal.avail
  | getdata maxLen => exact Laws.Legal.getdata maxLen
  | start => exact Laws.Legal.start
  | statusControl => exact Laws.Legal.statusControl
  | statusCounters => exact Laws.Legal.statusCounters
  | statusCapture => exact Laws.Legal.statusCapture

/-- The decoder accepts the legal words and no others (R87, R90). -/
theorem decodes_iff_legal (w : Word) : (∃ i, decode w = .ok i) ↔ Word.legal w = true := by
  constructor
  · rintro ⟨i, hi⟩
    exact encode_of_decode hi ▸ legal_encode i
  · intro hlegal
    obtain ⟨r, hr, hcovers⟩ := w.legal_iff_covered.1 hlegal
    exact decode_of_covers hr hcovers

/-! ## Illegal words -/

/-- The decoder rejects the words that are not legal and no others (R88, R90). -/
theorem rejects_iff_illegal (w : Word) : (∃ e, decode w = .error e) ↔ Word.legal w = false := by
  rw [← Bool.not_eq_true, ← decodes_iff_legal]
  cases decode w <;> simp

/-- An OP = 7 word is rejected iff its reserved field is not zero or its selector is 3 (R86, R88). -/
theorem decode_op7_error_iff {w : Word} (hop : w.extractLsb' 28 4 = 7#4) :
    (∃ e, decode w = .error e) ↔ w.extractLsb' 2 26 ≠ 0#26 ∨ w.extractLsb' 0 2 = 3#2 := by
  rw [decode_op7 hop]
  split
  · simp [*, statusOfSel_error_iff]
  · simp [*]

end Sys2Proof

namespace Sys2Proof.Machine

/-- An illegal word writes RESP and lowers REARM (R224, log 4). -/
theorem runWord_illegal {w : Word} (h : Word.legal w = false) (s : State) :
    runWord w s = .next { s with resp := 0x80000000#32, rearm := false } := by
  obtain ⟨e, he⟩ := (rejects_iff_illegal w).2 h
  rw [runWord, he]
  rfl

/-! ## The statements about the encoding -/

/-- Settles O1: the decoder reads back every field, constructor by constructor. -/
theorem decodeOfEncode : Obligations.DecodeOfEncode := decode_encode

/-- Settles O2: a word is its fields side by side, and the decoder keeps or checks each of them. -/
theorem encodeOfDecode : Obligations.EncodeOfDecode := fun _ _ => encode_of_decode

/-- Settles O3: an accepted word is one the encoder writes, and a word of a row has the fields the decoder asks for. -/
theorem decodesIffOneRowMatches : Obligations.DecodesIffOneRowMatches := decodes_iff_legal

/-- Settles O4: any two rows disagree on a bit that both masks keep. -/
theorem opcodeRowsDisjoint : Obligations.OpcodeRowsDisjoint := opcodeMap_countP_le_one

/-- Settles O5: by the decoder's equation for each OP, an illegal word being one the decoder rejects. -/
theorem illegalWords : Obligations.IllegalWords := by
  intro w
  refine ⟨?_, runWord_illegal⟩
  rw [← rejects_iff_illegal]
  obtain hop | hop | hop | hop | hop | hop | hop | hop | hop := w.op_cases
  · exact iff_of_true ⟨_, decode_reservedOpcode hop⟩ (.inl hop)
  · rw [decode_op0 hop, ifZero_error_iff]
    simp [hop]
  · rw [decode_op1 hop, ifZero_error_iff]
    simp [hop]
  · rw [decode_op2 hop, ifZero_error_iff, Ne, Word.cat_eq_zero_iff]
    simp [hop, Decidable.imp_iff_not_or]
  · rw [decode_op3 hop, ifZero_error_iff]
    simp [hop]
  · rw [decode_op4 hop, ifZero_error_iff]
    simp [hop]
  · rw [decode_op5 hop, ifZero_error_iff]
    simp [hop]
  · rw [decode_op6 hop, ifZero_error_iff]
    simp [hop]
  · rw [decode_op7_error_iff hop]
    simp [hop]

/-- Settles O6: the decoder evaluated on each of the nine words. -/
theorem exampleWordsDecode : Obligations.ExampleWordsDecode :=
  ⟨rfl, rfl, rfl, rfl, rfl, rfl, rfl, rfl, rfl⟩

end Sys2Proof.Machine
end

section
/-!
PROOFS. The pulse classifier (40_pulse_classifier.md R101): the class of a width by its place among the thresholds of
its phase, and the pseudo-instructions that are spelled after a class (30_encoding.md R92).
-/
namespace Sys2Proof.Machine

/-- Both triples of a well-formed parameter set are in order (R9). -/
theorem triple_wf {c : Config} (h : c.wf = true) (ph : Phase) : (triple c ph).wf = true := by
  obtain ⟨hhi, hlo, -⟩ := (config_wf_iff c).1 h
  cases ph with
  | hi => exact hhi
  | lo => exact hlo

/-- A width from t0 on and below t1 is Short (R101). -/
theorem classify_short {c : Config} {ph : Phase} {t : Ticks} (h0 : (triple c ph).t0 ≤ t) (h1 : t < (triple c ph).t1) :
    classify c ph t = .short :=
  if_pos ⟨h0, h1⟩

/-- A width from t1 on and below t2 is Long, whatever t0 is (R101). -/
theorem classify_long {c : Config} {ph : Phase} {t : Ticks} (h1 : (triple c ph).t1 ≤ t) (h2 : t < (triple c ph).t2) :
    classify c ph t = .long :=
  (if_neg fun h => BitVec.not_lt.2 h1 h.2).trans (if_pos ⟨h1, h2⟩)

/-- With thresholds in order a width from t2 on is neither Short nor Long (R9, R101). -/
theorem classify_noise {c : Config} {ph : Phase} {t : Ticks} (hwf : (triple c ph).wf = true)
    (h2 : (triple c ph).t2 ≤ t) : classify c ph t = .noise := by
  obtain ⟨-, h12⟩ := (thresholds_wf_iff _).1 hwf
  have hshort : ¬t < (triple c ph).t1 := BitVec.not_lt.2 (BitVec.le_trans h12 h2)
  exact (if_neg fun h => hshort h.2).trans (if_neg fun h => BitVec.not_lt.2 h2 h.2)

/-- Settles O30: each pseudo-instruction stands at the lower end of its class. -/
theorem pseudoPulsesYieldTheirClass : Obligations.PseudoPulsesYieldTheirClass := fun _ ph hwf =>
  ⟨fun h01 => ⟨_, rfl, classify_short (BitVec.le_refl _) h01⟩,
    fun h12 => ⟨_, rfl, classify_long (BitVec.le_refl _) h12⟩,
    ⟨_, rfl, classify_noise (triple_wf hwf ph) (BitVec.le_refl _)⟩⟩

end Sys2Proof.Machine
end

section
/-!
PROOFS. EDGE and CAPTURE (40_pulse_classifier.md R100 to R105): the class of a width, the elapsed width that CAPTURE
passes on, and what a pulse leaves unchanged, in READY all but its response.
-/
namespace Sys2Proof.Machine

/-! ## The class of a width -/

/-- Classify with the thresholds as numbers (R101). -/
theorem classify_eq (c : Config) (ph : Phase) (t : Ticks) : classify c ph t =
    if (triple c ph).t0.toNat ≤ t.toNat ∧ t.toNat < (triple c ph).t1.toNat then .short
    else if (triple c ph).t1.toNat ≤ t.toNat ∧ t.toNat < (triple c ph).t2.toNat then .long
    else .noise := by
  simp only [classify, BitVec.le_def, BitVec.lt_def]

theorem classify_eq_short_iff (c : Config) (ph : Phase) (t : Ticks) :
    classify c ph t = .short ↔ (triple c ph).t0.toNat ≤ t.toNat ∧ t.toNat < (triple c ph).t1.toNat := by
  rw [classify_eq]
  split
  · exact iff_of_true rfl (by assumption)
  · split <;> exact iff_of_false (by simp) (by assumption)

/-- Short is tested first, but no width is both: a Long is not below t1 (R101). -/
theorem classify_eq_long_iff (c : Config) (ph : Phase) (t : Ticks) :
    classify c ph t = .long ↔ (triple c ph).t1.toNat ≤ t.toNat ∧ t.toNat < (triple c ph).t2.toNat := by
  rw [classify_eq]
  split
  · rename_i hshort
    exact iff_of_false (by simp) fun hlong => Nat.not_le.2 hshort.2 hlong.1
  · split
    · exact iff_of_true rfl (by assumption)
    · exact iff_of_false (by simp) (by assumption)

theorem classify_eq_noise_iff (c : Config) (ph : Phase) (t : Ticks) :
    classify c ph t = .noise ↔
      ¬((triple c ph).t0.toNat ≤ t.toNat ∧ t.toNat < (triple c ph).t1.toNat) ∧
      ¬((triple c ph).t1.toNat ≤ t.toNat ∧ t.toNat < (triple c ph).t2.toNat) := by
  rw [← classify_eq_short_iff, ← classify_eq_long_iff]
  cases classify c ph t <;> simp

/-- Settles O29: the three equivalences hold for the triple of either phase. -/
theorem classifyByThresholds : Obligations.ClassifyByThresholds := fun c t =>
  ⟨classify_eq_short_iff c .hi t, classify_eq_long_iff c .hi t, classify_eq_noise_iff c .hi t,
    classify_eq_short_iff c .lo t, classify_eq_long_iff c .lo t, classify_eq_noise_iff c .lo t⟩

/-- Settles O32: no threshold is above 0xFFFF. -/
theorem maximumWidthIsNoise : Obligations.MaximumWidthIsNoise := fun _ ph hwf =>
  classify_noise (triple_wf hwf ph) (Nat.le_of_lt_succ (BitVec.isLt _))

/-! ## The elapsed width -/

/-- A difference of two tick counts is taken modulo 2^16 (R103). -/
theorem ticks_sub_toNat (cap prevCap : Ticks) :
    (cap - prevCap).toNat = (cap.toNat + 65536 - prevCap.toNat) % 65536 := by
  have hprev := prevCap.isLt
  rw [BitVec.toNat_sub]
  omega

/-- With no overflow the elapsed width is the difference (R103). -/
theorem elapsed_without_overflow (c : Config) (prevCap cap : Ticks) : elapsed c prevCap 0#2 cap = cap - prevCap := rfl

/-- With one overflow and MODULAR the elapsed width is the difference (R104). -/
theorem elapsed_modular {c : Config} (h : c.ovf1Mode = .modular) (prevCap cap : Ticks) :
    elapsed c prevCap 1#2 cap = cap - prevCap := by
  simp [elapsed, h]

/-- With one overflow and CLAMP the elapsed width is REALISTIC_MAX (R104). -/
theorem elapsed_clamp {c : Config} (h : c.ovf1Mode = .clamp) (prevCap cap : Ticks) :
    elapsed c prevCap 1#2 cap = c.realisticMax := by
  simp [elapsed, h]

/-- With two overflows or more the elapsed width is the maximum (R103). -/
theorem elapsed_overflowed (c : Config) (prevCap : Ticks) {ovf : BitVec 2} (h : 2 ≤ ovf.toNat) (cap : Ticks) :
    elapsed c prevCap ovf cap = 0xFFFF#16 := by
  have h0 : ovf ≠ 0#2 := fun he => by simp [he] at h
  have h1 : ovf ≠ 1#2 := fun he => by simp [he] at h
  rw [elapsed, if_neg h0, if_neg h1]

/-! ## EDGE and CAPTURE as their pulse -/

/-- EDGE is the pulse of its class, on the state with RESP cleared and REARM low (R100). -/
theorem exec_edge (ph : Phase) (t : Ticks) (s : State) :
    exec (.edge ph t) s = (pulse (classify s.cfg ph t) { s with resp := 0#32, rearm := false }).outcome := rfl

/-- CAPTURE is EDGE of the elapsed width, with prevCap already replaced (R103). -/
theorem exec_capture (ovf : BitVec 2) (ph : Phase) (cap : Ticks) (s : State) :
    exec (.capture ovf ph cap) s =
      exec (.edge ph (elapsed s.cfg s.prevCap ovf cap)) { s with prevCap := cap } := rfl

/-- Settles O31: the width is the elapsed one, known for each value of OVF and each mode. -/
theorem captureIsEdgeOfElapsed : Obligations.CaptureIsEdgeOfElapsed := by
  intro s ovf ph cap
  refine ⟨_, exec_capture ovf ph cap s, fun h0 => ?_, fun h1 hmode => ?_, fun h1 hmode => ?_, fun h2 => ?_⟩
  · obtain rfl : ovf = 0#2 := BitVec.eq_of_toNat_eq h0
    rw [elapsed_without_overflow, ticks_sub_toNat]
  · obtain rfl : ovf = 1#2 := BitVec.eq_of_toNat_eq h1
    rw [elapsed_modular hmode, ticks_sub_toNat]
  · obtain rfl : ovf = 1#2 := BitVec.eq_of_toNat_eq h1
    exact elapsed_clamp hmode _ _
  · rw [elapsed_overflowed _ _ h2]
    rfl

/-- EDGE completes with RESP = 0 and keeps prevCap (R100). -/
theorem exec_edge_completes (ph : Phase) (t : Ticks) (s : State) :
    ∃ u, exec (.edge ph t) s = .next u ∧ u.resp = 0#32 ∧ u.prevCap = s.prevCap :=
  pulse_completes (classify s.cfg ph t) { s with resp := 0#32, rearm := false }

/-- Settles O34: a pulse completes, and CAPTURE is an EDGE on the state with the new prevCap. -/
theorem pulsesComplete : Obligations.PulsesComplete := fun s ovf ph t =>
  ⟨exec_edge_completes ph t s, by rw [exec_capture]; exact exec_edge_completes ph _ { s with prevCap := t }⟩

/-- EDGE in READY changes RESP and REARM only (R105). -/
theorem exec_edge_ready (ph : Phase) (t : Ticks) {s : State} (h : s.st = .ready) :
    exec (.edge ph t) s = .next { s with resp := 0#32, rearm := false } := by
  rw [exec_edge, pulse_ready (s := { s with resp := 0#32, rearm := false }) h]
  rfl

/-- Settles O33: both are an EDGE in READY, CAPTURE's on the state with the new prevCap. -/
theorem edgeInReadyDiscarded : Obligations.EdgeInReadyDiscarded := fun s ovf ph t h =>
  ⟨exec_edge_ready ph t h, by rw [exec_capture]; exact exec_edge_ready ph _ (s := { s with prevCap := t }) h⟩

/-! ## What a pulse leaves unchanged -/

/-- A pulse in READY changes nothing (R105). -/
theorem pulse_ready_unchanged {c : PulseClass} {s t : State} (h : (pulse c s).outcome = .next t)
    (hst : s.st = .ready) : t = s := by
  rw [pulse_ready hst] at h
  cases h
  rfl

/-- A pulse keeps NOW, the counter of draws and prevCap (R37, R100). -/
theorem pulse_keeps_now_draws_prevCap {c : PulseClass} {s t : State} (h : (pulse c s).outcome = .next t) :
    t.now = s.now ∧ t.draws = s.draws ∧ t.prevCap = s.prevCap := by
  have hcase := pulse_case c s
  generalize pulse c s = x at h hcase
  cases hcase <;> cases h <;> exact ⟨rfl, rfl, rfl⟩

/-- A pulse in a receiving state keeps the counters and the version unless it raises a full reset (R142 to R147,
R245). -/
theorem pulse_receiving_keeps_counters {c : PulseClass} {s t : State} (h : (pulse c s).outcome = .next t)
    (hr : s.st.receiving = true) (ht : t.st ≠ .idle) :
    t.shortCnt = s.shortCnt ∧ t.longCnt = s.longCnt ∧ t.ver = s.ver := by
  obtain hrun | hraised := pulse_outcome_case h
  · have hidle : s.st ≠ .idle := fun hi => by simp [hi, ProtocolState.receiving] at hr
    cases hrun
    case commit2 hi _ _ _ | countShort hi _ _ _ | commit3 hi _ _ _ | countLong hi _ _ _ => exact absurd hi hidle
    all_goals exact ⟨rfl, rfl, rfl⟩
  · obtain ⟨cause, raw, -, rfl⟩ := hraised.resetCause_raised
    exact absurd (fullReset_st cause _) ht

/-- In a receiving state a Short that completes a valid pair writes the cursor's byte, unless its bit is dumped
(R142, R145, R146). -/
theorem rawTarget_short {s : State} (hr : s.st.receiving = true) (hp : s.pend = true)
    (hw : s.st = .rxv2 → s.psp = false ∧ s.dump = false) : rawTarget .short s = some (nibIndex s.cur) := by
  obtain hst | hst := (receiving_iff _).1 hr
  · simp [rawTarget, hst, hp]
  · simp [rawTarget, hst, hp, hw hst]

/-- In a receiving state a Long with no pending Short writes the cursor's byte, unless its bit is dumped (R143,
R145). -/
theorem rawTarget_long {s : State} (hr : s.st.receiving = true) (hp : s.pend = false)
    (hw : s.st = .rxv2 → s.dump = false) : rawTarget .long s = some (nibIndex s.cur) := by
  obtain hst | hst := (receiving_iff _).1 hr
  · simp [rawTarget, hst, hp]
  · simp [rawTarget, hst, hp, hw hst]

/-- The V3 commit writes byte 0 (R126). -/
theorem rawTarget_commit {s : State} (hi : s.st = .idle) (hs : s.cfg.consts.v3Pre < s.shortCnt) :
    rawTarget .long s = some 0 := by
  simp [rawTarget, hi, hs]

/-- A pulse leaves RAW as it is or writes the one byte that `rawTarget` computes (R126, R142, R143, R147). -/
theorem pulse_raw {c : PulseClass} {s t : State} (h : (pulse c s).outcome = .next t) :
    t.raw = s.raw ∨ ∃ k v, rawTarget c s = some k ∧ t.raw = s.raw.put k v := by
  have hcase := pulse_case c s
  generalize pulse c s = x at h hcase
  cases hcase <;> cases h
  case commit3Overflow hi hc hs _ | commit3 hi hc hs _ => exact .inr ⟨0, 0#8, hc ▸ rawTarget_commit hi hs, rfl⟩
  case shortWritten2 hr hc hp _ hq hd _ => exact .inr ⟨_, _, hc ▸ rawTarget_short hr hp fun _ => ⟨hq, hd⟩, rfl⟩
  case shortWritten3 hr hc hp hst _ =>
    exact .inr ⟨_, _, hc ▸ rawTarget_short hr hp fun h2 => by simp [hst] at h2, rfl⟩
  case shortOverflow hr hc hp hw _ => exact .inr ⟨_, _, hc ▸ rawTarget_short hr hp hw, rfl⟩
  case longWritten2 hr hc hp _ hd _ => exact .inr ⟨_, _, hc ▸ rawTarget_long hr hp fun _ => hd, rfl⟩
  case longWritten3 hr hc hp hst _ =>
    exact .inr ⟨_, _, hc ▸ rawTarget_long hr hp fun h2 => by simp [hst] at h2, rfl⟩
  case longOverflow hr hc hp hw _ => exact .inr ⟨_, _, hc ▸ rawTarget_long hr hp hw, rfl⟩
  all_goals exact .inl rfl

/-- Every byte of RAW but the one that `rawTarget` computes survives a pulse. -/
theorem pulse_keeps_raw_byte {c : PulseClass} {s t : State} (h : (pulse c s).outcome = .next t) {k : Nat}
    (hk : rawTarget c s ≠ some k) : t.raw.byte k = s.raw.byte k := by
  obtain hraw | ⟨j, v, htarget, hraw⟩ := pulse_raw h
  · rw [hraw]
  · rw [hraw, Memory.byte_put_other fun hkj => hk (htarget.trans (congrArg some hkj.symm))]

/-- Settles O35: EDGE and CAPTURE are a pulse on the state with RESP, REARM and prevCap written, and none of these
three decides what the pulse keeps. -/
theorem pulseFrame : Obligations.PulseFrame := by
  intro i c s t hc h
  obtain ⟨p, hp, hedge⟩ := exec_pulse hc h
  obtain ⟨hcfg, hpending⟩ := pulse_keeps_inputs hp
  obtain ⟨hdd, hdt, hout⟩ := pulse_keeps_storage hp
  obtain ⟨hnow, hdraws, hprev⟩ := pulse_keeps_now_draws_prevCap hp
  have hcounters := pulse_receiving_keeps_counters hp
  refine ⟨hcfg, hpending, hnow, hdd, hdt, hout, hdraws, fun ph ticks hi => hprev.trans (hedge ph ticks hi),
    fun k hk => pulse_keeps_raw_byte hp hk, hcounters, fun hst => ?_⟩
  obtain rfl := pulse_ready_unchanged hp hst
  rfl

end Sys2Proof.Machine
end

section
/-!
PROOFS. The sync detector (41_sync_detector.md R120 to R127): what each class of pulse does in IDLE, first as a rule
about the detector's own arm, then as EDGE.
-/
namespace Sys2Proof.Machine

/-! ## The arms of the detector -/

/-- A Short after the preamble of V2.1 opens the first short pair (R121, R123). -/
theorem idleShort_commits {s : State} (h : s.shortCnt ≤ 1 ∧ s.cfg.consts.v2Pre < s.longCnt) :
    idleShort s = .run (armTimer
      { s with
        st := .rxv2, ver := 2#2, lastBit := true, pend := true, dump := true, psp := false, cur := 0#8 }) :=
  if_pos h

/-- Before any Long a Short is counted (R121). -/
theorem idleShort_counts {s : State} (h : ¬(s.shortCnt ≤ 1 ∧ s.cfg.consts.v2Pre < s.longCnt)) (hlong : s.longCnt = 0) :
    idleShort s = .run { s with shortCnt := countUp s.cfg s.shortCnt } :=
  (if_neg h).trans (if_pos hlong)

/-- A Short that belongs to no preamble is a sync failure (R121). -/
theorem idleShort_raises {s : State} (h : ¬(s.shortCnt ≤ 1 ∧ s.cfg.consts.v2Pre < s.longCnt)) (hlong : s.longCnt ≠ 0) :
    idleShort s = .raised (fullReset .syncFailure s) :=
  (if_neg h).trans (if_neg hlong)

/-- A Long after the preamble of V3 is bit 0 of the sync nibble (R122, R126). -/
theorem idleLong_commits {s : State} (h : s.cfg.consts.v3Pre < s.shortCnt) (hcap : 1 < rawBits s.cfg.consts) :
    idleLong s = .run (armTimer
      { s with
        st := .rxv3, ver := 3#2, lastBit := false, pend := false, dump := false, psp := false, cur := 1#8,
        raw := s.raw.put 0 0#8 }) := by
  rw [idleLong, if_pos h, commitV3_eq, if_neg (Nat.not_le.2 hcap)]

/-- Where RAW holds one bit or none, the commit's bit fills it (R62, R126). -/
theorem idleLong_overflows {s : State} (h : s.cfg.consts.v3Pre < s.shortCnt) (hcap : rawBits s.cfg.consts ≤ 1) :
    idleLong s = .raised (fullReset .bufferOverflow { s with raw := s.raw.put 0 0#8 }) := by
  rw [idleLong, if_pos h, commitV3_eq, if_pos hcap]

/-- After at most one Short a Long is counted (R122). -/
theorem idleLong_counts {s : State} (h : ¬ s.cfg.consts.v3Pre < s.shortCnt) (hshort : s.shortCnt ≤ 1) :
    idleLong s = .run { s with longCnt := countUp s.cfg s.longCnt } :=
  (if_neg h).trans (if_pos hshort)

/-- A Long that belongs to no preamble is a sync failure (R122). -/
theorem idleLong_raises {s : State} (h : ¬ s.cfg.consts.v3Pre < s.shortCnt) (hshort : ¬ s.shortCnt ≤ 1) :
    idleLong s = .raised (fullReset .syncFailure s) :=
  (if_neg h).trans (if_neg hshort)

/-! ## EDGE in IDLE -/

/-- EDGE in IDLE ends as the detector's step on the state with RESP cleared and REARM low does (R100, R120). -/
theorem exec_edge_idle {s : State} {ph : Phase} {t : Ticks} {c : PulseClass} {x : Progress} (hi : s.st = .idle)
    (hc : classify s.cfg ph t = c) (hx : syncStep c { s with resp := 0#32, rearm := false } = x) :
    exec (.edge ph t) s = x.outcome := by
  rw [exec_edge, hc, pulse_idle (s := { s with resp := 0#32, rearm := false }) hi, hx]

/-- The source's RAW holds the commit's bit and more (R7, R27). -/
theorem one_lt_rawBits_source : 1 < rawBits Constants.source := by decide

end Sys2Proof.Machine

/-! The theorems below carry the names of their obligations, which in `Sys2Proof.Machine` are the arms' own. -/
namespace Sys2Proof.SyncDetector
open Sys2Proof.Machine

/-- Settles O36: the three cases are those of the Short's arm, and RESP and REARM decide none of them. -/
theorem idleShort : Obligations.IdleShort := fun _ _ _ hi hc =>
  ⟨fun h => exec_edge_idle hi hc (idleShort_commits h),
    fun h hlong => exec_edge_idle hi hc (idleShort_counts h hlong),
    fun h hlong => exec_edge_idle hi hc (idleShort_raises h hlong)⟩

/-- Settles O37: the four cases are those of the Long's arm, and RESP and REARM decide none of them. -/
theorem idleLong : Obligations.IdleLong := fun _ _ _ hi hc =>
  ⟨fun hsource => hsource ▸ one_lt_rawBits_source,
    fun h hcap => exec_edge_idle hi hc (idleLong_overflows h hcap),
    fun h hcap => exec_edge_idle hi hc (idleLong_commits h hcap),
    fun h hshort => exec_edge_idle hi hc (idleLong_counts h hshort),
    fun h hshort => exec_edge_idle hi hc (idleLong_raises h hshort)⟩

/-- Settles O38: the Noise's arm is the full reset alone (R124), and the pulse ends with it (R127). -/
theorem idleNoise : Obligations.IdleNoise := fun _ _ _ hi hc => exec_edge_idle hi hc rfl

end Sys2Proof.SyncDetector
end

section
/-!
PROOFS. The Manchester decoder (42_manchester_decoder.md R140 to R147): what each class of pulse does in a receiving
state, first as a rule about the decoder's own arm, then as EDGE.
-/
namespace Sys2Proof.Machine

/-! ## A decoded bit on its way to ArmTimer -/

/-- In RXV2 every second decoded bit is dumped (R145). -/
theorem emitBit_arm_dumped {m : Bool} {s : State} (h2 : s.st = .rxv2) (hd : s.dump = true) :
    (emitBit m s).andThen (fun s => .run (armTimer s)) =
      .run (armTimer { s with lastBit := m, dump := false }) := by
  rw [emitBit_dumped h2 hd, Progress.andThen_run]

/-- In RXV2 the bit after a dumped one is written (R145). -/
theorem emitBit_arm_written2 {m : Bool} {s : State} (h2 : s.st = .rxv2) (hd : s.dump = false)
    (hroom : s.cur.toNat + 1 < rawBits s.cfg.consts) :
    (emitBit m s).andThen (fun s => .run (armTimer s)) =
      .run (armTimer { s with lastBit := m, dump := true, raw := rawAfterBit m s, cur := s.cur + 1#8 }) := by
  rw [emitBit_written h2 hd, writeBit_run (s := { s with lastBit := m, dump := true }) hroom, Progress.andThen_run]
  rfl

/-- In RXV3 every decoded bit is written (R141). -/
theorem emitBit_arm_written3 {m : Bool} {s : State} (h3 : s.st = .rxv3)
    (hroom : s.cur.toNat + 1 < rawBits s.cfg.consts) :
    (emitBit m s).andThen (fun s => .run (armTimer s)) =
      .run (armTimer { s with lastBit := m, raw := rawAfterBit m s, cur := s.cur + 1#8 }) := by
  rw [emitBit_other (by simp [h3]), writeBit_run (s := { s with lastBit := m }) hroom, Progress.andThen_run]
  rfl

/-- A written bit that fills RAW lands before the full reset (R147). -/
theorem emitBit_arm_overflows {m : Bool} {s : State} (hw : s.st = .rxv2 → s.dump = false)
    (hfull : rawBits s.cfg.consts ≤ s.cur.toNat + 1) :
    (emitBit m s).andThen (fun s => .run (armTimer s)) =
      .raised (fullReset .bufferOverflow { s with raw := rawAfterBit m s }) := by
  by_cases h2 : s.st = .rxv2
  · rw [emitBit_written h2 (hw h2), writeBit_raised (s := { s with lastBit := m, dump := true }) hfull]
    rfl
  · rw [emitBit_other h2, writeBit_raised (s := { s with lastBit := m }) hfull]
    rfl

/-! ## The arms of the decoder -/

/-- The first Short of a pair is kept (R142). -/
theorem rxShort_keeps {s : State} (hp : s.pend = false) : rxShort s = .run (armTimer { s with pend := true }) := by
  simp [rxShort, hp]

/-- In RXV2 two short pairs in a row are a violation (R146). -/
theorem rxShort_violates {s : State} (hp : s.pend = true) (h2 : s.st = .rxv2) (hq : s.psp = true) :
    rxShort s = .raised (fullReset .structuralViolation s) := by
  simp only [rxShort, hp, h2, hq, if_true]
  rfl

/-- In RXV2 the second Short of a pair decodes a repeated bit and marks the pair (R142, R146). -/
theorem rxShort_pairs2 {s : State} (hp : s.pend = true) (h2 : s.st = .rxv2) (hq : s.psp = false) :
    rxShort s =
      (emitBit s.lastBit { s with pend := false, psp := true }).andThen fun s => .run (armTimer s) := by
  simp [rxShort, hp, h2, hq]

/-- In RXV3 the second Short of a pair decodes a repeated bit (R142). -/
theorem rxShort_pairs3 {s : State} (hp : s.pend = true) (h3 : s.st = .rxv3) :
    rxShort s = (emitBit s.lastBit { s with pend := false }).andThen fun s => .run (armTimer s) := by
  simp [rxShort, hp, h3]

/-- A dumped bit of a short pair (R145). -/
theorem rxShort_dumps {s : State} (hp : s.pend = true) (h2 : s.st = .rxv2) (hq : s.psp = false) (hd : s.dump = true) :
    rxShort s = .run (armTimer { s with pend := false, psp := true, dump := false }) :=
  (rxShort_pairs2 hp h2 hq).trans (emitBit_arm_dumped h2 hd)

/-- A written bit of a short pair in RXV2 (R145). -/
theorem rxShort_writes2 {s : State} (hp : s.pend = true) (h2 : s.st = .rxv2) (hq : s.psp = false)
    (hd : s.dump = false) (hroom : s.cur.toNat + 1 < rawBits s.cfg.consts) :
    rxShort s = .run (armTimer
      { s with pend := false, psp := true, dump := true, raw := rawAfterBit s.lastBit s, cur := s.cur + 1#8 }) :=
  (rxShort_pairs2 hp h2 hq).trans (emitBit_arm_written2 h2 hd hroom)

/-- A written bit of a short pair in RXV3 (R141). -/
theorem rxShort_writes3 {s : State} (hp : s.pend = true) (h3 : s.st = .rxv3)
    (hroom : s.cur.toNat + 1 < rawBits s.cfg.consts) :
    rxShort s = .run (armTimer { s with pend := false, raw := rawAfterBit s.lastBit s, cur := s.cur + 1#8 }) :=
  (rxShort_pairs3 hp h3).trans (emitBit_arm_written3 h3 hroom)

/-- A Short that fills RAW: its bit lands, then the full reset (R142, R147). -/
theorem rxShort_overflows {s : State} (hr : s.st.receiving = true) (hp : s.pend = true)
    (hw : s.st = .rxv2 → s.psp = false ∧ s.dump = false) (hfull : rawBits s.cfg.consts ≤ s.cur.toNat + 1) :
    rxShort s = .raised (fullReset .bufferOverflow { s with raw := rawAfterBit s.lastBit s }) := by
  obtain h3 | h2 := (receiving_iff _).1 hr
  · exact (rxShort_pairs3 hp h3).trans (emitBit_arm_overflows (fun h2 => (hw h2).2) hfull)
  · obtain ⟨hq, hd⟩ := hw h2
    exact (rxShort_pairs2 hp h2 hq).trans (emitBit_arm_overflows (fun _ => hd) hfull)

/-- A Long after an unpaired Short is a violation (R143). -/
theorem rxLong_violates {s : State} (hp : s.pend = true) :
    rxLong s = .raised (fullReset .structuralViolation s) :=
  if_pos hp

/-- In RXV2 a Long decodes the other bit and ends the mark of a short pair (R143, R146). -/
theorem rxLong_flips2 {s : State} (hp : s.pend = false) (h2 : s.st = .rxv2) :
    rxLong s = (emitBit (!s.lastBit) { s with psp := false }).andThen fun s => .run (armTimer s) := by
  simp [rxLong, hp, h2]

/-- In RXV3 a Long decodes the other bit (R143). -/
theorem rxLong_flips3 {s : State} (hp : s.pend = false) (h3 : s.st = .rxv3) :
    rxLong s = (emitBit (!s.lastBit) s).andThen fun s => .run (armTimer s) := by
  simp [rxLong, hp, h3]

/-- A dumped bit of a Long (R145). -/
theorem rxLong_dumps {s : State} (hp : s.pend = false) (h2 : s.st = .rxv2) (hd : s.dump = true) :
    rxLong s = .run (armTimer { s with psp := false, lastBit := !s.lastBit, dump := false }) :=
  (rxLong_flips2 hp h2).trans (emitBit_arm_dumped h2 hd)

/-- A written bit of a Long in RXV2 (R145). -/
theorem rxLong_writes2 {s : State} (hp : s.pend = false) (h2 : s.st = .rxv2) (hd : s.dump = false)
    (hroom : s.cur.toNat + 1 < rawBits s.cfg.consts) :
    rxLong s = .run (armTimer
      { s with
        psp := false, lastBit := !s.lastBit, dump := true, raw := rawAfterBit (!s.lastBit) s, cur := s.cur + 1#8 }) :=
  (rxLong_flips2 hp h2).trans (emitBit_arm_written2 h2 hd hroom)

/-- A written bit of a Long in RXV3 (R141). -/
theorem rxLong_writes3 {s : State} (hp : s.pend = false) (h3 : s.st = .rxv3)
    (hroom : s.cur.toNat + 1 < rawBits s.cfg.consts) :
    rxLong s = .run (armTimer
      { s with lastBit := !s.lastBit, raw := rawAfterBit (!s.lastBit) s, cur := s.cur + 1#8 }) :=
  (rxLong_flips3 hp h3).trans (emitBit_arm_written3 h3 hroom)

/-- A Long that fills RAW: its bit lands, then the full reset (R143, R147). -/
theorem rxLong_overflows {s : State} (hr : s.st.receiving = true) (hp : s.pend = false)
    (hw : s.st = .rxv2 → s.dump = false) (hfull : rawBits s.cfg.consts ≤ s.cur.toNat + 1) :
    rxLong s = .raised (fullReset .bufferOverflow { s with raw := rawAfterBit (!s.lastBit) s }) := by
  obtain h3 | h2 := (receiving_iff _).1 hr
  · exact (rxLong_flips3 hp h3).trans (emitBit_arm_overflows hw hfull)
  · exact (rxLong_flips2 hp h2).trans (emitBit_arm_overflows hw hfull)

/-- A Noise ends a message of enough bits (R144). -/
theorem rxNoise_ends {s : State} (h : s.cfg.consts.minBitsNoise ≤ s.cur.toNat) :
    rxNoise s = .run { s with st := .ready, armed := false } :=
  if_pos h

/-- A Noise in a message of too few bits is a sync failure (R144). -/
theorem rxNoise_raises {s : State} (h : s.cur.toNat < s.cfg.consts.minBitsNoise) :
    rxNoise s = .raised (fullReset .syncFailure s) :=
  if_neg (Nat.not_le.2 h)

/-! ## EDGE in a receiving state -/

/-- EDGE in a receiving state ends as the decoder's step on the state with RESP cleared and REARM low does (R100,
R140). -/
theorem exec_edge_receiving {s : State} {ph : Phase} {t : Ticks} {c : PulseClass} {x : Progress}
    (hr : s.st.receiving = true) (hc : classify s.cfg ph t = c)
    (hx : decodeStep c { s with resp := 0#32, rearm := false } = x) : exec (.edge ph t) s = x.outcome := by
  rw [exec_edge, hc, pulse_receiving (s := { s with resp := 0#32, rearm := false }) hr, hx]

/-- Settles O40: each clause is one rule of the Short's arm, and RESP and REARM decide none of them. -/
theorem receiveShort : Obligations.ReceiveShort := by
  intro s ph t hst hc
  have hr := (receiving_iff s.st).2 hst
  refine ⟨fun hsource => hsource ▸ rawBits_source_le_iff s.cur, fun hp => ?keep, fun hp h2 hq => ?violation,
    fun hp h2 hq hd => ?dumped, fun hp h2 hq hd hroom => ?written2, fun hp h3 hroom => ?written3,
    fun hp hw hfull => ?overflow⟩
  case keep => exact exec_edge_receiving hr hc (rxShort_keeps hp)
  case violation => exact exec_edge_receiving hr hc (rxShort_violates hp h2 hq)
  case dumped => exact exec_edge_receiving hr hc (rxShort_dumps hp h2 hq hd)
  case written2 => exact exec_edge_receiving hr hc (rxShort_writes2 hp h2 hq hd hroom)
  case written3 => exact exec_edge_receiving hr hc (rxShort_writes3 hp h3 hroom)
  case overflow => exact exec_edge_receiving hr hc (rxShort_overflows hr hp hw hfull)

/-- Settles O41: each clause is one rule of the Long's arm, and RESP and REARM decide none of them. -/
theorem receiveLong : Obligations.ReceiveLong := by
  intro s ph t hst hc
  have hr := (receiving_iff s.st).2 hst
  refine ⟨fun hsource => hsource ▸ rawBits_source_le_iff s.cur, fun hp => ?violation, fun hp h2 hd => ?dumped,
    fun hp h2 hd hroom => ?written2, fun hp h3 hroom => ?written3, fun hp hw hfull => ?overflow⟩
  case violation => exact exec_edge_receiving hr hc (rxLong_violates hp)
  case dumped => exact exec_edge_receiving hr hc (rxLong_dumps hp h2 hd)
  case written2 => exact exec_edge_receiving hr hc (rxLong_writes2 hp h2 hd hroom)
  case written3 => exact exec_edge_receiving hr hc (rxLong_writes3 hp h3 hroom)
  case overflow => exact exec_edge_receiving hr hc (rxLong_overflows hr hp hw hfull)

/-- Settles O42: the two cases are those of the Noise's arm, and RESP and REARM decide neither. -/
theorem receiveNoise : Obligations.ReceiveNoise := fun s _ _ hst hc =>
  have hr := (receiving_iff s.st).2 hst
  ⟨fun h => exec_edge_receiving hr hc (rxNoise_ends h), fun h => exec_edge_receiving hr hc (rxNoise_raises h)⟩

end Sys2Proof.Machine
end

section
/-!
PROOFS. Runs of pulses: a list of classes leads from state to state, and every list of EDGE commands with these classes
does the same; and the message that RAW holds below the cursor, which each bit write extends (20_memory.md R61, R62).
-/
namespace Sys2Proof.Machine

/-! ## Runs of pulses -/

/-- Pulses of the classes `cs`, each delivered by an EDGE of its own, lead from `s` to `t` (R100). -/
inductive PulseRun : List PulseClass → State → State → Prop where
  | nil (s : State) : PulseRun [] s s
  | cons {c : PulseClass} {cs : List PulseClass} {s t u : State}
      (head : (pulse c { s with resp := 0#32, rearm := false }).outcome = .next t) (tail : PulseRun cs t u) :
      PulseRun (c :: cs) s u

/-- A pulse that the sync detector answers (R120). -/
theorem PulseRun.cons_idle {c : PulseClass} {cs : List PulseClass} {s t u : State} (hi : s.st = .idle)
    (h : syncStep c { s with resp := 0#32, rearm := false } = .run t) (tail : PulseRun cs t u) :
    PulseRun (c :: cs) s u :=
  have hi' : ({ s with resp := 0#32, rearm := false } : State).st = .idle := hi
  .cons (congrArg Progress.outcome ((pulse_idle hi').trans h)) tail

/-- A pulse that the decoder answers (R140). -/
theorem PulseRun.cons_receiving {c : PulseClass} {cs : List PulseClass} {s t u : State}
    (hr : s.st.receiving = true) (h : decodeStep c { s with resp := 0#32, rearm := false } = .run t)
    (tail : PulseRun cs t u) : PulseRun (c :: cs) s u :=
  have hr' : ({ s with resp := 0#32, rearm := false } : State).st.receiving = true := hr
  .cons (congrArg Progress.outcome ((pulse_receiving hr').trans h)) tail

theorem PulseRun.append {cs ds : List PulseClass} {s t u : State} (h : PulseRun cs s t) (h' : PulseRun ds t u) :
    PulseRun (cs ++ ds) s u := by
  induction h with
  | nil => exact h'
  | cons head _ ih => exact .cons head (ih h')

/-- A run leaves the parameter set (R8). -/
theorem PulseRun.cfg_eq {cs : List PulseClass} {s t : State} (h : PulseRun cs s t) : t.cfg = s.cfg := by
  induction h with
  | nil => rfl
  | cons head _ ih => exact ih.trans (pulse_keeps_inputs head).1

/-- EDGE commands whose widths have the classes of a run do that run. -/
theorem PulseRun.runCommands_edges {cs : List PulseClass} {s t : State} (h : PulseRun cs s t)
    {ps : List (Phase × Ticks)} (hps : classes s.cfg ps = cs) : runCommands (edges ps) s = .next t := by
  induction h generalizing ps with
  | nil =>
    obtain rfl := List.map_eq_nil_iff.1 hps
    rfl
  | @cons c cs s t u head _ ih =>
    obtain ⟨p, rest, rfl, hp, hrest⟩ := List.map_eq_cons_iff.1 hps
    have hexec : exec (.edge p.1 p.2) s = .next t := by rw [exec_edge, hp, head]
    have htail : runCommands (edges rest) t = .next u := ih (by rw [(pulse_keeps_inputs head).1]; exact hrest)
    simpa [edges, runCommands, hexec] using htail

/-- A pulse that counts up a predicate, delivered `k` times. -/
theorem PulseRun.replicate {c : PulseClass} {P : Nat → State → Prop}
    (hstep : ∀ i s, P i s → ∃ t, PulseRun [c] s t ∧ P (i + 1) t) {s : State} (hs : P 0 s) (k : Nat) :
    ∃ t, PulseRun (List.replicate k c) s t ∧ P k t := by
  induction k with
  | zero => exact ⟨s, .nil s, hs⟩
  | succ k ih =>
    obtain ⟨t, hrun, ht⟩ := ih
    obtain ⟨u, hlast, hu⟩ := hstep k t ht
    exact ⟨u, List.replicate_succ' ▸ hrun.append hlast, hu⟩

/-! ## The message in RAW -/

/-- A bit write puts the bit at the cursor and keeps the message below it (R61, R62). -/
theorem messageBit_rawAfterBit (b : Bool) {s : State} (hraw : s.raw.wf = true) {j : Nat} (hj : j ≤ s.cur.toNat) :
    messageBit (rawAfterBit b s) j = if j = s.cur.toNat then b else messageBit s.raw j := by
  obtain ⟨hother, hown, -, hsame, -, -⟩ := bitWritePlacement b s hraw
  unfold messageBit
  by_cases hcur : j = s.cur.toNat
  · rw [if_pos hcur, hcur, hown]
  · rw [if_neg hcur]
    by_cases hbyte : j / 4 = s.cur.toNat / 4
    · rw [hbyte, hsame (by omega) (j % 4) (by omega) (by omega)]
    · rw [hother _ hbyte]

/-- The first bit of a message, a 0, clears byte 0 (R62, R126). -/
theorem rawAfterBit_first (s : State) : rawAfterBit false { s with cur := 0#8 } = s.raw.put 0 0#8 := by
  simp [rawAfterBit, nibIndex_eq, bitIndex_eq, byteOfBit]

/-- RAW holds exactly the bits `msg` below the cursor (R61). -/
structure HoldsMessage (msg : List Bool) (s : State) : Prop where
  raw_wf : s.raw.wf = true
  cursor : s.cur.toNat = msg.length
  bits : ∀ j, j < msg.length → messageBit s.raw j = msg.getD j false

/-- With the cursor at 0 RAW holds no bit of a message yet, whatever earlier messages left in it. -/
theorem HoldsMessage.empty {s : State} (hraw : s.raw.wf = true) (hcur : s.cur = 0#8) : HoldsMessage [] s :=
  ⟨hraw, by rw [hcur]; rfl, fun _ hj => absurd hj (Nat.not_lt_zero _)⟩

/-- What `HoldsMessage` reads is RAW and the cursor. -/
theorem HoldsMessage.congr {msg : List Bool} {s t : State} (h : HoldsMessage msg s) (hraw : t.raw = s.raw)
    (hcur : t.cur = s.cur) : HoldsMessage msg t :=
  ⟨hraw ▸ h.raw_wf, hcur ▸ h.cursor, hraw ▸ h.bits⟩

/-- A bit write below the capacity appends its bit to the message (R62). -/
theorem HoldsMessage.write {msg : List Bool} {s t : State} (h : HoldsMessage msg s) (b : Bool)
    (hroom : s.cur.toNat + 1 < rawBits s.cfg.consts) (hraw : t.raw = rawAfterBit b s) (hcur : t.cur = s.cur + 1#8) :
    HoldsMessage (msg ++ [b]) t where
  raw_wf := hraw ▸ rawAfterBit_wf b h.raw_wf
  cursor := by
    rw [hcur, BitVec.toNat_add_of_lt (Nat.lt_of_lt_of_le hroom (rawBits_le _)), h.cursor, List.length_append]
    rfl
  bits j hj := by
    rw [List.length_append, List.length_singleton, ← h.cursor] at hj
    rw [hraw, messageBit_rawAfterBit b h.raw_wf (Nat.le_of_lt_succ hj)]
    by_cases hlast : j = s.cur.toNat
    · rw [if_pos hlast, hlast, h.cursor]
      simp
    · have hold : j < msg.length := h.cursor ▸ Nat.lt_of_le_of_ne (Nat.le_of_lt_succ hj) hlast
      rw [if_neg hlast, h.bits j hold, List.getD_eq_getElem?_getD, List.getD_eq_getElem?_getD,
        List.getElem?_append_left hold]

end Sys2Proof.Machine
end

section
/-!
PROOFS. The pulse trains of both protocols (42_manchester_decoder.md R149, R150): the preamble counts its pulses, the
commit opens the message, and each further bit's pulses append that bit to the message in RAW.
-/
namespace Sys2Proof.Machine

/-! ## The preamble -/

/-- In IDLE with `shorts` Shorts and `longs` Longs counted, saturated at CNT_W bits (R125), and the trace as given. -/
structure InPreamble (trace : List Cause) (shorts longs : Nat) (s : State) : Prop where
  st : s.st = .idle
  shortCnt : s.shortCnt = min shorts (2 ^ s.cfg.cntW - 1)
  longCnt : s.longCnt = min longs (2 ^ s.cfg.cntW - 1)
  raw_wf : s.raw.wf = true
  trace_eq : s.trace = trace

theorem InPreamble.start {s : State} (hi : s.st = .idle) (hshort : s.shortCnt = 0) (hlong : s.longCnt = 0)
    (hraw : s.raw.wf = true) : InPreamble s.trace 0 0 s :=
  ⟨hi, by simp [hshort], by simp [hlong], hraw, rfl⟩

/-- A saturated count of `i` pulses goes on to `i + 1` (R125). -/
theorem countUp_min (c : Config) (i : Nat) :
    countUp c (min i (2 ^ c.cntW - 1)) = min (i + 1) (2 ^ c.cntW - 1) := by
  unfold countUp
  omega


/-- With no Long before it a Short is counted (R121). -/
theorem InPreamble.short {trace : List Cause} {i : Nat} {s : State} (h : InPreamble trace i 0 s) :
    ∃ t, PulseRun [.short] s t ∧ InPreamble trace (i + 1) 0 t := by
  have hlong : s.longCnt = 0 := by simpa using h.longCnt
  have hcommit : ¬(s.shortCnt ≤ 1 ∧ s.cfg.consts.v2Pre < s.longCnt) := by omega
  refine ⟨_, .cons_idle h.st (idleShort_counts hcommit hlong) (.nil _), ?_⟩
  exact ⟨h.st, by rw [← countUp_min, ← h.shortCnt], h.longCnt, h.raw_wf, h.trace_eq⟩

/-- With no Short before it a Long is counted (R122). -/
theorem InPreamble.long {trace : List Cause} {i : Nat} {s : State} (h : InPreamble trace 0 i s) :
    ∃ t, PulseRun [.long] s t ∧ InPreamble trace 0 (i + 1) t := by
  have hshort : s.shortCnt = 0 := by simpa using h.shortCnt
  have hcommit : ¬ s.cfg.consts.v3Pre < s.shortCnt := by omega
  refine ⟨_, .cons_idle h.st (idleLong_counts hcommit (by simp [hshort])) (.nil _), ?_⟩
  exact ⟨h.st, h.shortCnt, by rw [← countUp_min, ← h.longCnt], h.raw_wf, h.trace_eq⟩

/-! ## A V3 message -/

/-- In RXV3 between two bits, with `msg` received and `prev` the bit decoded last. -/
structure ReceivesV3 (msg : List Bool) (prev : Bool) (s : State) : Prop where
  st : s.st = .rxv3
  ver : s.ver = 3#2
  pend : s.pend = false
  lastBit : s.lastBit = prev
  message : HoldsMessage msg s

/-- The Long after the preamble opens the message with bit 0 (R122, R126). -/
theorem InPreamble.commitV3 {trace : List Cause} {k : Nat} {s : State} (h : InPreamble trace k 0 s)
    (hk : s.cfg.consts.v3Pre < k) (hwidth : s.cfg.consts.v3Pre < 2 ^ s.cfg.cntW - 1)
    (hroom : 1 < rawBits s.cfg.consts) : ∃ t, PulseRun [.long] s t ∧ ReceivesV3 [false] false t := by
  have hpre : s.cfg.consts.v3Pre < s.shortCnt := h.shortCnt ▸ Nat.lt_min.2 ⟨hk, hwidth⟩
  refine ⟨_, .cons_idle h.st (idleLong_commits hpre hroom) (.nil _), rfl, rfl, rfl, rfl, ?_⟩
  have hempty : HoldsMessage [] { s with cur := 0#8 } := .empty h.raw_wf rfl
  exact hempty.write false hroom (rawAfterBit_first s).symm rfl

/-- Two Shorts repeat the last bit and a Long flips it: either way the bit is written (R142, R143). -/
theorem ReceivesV3.bit {msg : List Bool} {prev : Bool} {s : State} (h : ReceivesV3 msg prev s) (b : Bool)
    (hroom : msg.length + 1 < rawBits s.cfg.consts) :
    ∃ t, PulseRun (if b = prev then [.short, .short] else [.long]) s t ∧ ReceivesV3 (msg ++ [b]) b t := by
  obtain ⟨hst, hver, hpend, hlast, hmsg⟩ := h
  rw [← hmsg.cursor] at hroom
  have hr : s.st.receiving = true := (receiving_iff _).2 (.inl hst)
  by_cases hb : b = prev
  · rw [if_pos hb]
    obtain rfl : s.lastBit = b := hlast.trans hb.symm
    refine ⟨_, .cons_receiving hr (rxShort_keeps hpend)
      (.cons_receiving hr (rxShort_writes3 rfl hst hroom) (.nil _)), ?_⟩
    exact ⟨hst, hver, rfl, rfl, hmsg.write _ hroom rfl rfl⟩
  · rw [if_neg hb]
    obtain rfl : (!s.lastBit) = b := by rw [hlast]; exact (Bool.eq_not.2 hb).symm
    refine ⟨_, .cons_receiving hr (rxLong_writes3 hpend hst hroom) (.nil _), ?_⟩
    exact ⟨hst, hver, hpend, rfl, hmsg.write _ hroom rfl rfl⟩

/-- The pulses of further bits append these bits to the message. -/
theorem ReceivesV3.bits {msg bits : List Bool} {prev : Bool} {s : State} (h : ReceivesV3 msg prev s)
    (hroom : msg.length + bits.length < rawBits s.cfg.consts) :
    ∃ t last, PulseRun (v3Pulses prev bits) s t ∧ ReceivesV3 (msg ++ bits) last t := by
  induction bits generalizing msg prev s with
  | nil => exact ⟨s, prev, .nil s, by rwa [List.append_nil]⟩
  | cons b rest ih =>
    rw [List.length_cons] at hroom
    obtain ⟨t, hbit, ht⟩ := h.bit b (by omega)
    obtain ⟨u, last, hrest, hu⟩ := ih ht (by rw [hbit.cfg_eq, List.length_append, List.length_singleton]; omega)
    exact ⟨u, last, hbit.append hrest, List.append_cons .. ▸ hu⟩

/-- A V3 train is received bit for bit (R149). -/
theorem v3Train_run {s : State} {k : Nat} {bits : List Bool} (h : InPreamble s.trace 0 0 s)
    (hk : s.cfg.consts.v3Pre < k) (hwidth : s.cfg.consts.v3Pre < 2 ^ s.cfg.cntW - 1)
    (hroom : bits.length + 1 < rawBits s.cfg.consts) :
    ∃ t last, PulseRun (v3Train k bits) s t ∧ ReceivesV3 (false :: bits) last t := by
  obtain ⟨t, hpre, ht⟩ := PulseRun.replicate (P := fun i => InPreamble s.trace i 0) (fun _ _ h => h.short) h k
  have hcfg := hpre.cfg_eq
  obtain ⟨u, hcommit, hu⟩ := ht.commitV3 (hcfg ▸ hk) (hcfg ▸ hwidth) (hcfg ▸ by omega)
  have hcfg' : u.cfg = s.cfg := hcommit.cfg_eq.trans hcfg
  obtain ⟨v, last, hrest, hv⟩ := hu.bits (bits := bits) (by rw [hcfg', List.length_singleton]; omega)
  exact ⟨v, last, (hpre.append hcommit).append hrest, hv⟩

/-- Settles O43: the train is received bit for bit, and the Noise after it finds the cursor at the message's length. -/
theorem v3TrainWritesMessage : Obligations.V3TrainWritesMessage := by
  intro s ps k bits hi hshort hlong hraw hk hwidth hroom hps
  obtain ⟨t, last, hrun, ht⟩ := v3Train_run (.start hi hshort hlong hraw) hk hwidth hroom
  have hcur : t.cur.toNat = bits.length + 1 := ht.message.cursor
  refine ⟨t, hrun.runCommands_edges hps, ht.st, ht.ver, hcur, ht.message.bits, fun ph ticks hnoise => ?_⟩
  rw [← hrun.cfg_eq] at hnoise ⊢
  rw [← hcur]
  obtain ⟨hends, hraises⟩ := receiveNoise t ph ticks (.inl ht.st) hnoise
  by_cases hbits : t.cfg.consts.minBitsNoise ≤ t.cur.toNat
  · exact ⟨_, hends hbits, iff_of_true rfl hbits⟩
  · exact ⟨_, hraises (Nat.not_le.1 hbits), iff_of_false (by simp) hbits⟩

/-! ## A V2.1 message -/

/-- In RXV2 between two decoded bits, with `msg` received, `prev` the bit decoded last, and the next one dumped iff
`dump`; a short pair just before is allowed only where a written bit follows (R146). -/
structure ReceivesV2 (trace : List Cause) (dump : Bool) (msg : List Bool) (prev : Bool) (s : State) : Prop where
  st : s.st = .rxv2
  ver : s.ver = 2#2
  pend : s.pend = false
  lastBit : s.lastBit = prev
  dump_eq : s.dump = dump
  psp : dump = true → s.psp = false
  message : HoldsMessage msg s
  trace_eq : s.trace = trace

/-- The two Shorts after the preamble decode a 1 that is dumped (R121, R123, R145). -/
theorem InPreamble.commitV2 {trace : List Cause} {k : Nat} {s : State} (h : InPreamble trace 0 k s)
    (hk : s.cfg.consts.v2Pre < k) (hwidth : s.cfg.consts.v2Pre < 2 ^ s.cfg.cntW - 1) :
    ∃ t, PulseRun [.short, .short] s t ∧ ReceivesV2 trace false [] true t := by
  have hshort : s.shortCnt = 0 := by simpa using h.shortCnt
  have hpre : s.cfg.consts.v2Pre < s.longCnt := h.longCnt ▸ Nat.lt_min.2 ⟨hk, hwidth⟩
  refine ⟨_, .cons_idle h.st (idleShort_commits ⟨by simp [hshort], hpre⟩)
    (.cons_receiving rfl (rxShort_dumps rfl rfl rfl rfl) (.nil _)), ?_⟩
  exact ⟨rfl, rfl, rfl, rfl, rfl, nofun, .empty h.raw_wf rfl, h.trace_eq⟩

/-- The first half of a bit's pair, whatever its value, is dumped (R142, R143, R145). -/
theorem ReceivesV2.dumped {trace : List Cause} {msg : List Bool} {prev : Bool} {s : State}
    (h : ReceivesV2 trace true msg prev s) (m : Bool) :
    ∃ t, PulseRun (if m = prev then [.short, .short] else [.long]) s t ∧ ReceivesV2 trace false msg m t := by
  obtain ⟨hst, hver, hpend, hlast, hdump, hpsp, hmsg, htrace⟩ := h
  have hr : s.st.receiving = true := (receiving_iff _).2 (.inr hst)
  by_cases hm : m = prev
  · rw [if_pos hm]
    refine ⟨_, .cons_receiving hr (rxShort_keeps hpend)
      (.cons_receiving hr (rxShort_dumps rfl hst (hpsp rfl) hdump) (.nil _)), ?_⟩
    exact ⟨hst, hver, rfl, hlast.trans hm.symm, rfl, nofun, hmsg.congr rfl rfl, htrace⟩
  · rw [if_neg hm]
    obtain rfl : (!s.lastBit) = m := by rw [hlast]; exact (Bool.eq_not.2 hm).symm
    refine ⟨_, .cons_receiving hr (rxLong_dumps hpend hst hdump) (.nil _), ?_⟩
    exact ⟨hst, hver, hpend, rfl, rfl, nofun, hmsg.congr rfl rfl, htrace⟩

/-- The Long that ends a bit's pair writes the complement of the dumped half (R143, R145). -/
theorem ReceivesV2.written {trace : List Cause} {msg : List Bool} {prev : Bool} {s : State}
    (h : ReceivesV2 trace false msg prev s) (hroom : msg.length + 1 < rawBits s.cfg.consts) :
    ∃ t, PulseRun [.long] s t ∧ ReceivesV2 trace true (msg ++ [!prev]) (!prev) t := by
  obtain ⟨hst, hver, hpend, rfl, hdump, -, hmsg, htrace⟩ := h
  rw [← hmsg.cursor] at hroom
  have hr : s.st.receiving = true := (receiving_iff _).2 (.inr hst)
  refine ⟨_, .cons_receiving hr (rxLong_writes2 hpend hst hdump hroom) (.nil _), ?_⟩
  exact ⟨hst, hver, hpend, rfl, rfl, fun _ => rfl, hmsg.write _ hroom rfl rfl, htrace⟩

/-- The pulses of further bits append these bits to the message. -/
theorem ReceivesV2.bits {trace : List Cause} {msg bits : List Bool} {prev : Bool} {s : State}
    (h : ReceivesV2 trace true msg prev s) (hroom : msg.length + bits.length < rawBits s.cfg.consts) :
    ∃ t last, PulseRun (v2Pulses prev bits) s t ∧ ReceivesV2 trace true (msg ++ bits) last t := by
  induction bits generalizing msg prev s with
  | nil => exact ⟨s, prev, .nil s, by rwa [List.append_nil]⟩
  | cons b rest ih =>
    rw [List.length_cons] at hroom
    obtain ⟨t, hfirst, ht⟩ := h.dumped (!b)
    obtain ⟨u, hsecond, hu⟩ := ht.written (by rw [hfirst.cfg_eq]; omega)
    rw [Bool.not_not] at hu
    have hbit := hfirst.append hsecond
    obtain ⟨v, last, hrest, hv⟩ := ih hu (by rw [hbit.cfg_eq, List.length_append, List.length_singleton]; omega)
    exact ⟨v, last, hbit.append hrest, List.append_cons .. ▸ hv⟩

/-- A V2.1 train is received bit for bit, and no full reset joins the trace (R150). -/
theorem v2Train_run {s : State} {k : Nat} {bits : List Bool} (h : InPreamble s.trace 0 0 s)
    (hk : s.cfg.consts.v2Pre < k) (hwidth : s.cfg.consts.v2Pre < 2 ^ s.cfg.cntW - 1)
    (hroom : bits.length + 1 < rawBits s.cfg.consts) :
    ∃ t last, PulseRun (v2Train k bits) s t ∧ ReceivesV2 s.trace true (false :: bits) last t := by
  obtain ⟨t, hpre, ht⟩ := PulseRun.replicate (P := fun i => InPreamble s.trace 0 i) (fun _ _ h => h.long) h k
  have hcfg := hpre.cfg_eq
  obtain ⟨u, hcommit, hu⟩ := ht.commitV2 (hcfg ▸ hk) (hcfg ▸ hwidth)
  have hcfg' : u.cfg = s.cfg := hcommit.cfg_eq.trans hcfg
  obtain ⟨v, hzero, hv⟩ := hu.written (by rw [hcfg', List.length_nil]; omega)
  have hcfg'' : v.cfg = s.cfg := hzero.cfg_eq.trans hcfg'
  obtain ⟨w, last, hrest, hw⟩ := hv.bits (bits := bits) (by rw [hcfg'']; simpa [Nat.add_comm] using hroom)
  exact ⟨w, last, (hpre.append (hcommit.append hzero)).append hrest, hw⟩

/-- Settles O44: the train is received bit for bit, each bit once as a dumped and once as a written half. -/
theorem v2TrainWritesMessage : Obligations.V2TrainWritesMessage := by
  intro s ps k bits hi hshort hlong hraw hk hwidth hroom hps
  obtain ⟨t, last, hrun, ht⟩ := v2Train_run (.start hi hshort hlong hraw) hk hwidth hroom
  exact ⟨t, hrun.runCommands_edges hps, ht.st, ht.ver, ht.message.cursor, ht.trace_eq, ht.message.bits⟩

end Sys2Proof.Machine
end

section
/-!
PROOFS. The completion timer (43_completion_timer.md R170, R172): TIMEOUT as a whole next state where it ends the
message and where it only disarms the timer, and that under the invariant an unarmed one never ends a message.
-/
namespace Sys2Proof.Machine

/-- TIMEOUT as a whole next state where it ends the message (R170). -/
theorem exec_timeout_ends {s : State} (he : timeoutEnds s = true) :
    exec .timeout s = .next { s with st := .ready, armed := false, resp := 0#32, rearm := false } :=
  if_pos he

/-- TIMEOUT as a whole next state where it only disarms the timer (R170). -/
theorem exec_timeout_disarms {s : State} (he : timeoutEnds s = false) :
    exec .timeout s = .next { s with armed := false, resp := 0#32, rearm := false } :=
  if_neg (Bool.eq_false_iff.1 he)

/-- Under the invariant TIMEOUT never ends a message whose timer is not armed: the message is then short (R172). -/
theorem Invariant.unarmed_timeoutEnds {s : State} (h : Invariant s) (harmed : s.armed = false) :
    timeoutEnds s = false := by
  refine Bool.eq_false_iff.2 fun he => ?_
  obtain ⟨heffect, hr, hlong⟩ := (timeoutEnds_iff s).1 he
  exact absurd (h.unarmed_short heffect hr harmed) (Nat.not_le.2 hlong)

/-- Settles O28: the message is short, so TIMEOUT only clears an armed flag that is clear already. -/
theorem unarmedTimeoutHasNoEffect : Obligations.UnarmedTimeoutHasNoEffect := by
  intro s h _ harmed _
  calc exec .timeout s
      = .next { s with armed := false, resp := 0#32, rearm := false } :=
        exec_timeout_disarms (h.unarmed_timeoutEnds harmed)
    _ = .next { s with resp := 0#32, rearm := false } := by rw [harmed]

/-- Settles O27: TIMEOUT's two cases, a receiving state being RXV3 or RXV2. -/
theorem timeoutEndsLongMessages : Obligations.TimeoutEndsLongMessages := by
  refine ⟨rfl, fun s => ⟨fun heffect hst hlong => ?_, fun hkeeps => ?_⟩⟩
  · exact exec_timeout_ends ((timeoutEnds_iff s).2 ⟨heffect, (receiving_iff _).2 hst, hlong⟩)
  · exact exec_timeout_disarms (Bool.eq_false_iff.2 (by rwa [Ne, timeoutEnds_iff, receiving_iff]))

end Sys2Proof.Machine
end

section
/-!
PROOFS. The parts of the framing (44_packet_reader.md R183 to R186): the duplicate scan finds the least mark, the splice
moves the second copy to the front, the checksum is the nibble sum test, and the recovery tries three positions in order.
-/
namespace Sys2Proof.Machine

/-! ## The duplicate scan -/

/-- The scan register before nibble `i` is read: index 10 is the first one shifted in (R183). -/
def scanReg (w : Memory) : Nat → BitVec 20
  | 0 => 0#20
  | i + 1 => if i < 10 then 0#20 else scanShift Constants.source (scanReg w i) (w.byte i)

/-- The scan starts with an empty register (R183). -/
theorem scanReg_start (w : Memory) : scanReg w 10 = 0#20 := rfl

theorem scanReg_succ (w : Memory) {i : Nat} (hi : 10 ≤ i) :
    scanReg w (i + 1) = scanShift Constants.source (scanReg w i) (w.byte i) :=
  if_neg (Nat.not_lt.2 hi)

theorem Memory.byte_toNat_lt {w : Memory} (hw : w.nibbles = true) (i : Nat) : (w.byte i).toNat < 16 :=
  BitVec.lt_def.1 (Memory.byte_lt_of_nibbles hw i)

/-- A nibble shifted into the 20-bit register, as a number (R183). -/
theorem scanShift_toNat (r : BitVec 20) {x : Byte} (hx : x.toNat < 16) :
    (scanShift Constants.source r x).toNat = (16 * r.toNat + x.toNat) % 2 ^ 20 := by
  have hmask : scanShift Constants.source r x = r <<< 4 ||| x.setWidth 20 := BitVec.and_allOnes
  have hdisjoint : r <<< 4 &&& x.setWidth 20 = 0#20 := by
    ext j hj
    by_cases h4 : j < 4
    · simp [h4]
    · have hhigh : x.getLsbD j = false :=
        Nat.testBit_lt_two_pow (Nat.lt_of_lt_of_le hx (Nat.pow_le_pow_right (n := 2) (by omega) (Nat.not_lt.1 h4)))
      simp [hhigh]
  rw [hmask, ← BitVec.add_eq_or_of_and_eq_zero _ _ hdisjoint, BitVec.toNat_add, BitVec.toNat_shiftLeft,
    BitVec.toNat_setWidth, Nat.shiftLeft_eq]
  omega

theorem scanReg_succ_toNat {w : Memory} (hw : w.nibbles = true) {i : Nat} (hi : 10 ≤ i) :
    (scanReg w (i + 1)).toNat = (16 * (scanReg w i).toNat + (w.byte i).toNat) % 2 ^ 20 := by
  rw [scanReg_succ w hi, scanShift_toNat _ (Memory.byte_toNat_lt hw i)]

/-- After `c` nibbles the register holds at most `c` of them. -/
theorem scanReg_lt {w : Memory} (hw : w.nibbles = true) (c : Nat) : (scanReg w (10 + c)).toNat < 16 ^ c := by
  induction c with
  | zero => rw [Nat.add_zero, scanReg_start]; decide
  | succ c ih =>
    have hstep := scanReg_succ_toNat hw (Nat.le_add_right 10 c)
    have hbyte := Memory.byte_toNat_lt hw (10 + c)
    rw [← Nat.add_assoc, Nat.pow_succ]
    omega

theorem marksSecondCopy_iff_toNat (w : Memory) (i : Nat) : MarksSecondCopy w i ↔
    (w.byte i).toNat = 10 ∧ (w.byte (i - 1)).toNat = 15 ∧ (w.byte (i - 2)).toNat = 15 ∧
      (w.byte (i - 3)).toNat = 15 ∧ (w.byte (i - 4)).toNat = 15 := by
  constructor
  · rintro ⟨h0, h1, h2, h3, h4⟩
    simp [h0, h1, h2, h3, h4]
  · rintro ⟨h0, h1, h2, h3, h4⟩
    exact ⟨BitVec.eq_of_toNat_eq h0, BitVec.eq_of_toNat_eq h1, BitVec.eq_of_toNat_eq h2, BitVec.eq_of_toNat_eq h3,
      BitVec.eq_of_toNat_eq h4⟩

/-- From five nibbles on the register holds the last five (R183). -/
theorem scanReg_toNat {w : Memory} (hw : w.nibbles = true) {k : Nat} (hk : 10 ≤ k) :
    (scanReg w (k + 4 + 1)).toNat =
      16 * (16 * (16 * (16 * (w.byte k).toNat + (w.byte (k + 1)).toNat) + (w.byte (k + 2)).toNat) +
        (w.byte (k + 3)).toNat) + (w.byte (k + 4)).toNat := by
  have hbyte := Memory.byte_toNat_lt hw
  have h0 := hbyte k
  have h1 := hbyte (k + 1)
  have h2 := hbyte (k + 2)
  have h3 := hbyte (k + 3)
  have h4 := hbyte (k + 4)
  rw [scanReg_succ_toNat hw (by omega), scanReg_succ_toNat hw (by omega), scanReg_succ_toNat hw (by omega),
    scanReg_succ_toNat hw (by omega), scanReg_succ_toNat hw hk]
  omega

/-- The register holds the pattern exactly after the sync nibble of a second copy; fewer than five nibbles do not fill
it (R183, 90_conflicts.md C4). -/
theorem scanReg_eq_pattern_iff {w : Memory} (hw : w.nibbles = true) {i : Nat} (hi : 10 ≤ i) :
    scanReg w (i + 1) = Constants.source.dupPattern ↔ 14 ≤ i ∧ MarksSecondCopy w i := by
  have hpattern : Constants.source.dupPattern.toNat = 0xFFFFA := rfl
  rw [← BitVec.toNat_inj, hpattern]
  by_cases h14 : 14 ≤ i
  · obtain ⟨k, rfl⟩ : ∃ k, i = k + 4 := ⟨i - 4, by omega⟩
    have hbyte := Memory.byte_toNat_lt hw
    have h0 := hbyte k
    have h1 := hbyte (k + 1)
    have h2 := hbyte (k + 2)
    have h3 := hbyte (k + 3)
    have h4 := hbyte (k + 4)
    rw [scanReg_toNat hw (by omega)]
    simp only [marksSecondCopy_iff_toNat, Nat.reduceSubDiff, Nat.add_sub_cancel, h14, true_and]
    omega
  · obtain ⟨c, rfl⟩ : ∃ c, i = 10 + c := ⟨i - 10, by omega⟩
    have hlt := scanReg_lt hw (c + 1)
    have hpow : 16 ^ (c + 1) ≤ 16 ^ 4 := Nat.pow_le_pow_right (by omega) (by omega)
    rw [← Nat.add_assoc] at hlt
    omega

/-- The scan answers the least index after whose nibble the register holds the pattern (R183). -/
theorem dupScanLoop_least (w : Memory) : ∀ (count i : Nat), 10 ≤ i → i + count ≤ 64 →
    ∃ r, dupScanLoop Constants.source w count i (scanReg w i) = .ok r ∧
      ∀ j, r = some j ↔ i ≤ j ∧ j < i + count ∧ scanReg w (j + 1) = Constants.source.dupPattern ∧
        ∀ l, i ≤ l → l < j → scanReg w (l + 1) ≠ Constants.source.dupPattern
  | 0, i, _, _ => ⟨none, rfl, fun j => by simp only [reduceCtorEq, false_iff]; omega⟩
  | count + 1, i, hi, hin => by
    rw [dupScanLoop, memRead_ok (by omega), Except.bind_ok, ← scanReg_succ w hi]
    by_cases hhit : scanReg w (i + 1) = Constants.source.dupPattern
    · refine ⟨some i, if_pos hhit, fun j => ?_⟩
      constructor
      · rintro ⟨⟩
        exact ⟨Nat.le_refl i, by omega, hhit, fun l hl hlt => absurd hl (Nat.not_le.2 hlt)⟩
      · rintro ⟨hij, -, -, hleast⟩
        obtain heq | hlt := Nat.eq_or_lt_of_le hij
        · rw [heq]
        · exact absurd hhit (hleast i (Nat.le_refl i) hlt)
    · obtain ⟨r, hr, hfound⟩ := dupScanLoop_least w count (i + 1) (by omega) (by omega)
      refine ⟨r, by rw [if_neg hhit, hr], fun j => (hfound j).trans ?_⟩
      constructor
      · rintro ⟨hij, hj, hj_hit, hleast⟩
        refine ⟨by omega, by omega, hj_hit, fun l hl hlt => ?_⟩
        obtain rfl | hil := Nat.eq_or_lt_of_le hl
        · exact hhit
        · exact hleast l hil hlt
      · rintro ⟨hij, hj, hj_hit, hleast⟩
        have hne : j ≠ i := by rintro rfl; exact hhit hj_hit
        exact ⟨by omega, by omega, hj_hit, fun l hl => hleast l (by omega)⟩

/-- Settles O47: the least index with the pattern in the register is the least mark from index 14 on. -/
theorem dupScanFindsSecondCopy : Obligations.DupScanFindsSecondCopy := by
  intro w n hw hn
  by_cases h10 : 10 ≤ n
  · obtain ⟨r, hr, hfound⟩ := dupScanLoop_least w (n - 10) 10 (Nat.le_refl 10) (by omega)
    refine ⟨r, hr, fun i => (hfound i).trans ?_⟩
    constructor
    · rintro ⟨hi, hlt, hhit, hleast⟩
      obtain ⟨h14, hmark⟩ := (scanReg_eq_pattern_iff hw hi).1 hhit
      exact ⟨h14, by omega, hmark, fun j hj hji hm =>
        hleast j (by omega) hji ((scanReg_eq_pattern_iff hw (by omega)).2 ⟨hj, hm⟩)⟩
    · rintro ⟨h14, hlt, hmark, hleast⟩
      refine ⟨by omega, by omega, (scanReg_eq_pattern_iff hw (by omega)).2 ⟨h14, hmark⟩, fun j hj hji hhit => ?_⟩
      obtain ⟨hj14, hm⟩ := (scanReg_eq_pattern_iff hw hj).1 hhit
      exact hleast j hj14 hji hm
  · have hempty : n - 10 = 0 := by omega
    refine ⟨none, ?_, fun i => by simp only [reduceCtorEq, false_iff]; omega⟩
    change dupScanLoop Constants.source w (n - 10) 10 0#20 = .ok none
    rw [hempty]
    rfl

/-! ## The splice -/

/-- Settles O48: the copy loop from byte 0 on. -/
theorem spliceCopiesSecondCopy : Obligations.SpliceCopiesSecondCopy := fun _ _ _ => splice_ok

/-! ## The checksum -/

/-- Settles O49: the checksum inside its bounds and outside. -/
theorem checksumTest : Obligations.ChecksumTest := fun _ _ hw => ⟨checksum_inside hw, checksum_outside⟩

/-- A position inside the bounds whose sum is good passes (R185). -/
theorem checksum_passes {w : Memory} (hw : w.nibbles = true) {pos : Int} (h1 : 1 ≤ pos) (h60 : pos ≤ 60)
    (h : ChecksumHolds w pos.toNat) : checksum Constants.source w pos = .ok true := by
  obtain ⟨b, hb, hiff⟩ := checksum_inside hw h1 h60
  rw [hb, hiff.2 h]

/-- A position fails where it lies outside the bounds or its sum is not good (R185). -/
theorem checksum_fails {w : Memory} (hw : w.nibbles = true) {pos : Int}
    (h : 1 ≤ pos → pos ≤ 60 → ¬ ChecksumHolds w pos.toNat) : checksum Constants.source w pos = .ok false := by
  by_cases hout : pos < 1 ∨ 60 < pos
  · exact checksum_outside hout
  · obtain ⟨b, hb, hiff⟩ := checksum_inside hw (pos := pos) (by omega) (by omega)
    rw [hb, Bool.eq_false_iff.2 fun hpass => h (by omega) (by omega) (hiff.1 hpass)]

/-- A position that passes has a good sum (R185). -/
theorem checksumHolds_of_passes {w : Memory} (hw : w.nibbles = true) {pos : Int} (h1 : 1 ≤ pos) (h60 : pos ≤ 60)
    (h : checksum Constants.source w pos = .ok true) : ChecksumHolds w pos.toNat := by
  obtain ⟨b, hb, hiff⟩ := checksum_inside hw h1 h60
  rw [hb] at h
  cases h
  exact hiff.1 rfl

/-- The sum reads bytes below its position only. -/
theorem sumBelow_congr {m m' : Memory} : ∀ {p : Nat}, (∀ k, k < p → m.byte k = m'.byte k) →
    sumBelow m p = sumBelow m' p
  | 0, _ => rfl
  | 1, _ => rfl
  | p + 2, h => by
    rw [sumBelow, sumBelow, sumBelow_congr fun k hk => h k (by omega), h (p + 1) (by omega)]

/-- The checksum at `p` reads the bytes up to `p + 1` only (R185). -/
theorem ChecksumHolds.congr {m m' : Memory} {p : Nat} (h : ChecksumHolds m p)
    (hbytes : ∀ k, k < p + 2 → m.byte k = m'.byte k) : ChecksumHolds m' p := by
  rwa [ChecksumHolds, ← sumBelow_congr fun k hk => hbytes k (by omega), ← hbytes p (by omega),
    ← hbytes (p + 1) (by omega)]

/-! ## The recovery -/

/-- The source's CS_BACK is 4 (R7, R186). -/
theorem recover_source (w : Memory) (n : Int) : recover Constants.source w n =
    tryPositions Constants.source w [n - 4, n - 3, n - 2] := by
  have h3 : n - 4 + 1 = n - 3 := by omega
  have h2 : n - 4 + 2 = n - 2 := by omega
  rw [← h3, ← h2]
  rfl

theorem tryPositions_pass {w : Memory} {pos len : Int} (rest : List Int)
    (h : checksum Constants.source w pos = .ok true) (hlen : pos + 4 = len) :
    tryPositions Constants.source w (pos :: rest) = .ok (some len.toNat) := by
  rw [tryPositions, h, ← hlen]
  rfl

theorem tryPositions_fail {w : Memory} {pos : Int} (rest : List Int)
    (h : checksum Constants.source w pos = .ok false) :
    tryPositions Constants.source w (pos :: rest) = tryPositions Constants.source w rest := by
  rw [tryPositions, h]
  rfl

/-- Settles O50: each failed position is passed over, and the first good one ends the trial. -/
theorem recoverTriesThreePositions : Obligations.RecoverTriesThreePositions := by
  intro w n b1 b2 b3 h1 h2 h3
  rw [recover_source]
  refine ⟨?_, ?_, ?_, ?_⟩
  · rintro rfl
    exact tryPositions_pass _ h1 (by omega)
  · rintro rfl rfl
    rw [tryPositions_fail _ h1]
    exact tryPositions_pass _ h2 (by omega)
  · rintro rfl rfl rfl
    rw [tryPositions_fail _ h1, tryPositions_fail _ h2]
    exact tryPositions_pass _ h3 (by omega)
  · rintro rfl rfl rfl
    rw [tryPositions_fail _ h1, tryPositions_fail _ h2, tryPositions_fail _ h3]
    rfl

/-- The first of the three positions that passes gives the length (R186). -/
theorem recover_first_pass {w : Memory} {n pos : Int} (hlow : n - 4 ≤ pos) (hhigh : pos ≤ n - 2)
    (hpass : checksum Constants.source w pos = .ok true)
    (hearlier : ∀ q, n - 4 ≤ q → q < pos → checksum Constants.source w q = .ok false) :
    recover Constants.source w n = .ok (some (pos + 4).toNat) := by
  rw [recover_source]
  obtain rfl | rfl | rfl : pos = n - 4 ∨ pos = n - 3 ∨ pos = n - 2 := by omega
  · exact tryPositions_pass _ hpass rfl
  · rw [tryPositions_fail _ (hearlier (n - 4) (by omega) (by omega))]
    exact tryPositions_pass _ hpass rfl
  · rw [tryPositions_fail _ (hearlier (n - 4) (by omega) (by omega)),
      tryPositions_fail _ (hearlier (n - 3) (by omega) (by omega))]
    exact tryPositions_pass _ hpass rfl

/-- A message whose own checksum is good is recovered at its own length (R186). -/
theorem recover_intact {w : Memory} (hw : w.nibbles = true) {len : Nat} (h5 : 5 ≤ len) (h64 : len ≤ 64)
    (h : ChecksumHolds w (len - 4)) : recover Constants.source w len = .ok (some len) := by
  have hpos : ((len : Int) - 4).toNat = len - 4 := by omega
  have hlen : ((len : Int) - 4 + 4).toNat = len := by omega
  have hpass := checksum_passes hw (pos := (len : Int) - 4) (by omega) (by omega) (by rwa [hpos])
  rw [recover_first_pass (Int.le_refl _) (by omega) hpass fun q hq hlt => absurd hq (by omega), hlen]

end Sys2Proof.Machine
end

section
/-!
PROOFS. The framing as a whole (44_packet_reader.md R182 to R187, R191, R192): what it answers with no second copy and
with one, that what it accepts begins with the sync nibble, the recovery from lost bits and the split of a double
transmission.
-/
namespace Sys2Proof.Machine

/-! ## The search for a second copy -/

/-- A message of at most DUP_MIN_LEN nibbles is not scanned (R183). -/
theorem findSecondCopy_short (w : Memory) {n : Nat} (hn : n ≤ 27) : findSecondCopy Constants.source w n = .ok none :=
  if_neg (Nat.not_lt.2 hn)

/-- The least mark of a message longer than DUP_MIN_LEN is found (R183). -/
theorem findSecondCopy_finds {w : Memory} {n off : Nat} (hw : w.nibbles = true) (hn : 27 < n) (hn64 : n ≤ 64)
    (h14 : 14 ≤ off) (hoff : off < n) (hmark : MarksSecondCopy w off)
    (hleast : ∀ j, 14 ≤ j → j < off → ¬ MarksSecondCopy w j) :
    findSecondCopy Constants.source w n = .ok (some off) := by
  obtain ⟨r, hr, hfound⟩ := dupScanFindsSecondCopy w n hw hn64
  rw [findSecondCopy, if_pos (show Constants.source.dupMinLen < n from hn), hr,
    (hfound off).2 ⟨h14, hoff, hmark, hleast⟩]

/-- An offset found is a mark inside the message (R183). -/
theorem findSecondCopy_marks {w : Memory} {n off : Nat} (hw : w.nibbles = true) (hn : n ≤ 64)
    (h : findSecondCopy Constants.source w n = .ok (some off)) : off < n ∧ MarksSecondCopy w off := by
  by_cases hlong : 27 < n
  · obtain ⟨r, hr, hfound⟩ := dupScanFindsSecondCopy w n hw hn
    rw [findSecondCopy, if_pos (show Constants.source.dupMinLen < n from hlong), hr] at h
    cases h
    obtain ⟨-, hoff, hmark, -⟩ := (hfound off).1 rfl
    exact ⟨hoff, hmark⟩
  · rw [findSecondCopy_short w (Nat.not_lt.1 hlong)] at h
    cases h

/-! ## What the framing answers -/

theorem recoverOn_of_recover {w : Memory} {n : Int} {r : Option Nat} (h : recover Constants.source w n = .ok r) :
    recoverOn Constants.source w n = .ok (r.map fun len => (w, len)) := by
  rw [recoverOn, h]
  rfl

/-- The recovery leaves the buffer (R186). -/
theorem recoverOn_buffer {w w' : Memory} {n : Int} {len : Nat}
    (h : recoverOn Constants.source w n = .ok (some (w', len))) : w' = w := by
  obtain ⟨r, hr, hpacket⟩ := recoverOn_answers w n
  rw [h] at hr
  cases hr
  exact (hpacket _ rfl).1

theorem secondCopy_of_splice {w w' : Memory} {off m : Nat} (h : splice w off m = .ok w') :
    secondCopy Constants.source w off m = recoverOn Constants.source w' m := by
  rw [secondCopy, h]
  rfl

/-- With no second copy the message is framed as it stands, if its sync nibble is valid (R182, R186). -/
theorem frame_single {w : Memory} {n : Nat} (hdup : findSecondCopy Constants.source w n = .ok none) :
    frame Constants.source w n = if w.byte 0 = 0x0A#8 then recoverOn Constants.source w n else .ok none := by
  rw [frame, memRead_ok (by omega), hdup]
  rfl

/-- With a second copy the first is framed if its sync nibble is valid and a position passes (R184, R186). -/
theorem frame_first {w : Memory} {n off len : Nat} (hdup : findSecondCopy Constants.source w n = .ok (some off))
    (hsync : w.byte 0 = 0x0A#8) (hr : recover Constants.source w ((off : Int) - 4) = .ok (some len)) :
    frame Constants.source w n = .ok (some (w, len)) := by
  have hsync' : w.byte 0 = Constants.source.sync := hsync
  have hrecover : recoverOn Constants.source w ((off : Int) - Constants.source.dupCut) = .ok (some (w, len)) :=
    recoverOn_of_recover hr
  rw [frame, memRead_ok (by omega), hdup]
  simp only [Except.bind_ok, if_pos hsync', hrecover]

/-- Else the second copy is framed: the first has no sync nibble, or none of its positions passes (R184, R187). -/
theorem frame_second {w : Memory} {n off : Nat} (hdup : findSecondCopy Constants.source w n = .ok (some off))
    (hfirst : w.byte 0 = 0x0A#8 → recover Constants.source w ((off : Int) - 4) = .ok none) :
    frame Constants.source w n = secondCopy Constants.source w off (n - off) := by
  rw [frame, memRead_ok (by omega), hdup]
  simp only [Except.bind_ok]
  split
  · have hrecover : recoverOn Constants.source w ((off : Int) - Constants.source.dupCut) = .ok none :=
      recoverOn_of_recover (hfirst ‹_›)
    rw [hrecover]
    rfl
  · rfl

/-- What the framing accepts begins with the sync nibble, which the second copy has by its mark (R182, R183). -/
theorem frame_sync {w w' : Memory} {n len : Nat} (hwf : w.wf = true) (hw : w.nibbles = true) (hn : n ≤ 64)
    (h : frame Constants.source w n = .ok (some (w', len))) : w'.byte 0 = 0x0A#8 := by
  obtain ⟨dup, hdup, -⟩ := findSecondCopy_answers Constants.source w hn
  cases dup with
  | none =>
    rw [frame_single hdup] at h
    split at h
    · rw [recoverOn_buffer h]; assumption
    · cases h
  | some off =>
    obtain ⟨hoff, hmark⟩ := findSecondCopy_marks hw hn hdup
    obtain ⟨r, hr, -⟩ := recover_answers w ((off : Int) - 4)
    by_cases hfirst : w.byte 0 = 0x0A#8 → r = none
    · obtain ⟨u, hu, -, hbytes⟩ := splice_ok (off := off) (m := n - off) hwf (by omega)
      rw [frame_second hdup fun hsync => by rw [hr, hfirst hsync], secondCopy_of_splice hu] at h
      rw [recoverOn_buffer h, hbytes, if_pos (by omega)]
      exact hmark.sync
    · obtain ⟨hsync, hsome⟩ := Classical.not_imp.1 hfirst
      obtain ⟨l, rfl⟩ := Option.ne_none_iff_exists'.1 hsome
      rw [frame_first hdup hsync hr] at h
      cases h
      exact hsync

/-! ## Lost bits -/

/-- Settles O51: at most two nibbles are lost, so the message's own position is among the three tried. -/
theorem bitLossIsRecovered : Obligations.BitLossIsRecovered := by
  intro w p k cur hw hsync h1 h60 hk hcur hdup hgood hearlier
  have hn : (cur.toNat + 3) / 4 = p + 4 - k / 4 := by omega
  have hpass := checksum_passes hw (pos := p) (by omega) (by omega) (by rwa [Int.toNat_natCast])
  have hrecover := recover_first_pass (n := ((cur.toNat + 3) / 4 : Nat)) (by omega) (by omega) hpass
    fun q hq hqp => checksum_fails hw fun hq1 _ => hearlier q.toNat (by omega) (by omega) (by omega)
  refine ⟨hn, ?_⟩
  rw [frame_single hdup, if_pos hsync, recoverOn_of_recover hrecover]
  rfl

/-! ## A double transmission -/

/-- Where none of the three positions of a message has a good sum, the recovery gives nothing (R186). -/
theorem recover_fails {w : Memory} (hw : w.nibbles = true) {n : Nat} (h4 : 4 ≤ n)
    (h1 : ¬ ChecksumHolds w (n - 4)) (h2 : ¬ ChecksumHolds w (n - 3)) (h3 : ¬ ChecksumHolds w (n - 2)) :
    recover Constants.source w n = .ok none := by
  have e1 : ((n : Int) - 4).toNat = n - 4 := by omega
  have e2 : ((n : Int) - 3).toNat = n - 3 := by omega
  have e3 : ((n : Int) - 2).toNat = n - 2 := by omega
  obtain ⟨-, -, -, hnone⟩ := recoverTriesThreePositions w n false false false
    (checksum_fails hw fun _ _ => by rwa [e1]) (checksum_fails hw fun _ _ => by rwa [e2])
    (checksum_fails hw fun _ _ => by rwa [e3])
  exact hnone rfl rfl rfl

/-- Settles O52: the scan finds copy B behind its four 0xF nibbles; copy A is framed if it has a sync nibble and a
position that passes, else B spliced over it. -/
theorem doubleTransmissionSplit : Obligations.DoubleTransmissionSplit := by
  intro w a b hwf hw ha h27 h64 hb hmark hleast
  have hdup := findSecondCopy_finds hw h27 h64 (by omega) (by omega) hmark hleast
  have hcut : ((a + 4 : Nat) : Int) - 4 = a := by omega
  have hfirst : w.byte 0 = 0x0A#8 → ∀ len, recover Constants.source w a = .ok (some len) →
      frame Constants.source w (a + 4 + b) = .ok (some (w, len)) := fun hsync len hr =>
    frame_first hdup hsync (by rwa [hcut])
  refine ⟨fun hsync hgood => ?_, hfirst, ?_⟩
  · exact hfirst hsync a (recover_intact hw (by omega) (by omega) hgood)
  · obtain ⟨w', hsplice, -, hbytes⟩ := splice_ok (off := a + 4) (m := b) hwf h64
    have hw' : w'.nibbles = true := (spliceLoop_keeps (a + 4) b 0 hsplice).2 hw
    refine ⟨w', hsplice, fun k hk => by rw [hbytes, if_pos hk], fun hfails => ?_⟩
    have hsecond : frame Constants.source w (a + 4 + b) = recoverOn Constants.source w' b := by
      rw [frame_second hdup, Nat.add_sub_cancel_left, secondCopy_of_splice hsplice]
      intro hsync
      obtain ⟨-, hbad1, hbad2, hbad3⟩ | hbad := hfails
      · rw [hcut]
        exact recover_fails hw (by omega) hbad1 hbad2 hbad3
      · exact absurd hsync hbad
    rw [hsecond]
    refine ⟨fun h5 hgood => ?_, fun len hr => recoverOn_of_recover hr, recoverOn_of_recover⟩
    exact recoverOn_of_recover (recover_intact hw' h5 (by omega) hgood)

end Sys2Proof.Machine
end

section
/-!
PROOFS. Repeat suppression (44_packet_reader.md R188, R189): what is compared, what is stored, and the signed time
difference.
-/
namespace Sys2Proof.Machine

/-- What makes a packet inside the buffer a repeat (R188). -/
theorem isRepeat_ok (s : State) (w : Memory) {len : Nat} (t : Nat) (hlen : len ≤ 64) :
    ∃ b, isRepeat s w len t = .ok b ∧
      (b = true ↔
        timeSince s.cfg t s.dt < (s.cfg.consts.dedupMs : Int) ∧ ∀ k, k + 2 < len → w.byte k = s.dd.byte k) := by
  obtain ⟨same, hsame, hiff⟩ := sameBytes_ok w s.dd (len - 2) (by omega)
  refine ⟨_, by rw [isRepeat, hsame]; rfl, ?_⟩
  simp only [Bool.and_eq_true, decide_eq_true_eq, hiff, Nat.lt_sub_iff_add_lt]

/-- Settles O53: the comparison decides the answer, and the copy is made in both cases. -/
theorem dedupComparesAndReplaces : Obligations.DedupComparesAndReplaces := by
  intro w len t s hlen hwf
  obtain ⟨b, hb, hiff⟩ := isRepeat_ok s w t hlen
  obtain ⟨dd', hdd⟩ := copyBytes_answers w len s.dd hlen
  refine ⟨!b, dd', by rw [dedup, hb, hdd]; rfl, ?_, copyBytes_byte w len hdd hwf⟩
  rw [← hiff, Bool.not_eq_false']

/-- The time difference as a number: the elapsed time modulo 2^32, read as a signed number (R189). -/
theorem timeSince_signed {c : Config} {t dt : Nat} (hwidth : c.timeW = 32) (ht : t < 2 ^ 32) (hdt : dt < 2 ^ 32) :
    timeSince c t dt =
      if 2 * ((t + 2 ^ 32 - dt) % 2 ^ 32) < 2 ^ 32 then (((t + 2 ^ 32 - dt) % 2 ^ 32 : Nat) : Int)
      else (((t + 2 ^ 32 - dt) % 2 ^ 32 : Nat) : Int) - (2 ^ 32 : Nat) := by
  have helapsed : (BitVec.ofNat 32 t - BitVec.ofNat 32 dt).toNat = (t + 2 ^ 32 - dt) % 2 ^ 32 := by
    rw [BitVec.toNat_sub, BitVec.toNat_ofNat, BitVec.toNat_ofNat]
    omega
  rw [timeSince, hwidth, BitVec.toInt_eq_toNat_cond, helapsed]

/-- Settles O54: the two halves of the signed reading; inside the obligation the elapsed time is in the lower half. -/
theorem timeDifferenceIsSigned : Obligations.TimeDifferenceIsSigned := by
  intro c t dt hwidth ht hdt
  rw [timeSince_signed hwidth ht hdt]
  refine ⟨fun hlow => ?_, fun hhigh => ?_, fun hgap => ?_⟩
  · exact if_pos (by omega)
  · rw [if_neg (by omega)]
    exact ⟨rfl, by omega⟩
  · obtain ⟨hle, hhalf⟩ := hgap
    rw [hwidth] at hhalf
    rw [if_pos (by omega)]
    omega

end Sys2Proof.Machine
end

section
/-!
PROOFS. GETDATA as a whole (44_packet_reader.md R180, R181, R190): the ends a command has that consumes the packet, and
the statements read off them.
-/
namespace Sys2Proof.Machine

/-! ## The ends of GETDATA -/

/-- DD and DT after a packet `w` of `len` nibbles: a V2.1 packet replaces them, another leaves them (R180, R188). -/
structure DedupStorage (s : State) (w : Memory) (len : Nat) (dd : Memory) (dt : Nat) : Prop where
  stores : s.ver = 2#2 → copyBytes w s.dd len = .ok dd ∧ dt = arrivalTime s
  keeps : s.ver ≠ 2#2 → dd = s.dd ∧ dt = s.dt

/-- The state that has given up its packet, before any response (R181). -/
def consumed (s : State) : State := afterSnapshot (beginCommand s)

/-- The framing of the packet that `s` holds (R181 to R187). -/
def framed (s : State) : Except Fault (Option (Memory × Nat)) := frame s.cfg.consts (snapshot s) (ceil4 s.cur)

/-- The ends of a GETDATA that consumes its packet (R180): F3 or F4, F5, F6, delivery. -/
inductive GetdataEnd (s : State) (maxLen : Nat) : State → Prop
  | rejected (hframe : framed s = .ok none) :
      GetdataEnd s maxLen { consumed s with resp := 0#32, trace := .checksumFailure :: s.trace }
  | suppressed {w : Memory} {len : Nat} {dd : Memory} (hframe : framed s = .ok (some (w, len))) (hver : s.ver = 2#2)
      (hrepeat : isRepeat s w len (arrivalTime s) = .ok true) (hcopy : copyBytes w s.dd len = .ok dd) :
      GetdataEnd s maxLen
        { consumed s with resp := 0#32, dd := dd, dt := arrivalTime s, trace := .duplicateSuppressed :: s.trace }
  | tooLong {w : Memory} {len : Nat} {dd : Memory} {dt : Nat} (hframe : framed s = .ok (some (w, len)))
      (hfresh : s.ver = 2#2 → isRepeat s w len (arrivalTime s) = .ok false) (hstore : DedupStorage s w len dd dt)
      (hlong : maxLen < len) :
      GetdataEnd s maxLen { consumed s with resp := 0#32, dd := dd, dt := dt }
  | delivered {w : Memory} {len : Nat} {dd : Memory} {dt : Nat} {out : Memory}
      (hframe : framed s = .ok (some (w, len)))
      (hfresh : s.ver = 2#2 → isRepeat s w len (arrivalTime s) = .ok false) (hstore : DedupStorage s w len dd dt)
      (hfits : len ≤ maxLen) (hcopy : copyBytes w s.out len = .ok out) :
      GetdataEnd s maxLen { consumed s with resp := packetResponse s.ver len, dd := dd, dt := dt, out := out }

/-- The steps after the snapshot end in one of these ways (R180). -/
theorem readPacket_end {s t : State} {maxLen : Nat}
    (h : readPacket maxLen s.ver (arrivalTime s) (snapshot s) (ceil4 s.cur) (consumed s) = .ok t) :
    GetdataEnd s maxLen t := by
  obtain ⟨hframe, rfl⟩ | ⟨w, len, ok, s1, hframe, hdedup, hend⟩ := readPacket_cases h
  · exact .rejected hframe
  · obtain ⟨hver, rfl, rfl⟩ | ⟨hver, hrepeat, dd, hdd, rfl⟩ := dedupStep_cases hdedup
    · have hfresh : s.ver = 2#2 → isRepeat s w len (arrivalTime s) = .ok false := fun h2 => absurd h2 hver
      have hstore : DedupStorage s w len s.dd s.dt := ⟨fun h2 => absurd h2 hver, fun _ => ⟨rfl, rfl⟩⟩
      obtain ⟨hok, -⟩ | ⟨-, hlong, rfl⟩ | ⟨-, hfits, out, hcopy, rfl⟩ := hend
      · cases hok
      · exact .tooLong hframe hfresh hstore hlong
      · exact .delivered hframe hfresh hstore hfits hcopy
    · have hstore : DedupStorage s w len dd (arrivalTime s) := ⟨fun _ => ⟨hdd, rfl⟩, fun hne => absurd hver hne⟩
      obtain ⟨rfl, rfl⟩ | ⟨rfl, hlong, rfl⟩ | ⟨rfl, hfits, out, hcopy, rfl⟩ := hend
      · exact .suppressed hframe hver hrepeat hdd
      · exact .tooLong hframe (fun _ => hrepeat) hstore hlong
      · exact .delivered hframe (fun _ => hrepeat) hstore hfits hcopy

/-- GETDATA that answers: turned away (F1, F2), or it has consumed the packet (R180). -/
theorem exec_getdata_end {m : BitVec 7} {s t : State} (h : exec (.getdata m) s = .next t) :
    t = { s with resp := 0#32, rearm := false } ∨ GetdataEnd s m.toNat t := by
  obtain rfl | ⟨-, -, hread⟩ := exec_getdata_cases h
  · exact .inl rfl
  · exact .inr (readPacket_end hread)

/-- With the source's constants GETDATA in READY consumes a packet whose nibbles MAXLEN admits (R180). -/
theorem exec_getdata_consumes {m : BitVec 7} {s : State} (hsource : s.cfg.consts = Constants.source)
    (hready : s.st = .ready) (hm : ceil4 s.cur ≤ m.toNat) :
    ∃ t, exec (.getdata m) s = .next t ∧ GetdataEnd s m.toNat t := by
  obtain ⟨t, hread⟩ := readPacket_answers m.toNat s.ver (arrivalTime s) (snapshot s) (s := consumed s)
    (ceil4_le s.cur) hsource
  refine ⟨t, ?_, readPacket_end hread⟩
  change execGetdata m s = .next t
  rw [execGetdata_runs hready hm, show afterSnapshot (beginCommand s) = consumed s from rfl, hread]

/-- Every end has re-armed the decoder and leaves RAW and prevCap (R181, R246). -/
theorem GetdataEnd.reArmed {s t : State} {maxLen : Nat} (h : GetdataEnd s maxLen t) :
    t.st = .idle ∧ IdleClear t ∧ t.shortCnt = 0 ∧ t.longCnt = 0 ∧ t.raw = s.raw ∧ t.prevCap = s.prevCap ∧
      t.rearm = false := by
  have hclear : IdleClear (consumed s) := ⟨rfl, rfl, rfl, rfl, rfl, rfl, rfl⟩
  cases h <;> exact ⟨rfl, { hclear with }, rfl, rfl, rfl, rfl, rfl⟩

/-- A packet that does not frame is rejected (F3, F4). -/
theorem GetdataEnd.of_unframed {s t : State} {maxLen : Nat} (h : GetdataEnd s maxLen t) (hframe : framed s = .ok none) :
    t = { consumed s with resp := 0#32, trace := .checksumFailure :: s.trace } := by
  cases h with
  | rejected => rfl
  | suppressed hframe' | tooLong hframe' | delivered hframe' => cases hframe.symm.trans hframe'

/-- A framed repeat is suppressed (F5). -/
theorem GetdataEnd.of_repeat {s t : State} {maxLen : Nat} {w : Memory} {len : Nat} (h : GetdataEnd s maxLen t)
    (hframe : framed s = .ok (some (w, len))) (hver : s.ver = 2#2)
    (hrepeat : isRepeat s w len (arrivalTime s) = .ok true) :
    ∃ dd, copyBytes w s.dd len = .ok dd ∧ t =
      { consumed s with resp := 0#32, dd := dd, dt := arrivalTime s, trace := .duplicateSuppressed :: s.trace } := by
  cases h with
  | rejected hframe' => cases hframe.symm.trans hframe'
  | suppressed hframe' _ _ hcopy =>
    cases hframe.symm.trans hframe'
    exact ⟨_, hcopy, rfl⟩
  | tooLong hframe' hfresh | delivered hframe' hfresh =>
    cases hframe.symm.trans hframe'
    cases hrepeat.symm.trans (hfresh hver)

/-- A framed packet that is no repeat is turned down for its length (F6) or delivered. -/
theorem GetdataEnd.of_fresh {s t : State} {maxLen : Nat} {w : Memory} {len : Nat} (h : GetdataEnd s maxLen t)
    (hframe : framed s = .ok (some (w, len)))
    (hfresh : s.ver = 2#2 → isRepeat s w len (arrivalTime s) = .ok false) :
    ∃ dd dt, DedupStorage s w len dd dt ∧
      ((maxLen < len ∧ t = { consumed s with resp := 0#32, dd := dd, dt := dt }) ∨
       (len ≤ maxLen ∧ ∃ out, copyBytes w s.out len = .ok out ∧
          t = { consumed s with resp := packetResponse s.ver len, dd := dd, dt := dt, out := out })) := by
  cases h with
  | rejected hframe' => cases hframe.symm.trans hframe'
  | suppressed hframe' hver hrepeat =>
    cases hframe.symm.trans hframe'
    cases hrepeat.symm.trans (hfresh hver)
  | tooLong hframe' _ hstore hlong =>
    cases hframe.symm.trans hframe'
    exact ⟨_, _, hstore, .inl ⟨hlong, rfl⟩⟩
  | delivered hframe' _ hstore hfits hcopy =>
    cases hframe.symm.trans hframe'
    exact ⟨_, _, hstore, .inr ⟨hfits, _, hcopy, rfl⟩⟩

/-- A V2.1 packet stands at the front of a canonical DD, with its arrival time (R188). -/
theorem DedupStorage.replaced {s : State} {w dd : Memory} {len dt : Nat} (h : DedupStorage s w len dd dt)
    (hver : s.ver = 2#2) : dt = arrivalTime s ∧
      (s.dd.wf = true → ∀ k, dd.byte k = if k < len then w.byte k else s.dd.byte k) := by
  obtain ⟨hcopy, hdt⟩ := h.stores hver
  exact ⟨hdt, copyBytes_byte w len hcopy⟩

/-- DD from the packet's length on stays (R188). -/
theorem DedupStorage.byte_beyond {s : State} {w dd : Memory} {len dt : Nat} (h : DedupStorage s w len dd dt) {k : Nat}
    (hk : len ≤ k) : dd.byte k = s.dd.byte k := by
  by_cases hver : s.ver = 2#2
  · obtain ⟨-, hkeeps, -⟩ := copyBytes_keeps w len (h.stores hver).1
    exact hkeeps k hk
  · rw [(h.keeps hver).1]

/-- The response of a delivery that MAXLEN admits (R190). -/
theorem packetResponse_of_fits (v : BitVec 2) {len : Nat} {m : BitVec 7} (hfits : len ≤ m.toNat) :
    (packetResponse v len).toNat = 256 * v.toNat + len :=
  packetResponse_toNat v (Nat.lt_of_le_of_lt hfits m.isLt)

/-! ## The statements about GETDATA -/

/-- Settles O45: the command ends before the snapshot. -/
theorem getdataTurnedAway : Obligations.GetdataTurnedAway := fun _ _ haway => execGetdata_turned_away haway

/-- Settles O55: every end has re-armed the decoder; F3 and F4 end rejected, F6 too long. -/
theorem getdataConsumesPacket : Obligations.GetdataConsumesPacket := by
  intro s m hsource hready hm
  obtain ⟨t, hexec, hend⟩ := exec_getdata_consumes hsource hready hm
  obtain ⟨hst, hclear, hshort, hlong, hraw, hcap, hrearm⟩ := hend.reArmed
  refine ⟨t, hexec, hst, hclear, hshort, hlong, hraw, hcap, hrearm, ?_, fun hframe => ?_, ?_⟩
  · cases hend with
    | rejected | suppressed | tooLong => exact .inl ⟨rfl, rfl⟩
    | delivered hframe _ _ hfits =>
      rw [framed, hsource] at hframe
      obtain ⟨h5, h64, -⟩ := frame_accepts hframe
      exact .inr ⟨_, h5, h64, hfits, packetResponse_of_fits s.ver hfits⟩
  · obtain rfl := hend.of_unframed hframe
    exact ⟨rfl, rfl, rfl, rfl, rfl⟩
  · intro w len hframe hlen hfresh
    obtain ⟨dd, dt, hstore, ⟨-, rfl⟩ | ⟨hfits, -⟩⟩ := hend.of_fresh hframe hfresh
    · exact ⟨rfl, rfl, rfl, hstore.replaced, hstore.keeps⟩
    · exact absurd hfits (Nat.not_le.2 hlen)

/-- A GETDATA that fits delivers a framed packet that is no repeat, with the state it leaves (R190). -/
theorem exec_getdata_delivers {s : State} {m : BitVec 7} {w : Memory} {len : Nat}
    (hsource : s.cfg.consts = Constants.source) (hready : s.st = .ready) (hm : ceil4 s.cur ≤ m.toNat)
    (hframe : framed s = .ok (some (w, len))) (hfits : len ≤ m.toNat)
    (hfresh : s.ver = 2#2 → isRepeat s w len (arrivalTime s) = .ok false) :
    ∃ dd dt out, DedupStorage s w len dd dt ∧ copyBytes w s.out len = .ok out ∧ exec (.getdata m) s =
      .next { consumed s with resp := packetResponse s.ver len, dd := dd, dt := dt, out := out } := by
  obtain ⟨t, hexec, hend⟩ := exec_getdata_consumes hsource hready hm
  obtain ⟨dd, dt, hstore, ⟨hlong, -⟩ | ⟨-, out, hcopy, rfl⟩⟩ := hend.of_fresh hframe hfresh
  · exact absurd hfits (Nat.not_le.2 hlong)
  · exact ⟨dd, dt, out, hstore, hcopy, hexec⟩

/-- Settles O56: the delivery, byte by byte. -/
theorem getdataDeliversFramedPacket : Obligations.GetdataDeliversFramedPacket := by
  intro s m w len hsource hready hm hout hdd hframe hfits hfresh
  obtain ⟨dd, dt, out, hstore, hcopy, hexec⟩ := exec_getdata_delivers hsource hready hm hframe hfits hfresh
  refine ⟨_, hexec, packetResponse_of_fits s.ver hfits, rfl, ⟨rfl, rfl, rfl, rfl, rfl, rfl, rfl⟩, rfl,
    copyBytes_byte w len hcopy hout, fun hver => ?_, hstore.keeps⟩
  obtain ⟨hdt, hbytes⟩ := hstore.replaced hver
  exact ⟨hdt, hbytes hdd⟩

/-- Settles O57: the suppression, with DD byte by byte. -/
theorem getdataSuppressesRepeat : Obligations.GetdataSuppressesRepeat := by
  intro s m w len hsource hready hm hdd hframe hver hrepeat
  obtain ⟨t, hexec, hend⟩ := exec_getdata_consumes hsource hready hm
  obtain ⟨dd, hcopy, rfl⟩ := hend.of_repeat hframe hver hrepeat
  exact ⟨_, hexec, rfl, rfl, ⟨rfl, rfl, rfl, rfl, rfl, rfl, rfl⟩, rfl, rfl, rfl, copyBytes_byte w len hcopy hdd⟩

/-- A message of 5 to 27 nibbles in RAW with its sync nibble and its checksum frames as it stands (R181 to R186). -/
theorem framed_intact {s : State} (hsource : s.cfg.consts = Constants.source) (h5 : 5 ≤ ceil4 s.cur)
    (h27 : ceil4 s.cur ≤ 27) (hnib : s.raw.nibbles = true) (hsync : s.raw.byte 0 = 0x0A#8)
    (hgood : ChecksumHolds s.raw (ceil4 s.cur - 4)) : framed s = .ok (some (snapshot s, ceil4 s.cur)) := by
  have hread : ∀ k, k < ceil4 s.cur → (snapshot s).byte k = s.raw.byte k := fun k hk => by
    rw [snapshot_byte s (by omega), snapshotByte_written hk]
  have hgood' : ChecksumHolds (snapshot s) (ceil4 s.cur - 4) := hgood.congr fun k hk => (hread k (by omega)).symm
  have hrecover := recover_intact (snapshot_nibbles hnib) h5 (by omega) hgood'
  rw [framed, hsource, frame_single (findSecondCopy_short _ h27), if_pos (by rw [hread 0 (by omega), hsync]),
    recoverOn_of_recover hrecover]
  rfl

/-- Settles O58: the message frames as it stands, and a V3 packet is no repeat. -/
theorem getdataDeliversIntactMessage : Obligations.GetdataDeliversIntactMessage := by
  intro s m n hsource hready hver hn h5 h27 hm hnib hout hsync hgood
  obtain rfl : n = ceil4 s.cur := hn
  have hnot2 : s.ver ≠ 2#2 := by rw [hver]; decide
  obtain ⟨dd, dt, out, hstore, hcopy, hexec⟩ := exec_getdata_delivers hsource hready hm
    (framed_intact hsource h5 h27 hnib hsync hgood) hm fun h2 => absurd h2 hnot2
  obtain ⟨rfl, rfl⟩ := hstore.keeps hnot2
  refine ⟨_, hexec, (packetResponse_of_fits s.ver hm).trans (by rw [hver]; rfl), rfl, rfl, rfl, fun k => ?_⟩
  refine (copyBytes_byte _ _ hcopy hout k).trans ?_
  by_cases hk : k < ceil4 s.cur
  · rw [if_pos hk, if_pos hk, snapshot_byte s (by omega), snapshotByte_written hk]
  · rw [if_neg hk, if_neg hk]

/-- A framed packet is valid (R182, R185, R186). -/
theorem framed_valid {s : State} {w : Memory} {len : Nat} (hsource : s.cfg.consts = Constants.source)
    (hnib : s.raw.nibbles = true) (hframe : framed s = .ok (some (w, len))) : ValidPacket w len := by
  rw [framed, hsource] at hframe
  obtain ⟨h5, h64, hpass⟩ := frame_accepts hframe
  have hw : w.nibbles = true := (frame_keeps hframe).2 (snapshot_nibbles hnib)
  have hpos : ((len : Int) - 4).toNat = len - 4 := by omega
  have hgood := checksumHolds_of_passes hw (by omega) (by omega) hpass
  exact ⟨frame_sync (snapshot_wf s) (snapshot_nibbles hnib) (ceil4_le s.cur) hframe, h5, h64, hpos ▸ hgood⟩

/-- Validity is about the packet's own bytes. -/
theorem ValidPacket.congr {m m' : Memory} {len : Nat} (h : ValidPacket m len)
    (hbytes : ∀ k, k < len → m.byte k = m'.byte k) : ValidPacket m' len := by
  obtain ⟨hsync, h5, h64, hgood⟩ := h
  exact ⟨by rw [← hbytes 0 (by omega), hsync], h5, h64, hgood.congr fun k hk => hbytes k (by omega)⟩

/-- Settles O59: only a delivery answers with RESP not 0, and OUT then holds the framed packet's bytes. -/
theorem deliveredPacketIsValid : Obligations.DeliveredPacketIsValid := by
  intro s t m hsource hbuffers hexec hresp
  obtain rfl | hend := exec_getdata_end hexec
  · exact absurd rfl hresp
  · cases hend with
    | rejected | suppressed | tooLong => exact absurd rfl hresp
    | delivered hframe _ _ hfits hcopy =>
      have hbytes := copyBytes_byte _ _ hcopy hbuffers.out_wf
      exact ⟨_, (framed_valid hsource hbuffers.raw_nibbles hframe).congr fun k hk => by rw [hbytes, if_pos hk],
        hfits, packetResponse_of_fits s.ver hfits⟩

/-- Every end leaves NOW, and OUT and DD from the framed length on; the trace grows by cause c or e at most. -/
theorem GetdataEnd.frame {s t : State} {maxLen : Nat} (h : GetdataEnd s maxLen t) :
    t.now = s.now ∧
    (∀ k, (∀ w len, framed s = .ok (some (w, len)) → len ≤ k) →
      t.out.byte k = s.out.byte k ∧ t.dd.byte k = s.dd.byte k) ∧
    (t.trace = s.trace ∨ t.trace = .checksumFailure :: s.trace ∨ t.trace = .duplicateSuppressed :: s.trace) := by
  cases h with
  | rejected => exact ⟨rfl, fun _ _ => ⟨rfl, rfl⟩, .inr (.inl rfl)⟩
  | suppressed hframe _ _ hcopy =>
    obtain ⟨-, hkeeps, -⟩ := copyBytes_keeps _ _ hcopy
    exact ⟨rfl, fun k hk => ⟨rfl, hkeeps k (hk _ _ hframe)⟩, .inr (.inr rfl)⟩
  | tooLong hframe _ hstore =>
    exact ⟨rfl, fun k hk => ⟨rfl, hstore.byte_beyond (hk _ _ hframe)⟩, .inl rfl⟩
  | delivered hframe _ hstore _ hcopy =>
    obtain ⟨-, hkeeps, -⟩ := copyBytes_keeps _ _ hcopy
    exact ⟨rfl, fun k hk => ⟨hkeeps k (hk _ _ hframe), hstore.byte_beyond (hk _ _ hframe)⟩, .inl rfl⟩

/-- Settles O60: turned away, nothing but RESP and REARM changes; else by the ends. -/
theorem getdataFrame : Obligations.GetdataFrame := by
  intro s t m hexec
  obtain ⟨hcfg, hpending⟩ := exec_getdata_keeps_inputs hexec
  obtain ⟨-, hrearm, hraw⟩ := exec_getdata_frame hexec
  obtain ⟨hdedup, hout⟩ := exec_getdata_changes_storage hexec
  have hstay : s.ver ≠ 2#2 → t.dd = s.dd ∧ t.dt = s.dt := fun hver =>
    (not_or.1 (mt hdedup fun h => hver h.2)).imp Decidable.not_not.1 Decidable.not_not.1
  have hout_stay : t.resp = 0#32 → t.out = s.out := fun hresp =>
    Decidable.not_not.1 (mt hout fun h => h.2 hresp)
  obtain rfl | hend := exec_getdata_end hexec
  · exact ⟨rfl, rfl, rfl, rfl, rfl, rfl, hstay, hout_stay, fun _ _ => ⟨rfl, rfl⟩, .inl rfl⟩
  · obtain ⟨-, -, -, -, -, hcap, -⟩ := hend.reArmed
    obtain ⟨hnow, hbytes, htrace⟩ := hend.frame
    exact ⟨hcfg, hpending, hnow, hraw, hcap, hrearm, hstay, hout_stay, hbytes, htrace⟩

end Sys2Proof.Machine
end

section
/-!
PROOFS. The host interface (45_host_interface.md R220 to R224): INIT, AVAIL, START, the three STATUS views as numbers,
and a step on an illegal word.
-/
namespace Sys2Proof.Machine

/-! ## INIT, AVAIL and START as whole next states -/

/-- Settles O22: INIT's own equation, which reads nothing of the state but the fields it keeps. -/
theorem initClearsEverything : Obligations.InitClearsEverything := ⟨rfl, fun _ => rfl⟩

/-- The output RDY is the test for READY (R37, R221). -/
theorem rdy_iff (s : State) : s.rdy = true ↔ s.st = .ready := beq_iff_eq

/-- AVAIL writes RDY into RESP and nothing else (R221). -/
theorem exec_avail (s : State) :
    exec .avail s = .next { s with resp := if s.rdy then 1#32 else 0#32, rearm := false } := rfl

/-- Settles O23: AVAIL answers RDY, which is 1 exactly in READY. -/
theorem availReportsReady : Obligations.AvailReportsReady := by
  refine ⟨rfl, fun s => ⟨rdy_iff s, fun hready => ?_, fun hother => ?_⟩⟩
  · rw [exec_avail, if_pos ((rdy_iff s).2 hready)]
  · rw [exec_avail, if_neg (mt (rdy_iff s).1 hother)]

/-- START is a re-arm in READY, and answers with ACK everywhere (R222). -/
theorem exec_start (s : State) : exec .start s =
    .next (respond ackResponse (if s.st = .ready then reArm (beginCommand s) else beginCommand s)) := rfl

/-- Settles O24: the two branches of START, the first being the re-arm of R246. -/
theorem startReArms : Obligations.StartReArms := by
  refine ⟨rfl, fun s => ⟨fun hready => ?_, fun hother => ?_⟩⟩
  · rw [exec_start, if_pos hready]
    rfl
  · rw [exec_start, if_neg hother]
    rfl

/-! ## STATUS -/

/-- The control view as a number, the protocol state as its code (R223). -/
theorem controlView_toNat (s : State) : (controlView s).toNat =
    s.st.code.toNat + 4 * s.ver.toNat + 16 * s.pend.toNat + 32 * s.lastBit.toNat + 64 * s.dump.toNat +
      128 * s.psp.toNat + 256 * s.armed.toNat + 65536 * s.cur.toNat := by
  simp only [controlView, Word.toNat_cat, BitVec.toNat_ofNat, BitVec.toNat_ofBool]
  omega

/-- The counters view as a number, each counter modulo 2^8 (R223). -/
theorem countersView_toNat (s : State) :
    (countersView s).toNat = s.shortCnt % 256 + 256 * (s.longCnt % 256) := by
  simp only [countersView, Word.toNat_cat, BitVec.toNat_ofNat]
  omega

/-- The capture view as a number (R223). -/
theorem captureView_toNat (s : State) : (captureView s).toNat = s.prevCap.toNat := by
  simp only [captureView, Word.toNat_cat, BitVec.toNat_ofNat]
  omega

/-- Settles O25: each STATUS answers its view, whose fields stand side by side; the code of each protocol state is its
number. -/
theorem statusViews : Obligations.StatusViews := by
  refine ⟨⟨rfl, rfl, rfl⟩, fun s => ⟨⟨controlView s, rfl, ?_⟩, ⟨countersView s, rfl, countersView_toNat s⟩,
    ⟨captureView s, rfl, captureView_toNat s⟩⟩⟩
  rw [controlView_toNat]
  cases s.st <;> rfl

/-! ## Illegal words -/

/-- A step on a word that does not decode is the ILLEGAL effect on the state that has accepted it (R90, R224). -/
theorem step_of_decode_error {s : State} {c : CommandIn} {rest : List CommandIn} {e : Illegal}
    (hwf : s.cfg.wf = true) (hp : s.pending = c :: rest) (hd : decode c.cmd = .error e) :
    step s = execIllegal (acceptCommand c rest s) := by
  simp [step, hwf, hp, runWord, hd]

/-- Settles O8: the ILLEGAL effect writes RESP and lowers REARM, and accepting the word moves the ports only. -/
theorem stepOnIllegalWord : Obligations.StepOnIllegalWord := fun _ _ _ _ => step_of_decode_error

end Sys2Proof.Machine
end

section
/-!
PROOFS. Exceptions (60_exceptions.md R241 to R246, R255): the registers of a full reset and a re-arm, which pulse raises
a full reset and with what cause, the only ways out of READY, the step that waits, and the order of simultaneous
requests.
-/
namespace Sys2Proof.Machine

/-! ## Full reset and re-arm -/

/-- Settles O26: both are the register changes they share, and FullReset adds its cause to the trace. -/
theorem fullResetAndReArmRegisters : Obligations.FullResetAndReArmRegisters := fun _ _ => ⟨rfl, rfl⟩

/-- A pulse that raises no full reset adds no cause (R241). -/
theorem PulseCase.trace_run {c : PulseClass} {s t : State} (h : PulseCase c s (.run t)) : t.trace = s.trace := by
  cases h <;> rfl

/-- A pulse is in no row of R242 and adds no cause, or it is the full reset of its row, maybe after a write to RAW. -/
theorem pulse_reset_cases {c : PulseClass} {s t : State} (h : (pulse c s).outcome = .next t) :
    (resetCause c s = none ∧ t.trace = s.trace) ∨
    ∃ cause raw, resetCause c s = some cause ∧ t = fullReset cause { s with raw := raw } := by
  obtain hrun | hraised := pulse_outcome_case h
  · exact .inl ⟨hrun.resetCause_run, hrun.trace_run⟩
  · exact .inr hraised.resetCause_raised

/-- A full reset leaves the registers of IDLE clear (R41, R245). -/
theorem fullReset_idleClear (cause : Cause) (s : State) : IdleClear (fullReset cause s) :=
  ⟨rfl, rfl, rfl, rfl, rfl, rfl, rfl⟩

/-- The rows of R242 read none of prevCap, RESP and REARM, which a command writes before its pulse. -/
theorem resetCause_with_ports (c : PulseClass) (s : State) (p : Ticks) (v : Word) (r : Bool) :
    resetCause c { s with prevCap := p, resp := v, rearm := r } = resetCause c s := rfl

/-- Settles O18: a pulse is in a row of R242 exactly where it raises, and of the other commands only GETDATA adds a
cause. -/
theorem fullResetsAndCauses : Obligations.FullResetsAndCauses := by
  intro i s t h
  refine ⟨fun c hc => ?_, fun hc hg => ?_⟩
  · obtain ⟨p, hp, -⟩ := exec_pulse hc h
    obtain ⟨hnone, htrace⟩ | ⟨cause, raw, hrow, rfl⟩ := pulse_reset_cases hp
    · rw [resetCause_with_ports] at hnone
      simp [hnone, htrace]
    · rw [resetCause_with_ports] at hrow
      rw [hrow]
      exact ⟨rfl, fun _ => ⟨rfl, fullReset_idleClear _ _, rfl, rfl⟩⟩
  · obtain ⟨-, htrace, -⟩ := exec_other hc hg h
    exact htrace

/-! ## The ways out of READY -/

/-- A GETDATA that moves the protocol state has consumed a packet whose nibbles MAXLEN admits, into IDLE (R180,
R181). -/
theorem exec_getdata_moves {m : BitVec 7} {s t : State} (h : exec (.getdata m) s = .next t) (hne : t.st ≠ s.st) :
    t.st = .idle ∧ ceil4 s.cur ≤ m.toNat := by
  obtain rfl | ⟨-, hfits, hread⟩ := exec_getdata_cases h
  · exact absurd rfl hne
  · obtain ⟨⟨hst, -, -⟩, -, -⟩ := readPacket_frame hread
    exact ⟨hst, hfits⟩

/-- Of the commands that are neither a pulse nor GETDATA only INIT and START leave READY, for IDLE (R246, R273). -/
theorem ControlCase.leaves_ready {i : Instr} {s t : State} (h : ControlCase s i t) (hready : s.st = .ready)
    (hne : t.st ≠ .ready) : t.st = .idle ∧ (i = .init ∨ i = .start) := by
  cases h with
  | clears => exact ⟨rfl, .inl rfl⟩
  | responds r hi => exact absurd hready hne
  | reArms hst => exact ⟨rfl, .inr rfl⟩
  | ends he => exact absurd rfl hne
  | disarms he => exact absurd hready hne

/-- Settles O16: a pulse in READY is discarded, GETDATA leaves READY by consuming the packet, and of the others INIT and
START leave it. -/
theorem readyIsLeftOnlyByReArm : Obligations.ReadyIsLeftOnlyByReArm := by
  intro i s t h hready hne
  obtain ⟨m, rfl⟩ | ⟨c, p, -, hp⟩ | ⟨-, -, hcase⟩ := exec_cases h
  · obtain ⟨hidle, hfits⟩ := exec_getdata_moves h (hready ▸ hne)
    exact ⟨hidle, .inr (.inr ⟨m, rfl, hfits⟩)⟩
  · obtain rfl := pulse_ready_unchanged hp hready
    exact absurd hready hne
  · obtain ⟨hidle, hi⟩ := hcase.leaves_ready hready hne
    exact ⟨hidle, hi.imp_right .inl⟩

/-! ## The step that waits -/

/-- With no command on CMD a step only waits (R255, R270, log 3). -/
theorem step_of_no_command {s : State} (hwf : s.cfg.wf = true) (hp : s.pending = []) :
    step s = .next (waitForCommand s) := by
  simp [step, hwf, hp]

/-- Settles O9: waiting lowers REARM and changes nothing else. -/
theorem stepWaitsForCommand : Obligations.StepWaitsForCommand := fun _ => step_of_no_command

/-! ## The order of simultaneous requests -/

/-- One more request joins the others, at some place among them (R244). -/
theorem insertRequest_perm (i : Instr) (l : List Instr) : (insertRequest i l).Perm (i :: l) := by
  induction l with
  | nil => exact .refl _
  | cons j rest ih =>
    rw [insertRequest]
    split
    · exact .refl _
    · exact (ih.cons j).trans (.swap i j rest)

/-- The order of R244 on commands: the rank of the first is at most the rank of the second. -/
abbrev GoesFirst (i j : Instr) : Prop := (commandSource i).rank ≤ (commandSource j).rank

/-- One more request keeps sorted requests sorted: it goes before the first one whose rank is not below its own. -/
theorem insertRequest_sorted (i : Instr) {l : List Instr} (h : l.Pairwise GoesFirst) :
    (insertRequest i l).Pairwise GoesFirst := by
  induction l with
  | nil => exact List.pairwise_singleton _ i
  | cons j rest ih =>
    obtain ⟨hj, hrest⟩ := List.pairwise_cons.1 h
    rw [insertRequest]
    split
    · rename_i hij
      refine List.pairwise_cons.2 ⟨fun k hk => ?_, h⟩
      obtain rfl | hk := List.mem_cons.1 hk
      · exact hij
      · exact Nat.le_trans hij (hj k hk)
    · rename_i hij
      refine List.pairwise_cons.2 ⟨fun k hk => ?_, ih hrest⟩
      obtain rfl | hk := List.mem_cons.1 ((insertRequest_perm i rest).mem_iff.1 hk)
      · exact Nat.le_of_not_le hij
      · exact hj k hk

/-- The arbitration loses and adds no request (R244). -/
theorem arbitrate_perm (l : List Instr) : (arbitrate l).Perm l := by
  induction l with
  | nil => exact .refl _
  | cons i rest ih => exact (insertRequest_perm i (arbitrate rest)).trans (ih.cons i)

/-- The arbitration sorts by rank (R244). -/
theorem arbitrate_sorted (l : List Instr) : (arbitrate l).Pairwise GoesFirst := by
  induction l with
  | nil => exact .nil
  | cons i rest ih => exact insertRequest_sorted i ih

/-- Settles O21: placing the requests one by one keeps them all and keeps them sorted, and each rank is the one of its
command's source. -/
theorem arbitrationSortsByPriority : Obligations.ArbitrationSortsByPriority :=
  ⟨fun l => ⟨arbitrate_perm l, arbitrate_sorted l⟩, rfl, fun _ _ => rfl, fun _ _ _ => rfl, rfl, rfl, fun _ => rfl, rfl,
    rfl, rfl, rfl⟩

end Sys2Proof.Machine
end
